-- ==== Sys2Proof/Word.lean ====
section
/-! DEFINITION. The word types of CORE (00_scope.md R5, R6, R7, R9): unsigned bit vectors, bit 0 least significant. -/

namespace Sys2Proof

/-- A command word, `cmd[31:0]` (30_encoding.md R50). -/
abbrev Command := BitVec 32

/-- A value of the generator width GW: generator, remainder, table entry (00_scope.md R5, R7). -/
abbrev GenWord (gw : Nat) := BitVec gw

/-- One word of the data stream, W bits (00_scope.md R6). -/
abbrev DataWord (w : Nat) := BitVec w

end Sys2Proof
end

