-- ==== Sys2Proof/Config.lean ====
section
/-! DEFINITION. The configuration of one instance of CORE (00_scope.md R5, R6) and the free values of the model:
opaque constants without a body, so that no proof can see a value of theirs. -/

namespace Sys2Proof

/-- The instance parameters, fixed when the block is built: `gw` (GW, 00_scope.md R5) and `w` (W, R6), each 1 to 255. -/
structure Config where
  gw : Nat
  w : Nat
  gwPos : 0 < gw := by decide
  gwLe : gw ≤ 255 := by decide
  wPos : 0 < w := by decide
  wLe : w ≤ 255 := by decide
deriving DecidableEq, Repr

/-- The instance whose reset state is `State.reset`: GW = 32, W = 8.
DESIGN CHOICE (log entry 1): the spec leaves GW and W open (92_eei_decisions.md D4); no claim rests on these two numbers. -/
def Config.resetChoice : Config where
  gw := 32
  w := 8

/-- What register number `regNo`, of `width` bits, holds after reset number `epoch` where the spec says "unspecified"
(10_state.md R29, 70_reset_and_hazards.md R146; 93 U5). A free value (log entry 4). -/
opaque Config.drawReg (width epoch regNo : Nat) : BitVec width

/-- What word `index` of the DATA store reads as when nothing has written it since reset number `epoch`
(10_state.md R29, 70_reset_and_hazards.md R146; 93 U6). A free value (log entry 5). -/
opaque Config.drawData (width epoch index : Nat) : BitVec width

/-- What entry `index` of the TABLE store reads as when nothing has written it since reset number `epoch`
(10_state.md R29, 70_reset_and_hazards.md R146, R147; 93 U6, U18). A free value (log entry 5). -/
opaque Config.drawTable (width epoch index : Nat) : BitVec width

/-- What the host's read number `k` made while STATE = BUSY returns for a result register or a table entry
(70_reset_and_hazards.md R153; 93 U9). A free value, fresh for each such read (log entry 6). -/
opaque Config.drawBusy (width k : Nat) : BitVec width

end Sys2Proof
end

