-- ==== Sys2Proof/Syntax.lean ====
section
/-! DEFINITION. The six operations of CORE, its "instructions" (00_scope.md R2, 30_encoding.md R52): one constructor per
row of spec/opcode_table.json, with the operands the command word carries (R8, R51). The other operands are held in
registers and stores (R55). -/

namespace Sys2Proof

/-- The opcodes that name an operation (30_encoding.md R52). OP 0 and OP 7 are reserved (R56) and name none. -/
inductive Op where
  | norm
  | divref
  | mktbl
  | divword
  | divsub
  | divmulti
deriving DecidableEq, Repr

/-- One command. `degree` is the DEGREE field, `chunkSize` and `tableSize` are the SIZE field (30_encoding.md R51 to R54):
naturals, since the rules compute with them as naturals (40_normalizer.md R65); their 8-bit range is checked in WellFormed. -/
inductive Instr where
  /-- NORM, the polynomial normalizer (40_normalizer.md R64, R68). -/
  | norm (degree chunkSize : Nat)
  /-- DIVREF, the bit-serial reference divider (41_reference_divider.md R74, R75). -/
  | divref (degree : Nat)
  /-- MKTBL, the table builder (42_table_builder.md R80, R82). -/
  | mktbl (degree tableSize : Nat)
  /-- DIVWORD, the word-table divider (43_word_table_divider.md R88, R90). -/
  | divword (degree : Nat)
  /-- DIVSUB, the small-table divider (44_small_table_divider.md R95, R99). -/
  | divsub (degree : Nat)
  /-- DIVMULTI, the big-table divider (45_big_table_divider.md R104, R107). -/
  | divmulti (degree : Nat)
deriving DecidableEq, Repr

/-- The operation a command names. -/
def Instr.op : Instr → Op
  | .norm _ _ => .norm
  | .divref _ => .divref
  | .mktbl _ _ => .mktbl
  | .divword _ => .divword
  | .divsub _ => .divsub
  | .divmulti _ => .divmulti

/-- The command's `degree` operand (30_encoding.md R53). -/
def Instr.degree : Instr → Nat
  | .norm d _ => d
  | .divref d => d
  | .mktbl d _ => d
  | .divword d => d
  | .divsub d => d
  | .divmulti d => d

/-- The command's SIZE operand; 0 for the four dividers, which have none (30_encoding.md R54). -/
def Instr.size : Instr → Nat
  | .norm _ c => c
  | .divref _ => 0
  | .mktbl _ t => t
  | .divword _ => 0
  | .divsub _ => 0
  | .divmulti _ => 0

end Sys2Proof
end

