-- ==== Sys2Proof/WellFormed.lean ====
section
/-! DEFINITION. Which commands can be presented to CORE at all: both operand fields are unsigned 8-bit numbers
(30_encoding.md R53, R54; 93 U21). -/

namespace Sys2Proof

/-- DEGREE fits its field: "a degree the field cannot hold (256 or more) cannot be presented to CORE at all" (R53). -/
def Instr.degreeFits (i : Instr) : Bool := decide (i.degree < 256)

/-- SIZE fits its field (R54). -/
def Instr.sizeFits (i : Instr) : Bool := decide (i.size < 256)

/-- A well-formed command: one that some 32-bit word spells. -/
def Instr.wf (i : Instr) : Bool := i.degreeFits && i.sizeFits

end Sys2Proof
end

