-- ==== Sys2Proof/Decode.lean ====
section
/-! DEFINITION. The command word: its fields (30_encoding.md R51), the total decoder (R58, R60), which rejects by name
(R56, R57), the encoder (R61), and the table of masks and matches (R59). -/

namespace Sys2Proof

/-- OP, `cmd[2:0]` (R51). -/
def cmdOp (c : Command) : BitVec 3 := c.extractLsb' 0 3

/-- RSV0, `cmd[7:3]`, reserved, must be 0 (R51). -/
def cmdRsv0 (c : Command) : BitVec 5 := c.extractLsb' 3 5

/-- DEGREE, `cmd[15:8]` (R51, R53). -/
def cmdDegree (c : Command) : BitVec 8 := c.extractLsb' 8 8

/-- SIZE, `cmd[23:16]` (R51, R54). -/
def cmdSize (c : Command) : BitVec 8 := c.extractLsb' 16 8

/-- RSV1, `cmd[31:24]`, reserved, must be 0 (R51). -/
def cmdRsv1 (c : Command) : BitVec 8 := c.extractLsb' 24 8

/-- Why a word is no command (30_encoding.md R56, R57): the three tests of R60. -/
inductive Illegal where
  /-- RSV0 or RSV1 is not 0 (R57). -/
  | reservedField
  /-- OP is 0 or 7 (R56). -/
  | reservedOp
  /-- SIZE is not 0 on DIVREF, DIVWORD, DIVSUB or DIVMULTI (R57). -/
  | sizeOnDivider
deriving DecidableEq, Repr

/-- The result of decoding a word: a command, or Illegal with its reason (R58). -/
inductive Decoded where
  | ok (i : Instr)
  | illegal (why : Illegal)
deriving DecidableEq, Repr

/-- The command read, if there is one. -/
def Decoded.toOption : Decoded → Option Instr
  | .ok i => some i
  | .illegal _ => none

/-- A divider's command once its reserved fields have passed: SIZE must be 0 (R57). -/
def decodeDivider (c : Command) (mk : Nat → Instr) : Decoded :=
  if cmdSize c != 0#8 then .illegal .sizeOnDivider else .ok (mk (cmdDegree c).toNat)

/-- The decode procedure's tests, in the order of 30_encoding.md R60. -/
def decode (c : Command) : Decoded :=
  if cmdRsv0 c != 0#5 || cmdRsv1 c != 0#8 then .illegal .reservedField
  else if cmdOp c == 1#3 then .ok (.norm (cmdDegree c).toNat (cmdSize c).toNat)
  else if cmdOp c == 2#3 then decodeDivider c .divref
  else if cmdOp c == 3#3 then .ok (.mktbl (cmdDegree c).toNat (cmdSize c).toNat)
  else if cmdOp c == 4#3 then decodeDivider c .divword
  else if cmdOp c == 5#3 then decodeDivider c .divsub
  else if cmdOp c == 6#3 then decodeDivider c .divmulti
  else .illegal .reservedOp

/-- The OP field of each operation (R52). -/
def Op.code : Op → BitVec 3
  | .norm => 1#3
  | .divref => 2#3
  | .mktbl => 3#3
  | .divword => 4#3
  | .divsub => 5#3
  | .divmulti => 6#3

/-- The word a command assembles to: `(size << 16) or (degree << 8) or OP` (R61). -/
def encode (i : Instr) : Command :=
  (BitVec.ofNat 32 i.size <<< 16) ||| (BitVec.ofNat 32 i.degree <<< 8) ||| (i.op.code).setWidth 32

/-- One row of 30_encoding.md R59: a word `c` selects the operation when `c and mask = pattern`. -/
structure OpcodeRow where
  op : Op
  mask : Command
  pattern : Command
deriving DecidableEq, Repr

/-- The six rows of R59. -/
def opcodeRows : List OpcodeRow :=
  [ ⟨.norm, 0xFF0000FF#32, 0x00000001#32⟩,
    ⟨.divref, 0xFFFF00FF#32, 0x00000002#32⟩,
    ⟨.mktbl, 0xFF0000FF#32, 0x00000003#32⟩,
    ⟨.divword, 0xFFFF00FF#32, 0x00000004#32⟩,
    ⟨.divsub, 0xFFFF00FF#32, 0x00000005#32⟩,
    ⟨.divmulti, 0xFFFF00FF#32, 0x00000006#32⟩ ]

/-- Does the word select the row's operation (R59)? -/
def OpcodeRow.selects (row : OpcodeRow) (c : Command) : Bool := c &&& row.mask == row.pattern

/-- What the decoder reads from an instruction whose bits are `w`, of which the opcode table gives the low `nbits`
(bits above are 0). A command is one 32-bit word, written to CMD whole (R50), so there is no byte order to undo; a value of
more than 32 bits is no command. -/
def decodeTableWord (nbits w : Nat) : Option Instr :=
  if w % 2 ^ nbits < 2 ^ 32 then (decode (BitVec.ofNat 32 (w % 2 ^ nbits))).toOption else none

end Sys2Proof
end

