-- ==== Sys2Proof/Machine/State.lean ====
section
/-! DEFINITION. The state of CORE as plain data (10_state.md R13): the ten registers (R14), the DATA and TABLE stores
(20_memory.md R33), the sequencer state with its working values (R21, R25), the instance parameters carried beside them
(R26, log entry 1), and the model's own fields (the host's coming actions, its last reply, the keys of the free values);
the reasons a step stops; and the state after reset (R29). -/

namespace Sys2Proof.Machine

/-- STATUS.STATE (10_state.md R22, R23). -/
inductive RunState where
  | idle
  | busy
  | done
  | error
deriving DecidableEq, Repr

/-- STATUS as its three fields (R22). The reserved bits are the constant 0 and the host cannot write the register, so no
other bit of it is storage (93 U15; log entry 9); the 32-bit register the host reads is `Status.word`. -/
structure Status where
  state : RunState
  err : BitVec 8
  lastop : BitVec 3
deriving DecidableEq, Repr

/-- The registers of 10_state.md R14, under the spec's names. -/
inductive Reg where
  | cmd
  | status
  | gen
  | dataLen
  | tableLen
  | rem
  | ngen
  | nshift
  | ncarry
  | nmask
deriving DecidableEq, Repr

/-- The causes of failure of 60_exceptions.md R126. Each ends the operation in STATUS and is a next state of the machine,
not a stop of it (R125, R136). -/
inductive Failure where
  /-- 0x11: degree > GW, "generator too small for degree". -/
  | degreeAboveGw
  /-- 0x12: chunk > degree, "polynomial smaller than data chunk". -/
  | chunkAboveDegree
  /-- 0x13: degree = 0. -/
  | degreeZero
  /-- 0x21: table_size >= 33, "table too large". -/
  | tableTooLarge
  /-- 0x31: TABLE_LEN != 2^W, "wrong sized table". -/
  | wrongSizedTable
  /-- 0x32: B > W, "table too large for input words". -/
  | tableWiderThanWord
  /-- 0x33: W mod B != 0, "not an exact divisor". -/
  | notExactDivisor
  /-- 0x34: B mod W != 0. -/
  | notExactMultiple
  /-- 0x35: B > degree, "the table width exceeds the polynomial degree". -/
  | tableWiderThanDegree
  /-- 0x36: TABLE_LEN is no power of two, or is 1. -/
  | noTableWidth
  /-- 0x41: the word is no command. -/
  | illegalCommand
deriving DecidableEq, Repr

/-- A store: (index, element) pairs. Canonical form (`Memory.wf`): indices strictly rising. An index is listed exactly
when it has been written since the last reset; an unlisted one reads as a free value (log entry 5). -/
abbrev Memory (n : Nat) := List (Nat × BitVec n)

/-- The working values of a running operation (10_state.md R25), under the spec's names. They exist only inside
`Seq.run`. A value its operation does not use is 0 (log entry 10). -/
structure Work (gw w : Nat) where
  r : BitVec gw
  g : BitVec gw
  carry : BitVec gw
  mask : BitVec gw
  shift : Nat
  buf : BitVec w
  B : Nat
  n : Nat
  k : Nat
  m : Nat
  bshift : Nat
  lsh : Nat
  rsh : Nat
  idx : Nat
deriving DecidableEq, Repr

/-- The sequencer state of 10_state.md R21: Idle, Check(op), or Run(op, i, j, s), the last with the working values. -/
inductive Seq (gw w : Nat) where
  | idle
  | check (op : Op)
  | run (op : Op) (i j s : Nat) (work : Work gw w)
deriving DecidableEq, Repr

/-- What happens next, in the order given by `State.pending`: an action of the host (30_encoding.md R62), or, between two
of them, one step of a running operation (92_eei_decisions.md D9; log entries 2 and 3). -/
inductive Event where
  /-- RESET: the reset of 70_reset_and_hazards.md R145. -/
  | reset
  /-- WR: host write of a register. A write of CMD starts an operation, which runs to its end in this one step
  (the atomic reading of D9, the recommended one). -/
  | writeReg (reg value : Nat)
  /-- Host write of CMD, the operation then running one micro-step at a time (the small-step reading of D9). -/
  | startCmd (value : Nat)
  /-- RD: host read of a register. -/
  | readReg (reg : Nat)
  /-- Host write of one word of the DATA store. -/
  | writeData (index value : Nat)
  /-- Host write of one entry of the TABLE store (20_memory.md R49). -/
  | writeTable (index value : Nat)
  /-- RDT: host read of one entry of the TABLE store. -/
  | readTable (index : Nat)
  /-- No host action: the sequencer makes one micro-step if an operation is running. -/
  | tick
deriving DecidableEq, Repr

/-- Why a step stops with a fault. -/
inductive Fault where
  /-- Raised by a host access to a store index outside the address map of 20_memory.md R43 (DATA 0 to 2^32 - 2, TABLE 0 to
  2^32 - 1). No operation of CORE raises it (R44). Safe: the model stops. -/
  | noSuchElement
deriving DecidableEq, Repr

/-- Why a step is refused. -/
inductive Refusal where
  /-- An instruction without a meaning in the model. No arm of `exec` answers it. Safe: the model stops. -/
  | notModelled (mnemonic : String)
  /-- A host access to a register number above 9: "a host access to one is outside the model (refused)" (10_state.md R14;
  93 U12). Safe: the model stops. -/
  | noSuchRegister
  /-- A host write to TABLE_LEN of a value above 2^32: "refused (no state change; outside the model)" (10_state.md R17;
  93 U13). Safe: the model stops. -/
  | tableLenTooLarge
  /-- A host write of a value that does not fit the register or element: it cannot be presented to CORE
  (00_scope.md R11 "v has the register's width"; 93 U21). Safe: the model stops. -/
  | valueTooWide
  /-- A host write to GEN, DATA_LEN, TABLE_LEN or a store while STATE = BUSY: "the model gives it no meaning (refused)"
  (70_reset_and_hazards.md R150; 93 U7). Safe: the model stops. -/
  | writeWhileBusy
deriving DecidableEq, Repr

/-- The whole state. -/
structure State where
  /-- GW and W (00_scope.md R5, R6): configuration, written by no step. -/
  cfg : Config
  /-- Register 0, CMD (R20). -/
  cmd : Command
  /-- Register 1, STATUS (R22). -/
  status : Status
  /-- Register 2, GEN (R15). -/
  gen : BitVec cfg.gw
  /-- Register 3, DATA_LEN (R16). -/
  dataLen : BitVec 32
  /-- Register 4, TABLE_LEN (R17). -/
  tableLen : BitVec 33
  /-- Register 5, REM (R18). -/
  rem : BitVec cfg.gw
  /-- Register 6, NGEN (R19). -/
  ngen : BitVec cfg.gw
  /-- Register 7, NSHIFT (R19). -/
  nshift : BitVec 8
  /-- Register 8, NCARRY (R19). -/
  ncarry : BitVec cfg.gw
  /-- Register 9, NMASK (R19). -/
  nmask : BitVec cfg.gw
  /-- The DATA store (20_memory.md R34). -/
  data : Memory cfg.w
  /-- The TABLE store (20_memory.md R36). -/
  table : Memory cfg.gw
  /-- The sequencer state and the working values (R21, R25). -/
  seq : Seq cfg.gw cfg.w
  /-- The model's own: the coming events, first to come first (log entry 3). -/
  pending : List Event
  /-- The model's own: what the host's last read returned, if it has read (log entry 8). -/
  reply : Option Nat
  /-- The model's own: the number of resets so far, the key of the free values of unwritten state (log entries 4, 5). -/
  epoch : Nat
  /-- The model's own: the number of reads made while BUSY, the key of their free values (log entry 6). -/
  draws : Nat
deriving DecidableEq, Repr

/-- The outcome of a step. -/
abbrev StepResult := Host.Outcome State Fault Refusal

/-- The state of instance `cfg` after its reset number `epoch` (10_state.md R29, 70_reset_and_hazards.md R145): the control
state is zero; GEN, REM, NGEN, NSHIFT, NCARRY, NMASK and both stores are unspecified, that is free values
(R146; log entries 4 and 5). -/
def State.resetAt (cfg : Config) (epoch : Nat) : State where
  cfg := cfg
  cmd := 0#32
  status := { state := .idle, err := 0#8, lastop := 0#3 }
  gen := Config.drawReg cfg.gw epoch 2
  dataLen := 0#32
  tableLen := 0#33
  rem := Config.drawReg cfg.gw epoch 5
  ngen := Config.drawReg cfg.gw epoch 6
  nshift := Config.drawReg 8 epoch 7
  ncarry := Config.drawReg cfg.gw epoch 8
  nmask := Config.drawReg cfg.gw epoch 9
  data := []
  table := []
  seq := .idle
  pending := []
  reply := none
  epoch := epoch
  draws := 0

/-- The machine right after reset, of the instance `Config.resetChoice` (DESIGN CHOICE, log entry 1), with no host action
coming: "after reset CORE is idle and does nothing until the host writes CMD" (R145). -/
def State.reset : State := State.resetAt Config.resetChoice 0

end Sys2Proof.Machine
end

