-- ==== Sys2Proof/Machine/Flags.lean ====
section
/-! DEFINITION. The only flags CORE has: the fields of STATUS (10_state.md R22 to R24), how a command and the end of an
operation change them (R23, 30_encoding.md R60, 60_exceptions.md R136), and the failure codes (R126). -/

namespace Sys2Proof.Machine

/-- The two bits of STATUS.STATE (10_state.md R22). -/
def RunState.code : RunState → BitVec 2
  | .idle => 0#2
  | .busy => 1#2
  | .done => 2#2
  | .error => 3#2

/-- The failure codes of 60_exceptions.md R126. -/
def Failure.code : Failure → BitVec 8
  | .degreeAboveGw => 0x11#8
  | .chunkAboveDegree => 0x12#8
  | .degreeZero => 0x13#8
  | .tableTooLarge => 0x21#8
  | .wrongSizedTable => 0x31#8
  | .tableWiderThanWord => 0x32#8
  | .notExactDivisor => 0x33#8
  | .notExactMultiple => 0x34#8
  | .tableWiderThanDegree => 0x35#8
  | .noTableWidth => 0x36#8
  | .illegalCommand => 0x41#8

/-- The failure class, ERR[7:4]: 1 InvalidPolynomial (R127), 2 TableSizeExceeded (R128), 3 TableShapeMismatch (R129),
4 IllegalCommand (R130). -/
def Failure.classCode (f : Failure) : BitVec 4 := f.code.extractLsb' 4 4

/-- STATUS as the 32-bit register the host reads: STATE [1:0], ERR [15:8], LASTOP [18:16], every other bit 0 (R22). -/
def Status.word (st : Status) : BitVec 32 :=
  0#13 ++ st.lastop ++ st.err ++ 0#6 ++ st.state.code

/-- A command is taken: LASTOP is its bits [2:0], ERR is cleared, STATE is BUSY (R23, 30_encoding.md R60). -/
def Status.taken (op : BitVec 3) : Status where
  state := .busy
  err := 0#8
  lastop := op

/-- An operation has succeeded: STATE is DONE, the other fields stay. -/
def Status.finished (st : Status) : Status := { st with state := .done }

/-- An operation has failed: ERR is the code and STATE is ERROR; LASTOP was set when the command was taken (R136). -/
def Status.failed (f : Failure) (st : Status) : Status := { st with state := .error, err := f.code }

/-- Is an operation running (R22, R23)? -/
def State.busy (s : State) : Bool := s.status.state == .busy

end Sys2Proof.Machine
end

