-- ==== Sys2Proof/Machine/Ops.lean ====
section
/-! DEFINITION. The named operations of the rules: the operators of 00_scope.md R10, loops (R11), the stores (20_memory.md
R35 to R38), the registers as the host numbers them (10_state.md R14), taking a command (30_encoding.md R60), failing
(60_exceptions.md R136, the one way an exception is taken) and finishing. -/

namespace Sys2Proof.Machine

/-- `shl_N(v, k)`: left shift truncated to N bits, 0 for k >= N (00_scope.md R10; 93 U24). -/
def shl {n : Nat} (v : BitVec n) (k : Nat) : BitVec n := v <<< k

/-- `shr(v, k)`: logical right shift (R10). -/
def shr {n : Nat} (v : BitVec n) (k : Nat) : BitVec n := v >>> k

/-- `zext_N(v)`: the N-bit vector with the value of v, where v fits (R10, 10_state.md R32). -/
def zext {n : Nat} (m : Nat) (v : BitVec n) : BitVec m := v.setWidth m

/-- `ispow2(n)` (R10): n = 2^k for some k; false for 0. -/
def isPow2 (n : Nat) : Bool := n != 0 && 2 ^ Nat.log2 n == n

/-- `for i in 0 .. n - 1`, in ascending order, carrying a value (R11). -/
def loopUpTo {α : Type} : Nat → (Nat → α → α) → α → α
  | 0, _, a => a
  | n + 1, f, a => f n (loopUpTo n f a)

/-- `repeat n times`, carrying a value (R11). -/
def repeatTimes {α : Type} : Nat → (α → α) → α → α
  | 0, _, a => a
  | n + 1, f, a => f (repeatTimes n f a)

/-- The canonical form of a store: indices strictly rising (log entry 5). -/
abbrev Memory.wf {n : Nat} (m : Memory n) : Prop := m.Pairwise (fun a b => a.1 < b.1)

/-- What a store lists for an index, if it lists it. -/
def Memory.find {n : Nat} : Memory n → Nat → Option (BitVec n)
  | [], _ => none
  | (k, v) :: rest, i => if k = i then some v else Memory.find rest i

/-- A write of element `i`: the list stays strictly rising and holds the index once. -/
def Memory.write {n : Nat} : Memory n → Nat → BitVec n → Memory n
  | [], i, v => [(i, v)]
  | (k, u) :: rest, i, v =>
    if i < k then (i, v) :: (k, u) :: rest
    else if i = k then (i, v) :: rest
    else (k, u) :: Memory.write rest i v

/-- `MemRead(DATA, i)` (20_memory.md R35): the word at index i; one that nothing has written is a free value (R29). -/
def State.dataAt (s : State) (i : Nat) : BitVec s.cfg.w :=
  (s.data.find i).getD (Config.drawData s.cfg.w s.epoch i)

/-- `MemRead(TABLE, i)` (20_memory.md R37): the entry at index i; one that nothing has written is a free value (R29). -/
def State.tableAt (s : State) (i : Nat) : BitVec s.cfg.gw :=
  (s.table.find i).getD (Config.drawTable s.cfg.gw s.epoch i)

/-- `MemWrite(TABLE, i, v)` (20_memory.md R38). -/
def State.writeTable (s : State) (i : Nat) (v : BitVec s.cfg.gw) : State :=
  { s with table := s.table.write i v }

/-- A host write of one word of the DATA store (20_memory.md R34). -/
def State.writeData (s : State) (i : Nat) (v : BitVec s.cfg.w) : State :=
  { s with data := s.data.write i v }

/-- The register map of 10_state.md R14: the register with a number, if there is one. -/
def Reg.ofNumber : Nat → Option Reg
  | 0 => some .cmd
  | 1 => some .status
  | 2 => some .gen
  | 3 => some .dataLen
  | 4 => some .tableLen
  | 5 => some .rem
  | 6 => some .ngen
  | 7 => some .nshift
  | 8 => some .ncarry
  | 9 => some .nmask
  | _ => none

/-- The number of a register (10_state.md R14). -/
def Reg.number : Reg → Nat
  | .cmd => 0
  | .status => 1
  | .gen => 2
  | .dataLen => 3
  | .tableLen => 4
  | .rem => 5
  | .ngen => 6
  | .nshift => 7
  | .ncarry => 8
  | .nmask => 9

/-- The width of a register in bits (10_state.md R14). -/
def Reg.width (cfg : Config) : Reg → Nat
  | .cmd => 32
  | .status => 32
  | .gen => cfg.gw
  | .dataLen => 32
  | .tableLen => 33
  | .rem => cfg.gw
  | .ngen => cfg.gw
  | .nshift => 8
  | .ncarry => cfg.gw
  | .nmask => cfg.gw

/-- `x[NAME]` as a number (00_scope.md R11): what register `r` holds. -/
def State.readReg (s : State) : Reg → Nat
  | .cmd => s.cmd.toNat
  | .status => s.status.word.toNat
  | .gen => s.gen.toNat
  | .dataLen => s.dataLen.toNat
  | .tableLen => s.tableLen.toNat
  | .rem => s.rem.toNat
  | .ngen => s.ngen.toNat
  | .nshift => s.nshift.toNat
  | .ncarry => s.ncarry.toNat
  | .nmask => s.nmask.toNat

/-- `raise <Failure>(code)`, the failure entry of 60_exceptions.md R136: ERR, STATE and seq are written and nothing else.
There is no return from a failure: the next command clears it (R137, `takeCommand`). -/
def raise (f : Failure) (s : State) : State :=
  { s with status := s.status.failed f, seq := .idle }

/-- The end of an operation that succeeded: STATE is DONE and the sequencer is Idle (10_state.md R21, R23). -/
def finish (s : State) : State :=
  { s with status := s.status.finished, seq := .idle }

/-- A command is taken (30_encoding.md R60): CMD holds the word, LASTOP its opcode, ERR is cleared, STATE is BUSY. It is
also all there is of a return from a failure: ERROR and ERR persist until this (60_exceptions.md R137). -/
def takeCommand (c : Command) (s : State) : State :=
  { s with cmd := c, status := Status.taken (cmdOp c) }

/-- The bit step of 41_reference_divider.md R72: test bit degree-1 of r before the shift, shift left by one in GW bits, and
xor the masked generator in if the bit was set. -/
def bitStep {gw : Nat} (g carry r : BitVec gw) : BitVec gw :=
  if r &&& carry != 0#gw then shl r 1 ^^^ g else shl r 1

/-- A word or block is XORed into the running remainder at a shift (41_reference_divider.md R75, 44 R99, 45 R107). -/
def absorb {gw w : Nat} (r : BitVec gw) (word : BitVec w) (shift : Nat) : BitVec gw :=
  r ^^^ shl (zext gw word) shift

/-- The table step "combine" at width n (43_word_table_divider.md R90). -/
def combine {gw : Nat} (mask r : BitVec gw) (n : Nat) (entry : BitVec gw) : BitVec gw :=
  mask &&& (shl r n ^^^ entry)

end Sys2Proof.Machine
end

