-- ==== Sys2Proof/Machine/Operands.lean ====
section
/-! DEFINITION. The operands of the operations: the normalized 4-tuple every unit computes first (40_normalizer.md R65,
R71), the table width read back from TABLE_LEN (44_small_table_divider.md R96), the table index of one lookup, and the
entry checks of each unit in the order of 60_exceptions.md R133. -/

namespace Sys2Proof.Machine

/-- The normalized 4-tuple `(masked_generator, shift, carry_bit, remainder_mask)` (40_normalizer.md R65). -/
structure Params (gw : Nat) where
  g : BitVec gw
  shift : Nat
  carry : BitVec gw
  mask : BitVec gw
deriving DecidableEq, Repr

/-- What an entry check answers: the first failure that holds, or the values the operation goes on with. -/
inductive Checked (α : Type) where
  | fails (f : Failure)
  | passes (a : α)
deriving DecidableEq, Repr

/-- Go on with the next check. -/
def Checked.andThen {α β : Type} : Checked α → (α → Checked β) → Checked β
  | .fails f, _ => .fails f
  | .passes a, next => next a

/-- `remainder_mask = 2^degree - 1` (40_normalizer.md R65). -/
def maskOf (gw degree : Nat) : BitVec gw := BitVec.ofNat gw (2 ^ degree - 1)

/-- `carry_bit = 2^(degree - 1)` (40_normalizer.md R65). -/
def carryOf (gw degree : Nat) : BitVec gw := BitVec.ofNat gw (2 ^ (degree - 1))

/-- The function `normalize` (40_normalizer.md R65), its failures in the order 0x13, 0x11, 0x12 (R66). -/
def normalize {gw : Nat} (degree : Nat) (gen : BitVec gw) (chunk : Nat) : Checked (Params gw) :=
  if degree < 1 then .fails .degreeZero
  else if gw < degree then .fails .degreeAboveGw
  else if degree < chunk then .fails .chunkAboveDegree
  else .passes
    { g := gen &&& maskOf gw degree
      shift := degree - chunk
      carry := carryOf gw degree
      mask := maskOf gw degree }

/-- The table width B with `2^B = TABLE_LEN` (44_small_table_divider.md R96): none, failure 0x36, when TABLE_LEN is no
power of two or is 1. -/
def tableWidth (tableLen : Nat) : Checked Nat :=
  if !isPow2 tableLen || tableLen == 1 then .fails .noTableWidth else .passes (Nat.log2 tableLen)

/-- The index of one lookup: the remainder's bits from `shift` up, that is its top bits (43_word_table_divider.md R90). -/
def topIndex {gw : Nat} (r : BitVec gw) (shift : Nat) : Nat := (shr r shift).toNat

/-- NORM's entry checks (40_normalizer.md R68, R71). -/
def normChecks (s : State) (degree chunk : Nat) : Checked (Params s.cfg.gw) :=
  normalize degree s.gen chunk

/-- DIVREF's entry checks (41_reference_divider.md R75, R76): `normalize` with chunk W. -/
def divrefChecks (s : State) (degree : Nat) : Checked (Params s.cfg.gw) :=
  normalize degree s.gen s.cfg.w

/-- MKTBL's entry checks (42_table_builder.md R81): the size, then `normalize` with chunk table_size. -/
def mktblChecks (s : State) (degree tableSize : Nat) : Checked (Params s.cfg.gw) :=
  if 33 ≤ tableSize then .fails .tableTooLarge else normalize degree s.gen tableSize

/-- DIVWORD's entry checks (43_word_table_divider.md R89): TABLE_LEN = 2^W, then `normalize` with chunk W. -/
def divwordChecks (s : State) (degree : Nat) : Checked (Params s.cfg.gw) :=
  if s.tableLen.toNat ≠ 2 ^ s.cfg.w then .fails .wrongSizedTable else normalize degree s.gen s.cfg.w

/-- DIVSUB's entry checks (44_small_table_divider.md R97): a width B, B <= W, B divides W, then `normalize` with
chunk W (R98). Passing gives B too. -/
def divsubChecks (s : State) (degree : Nat) : Checked (Nat × Params s.cfg.gw) :=
  (tableWidth s.tableLen.toNat).andThen fun B =>
    if s.cfg.w < B then .fails .tableWiderThanWord
    else if s.cfg.w % B ≠ 0 then .fails .notExactDivisor
    else (normalize degree s.gen s.cfg.w).andThen fun p => .passes (B, p)

/-- DIVMULTI's entry checks (45_big_table_divider.md R105): a width B, B a multiple of W, B <= degree, then `normalize`
with chunk W. Passing gives B too. -/
def divmultiChecks (s : State) (degree : Nat) : Checked (Nat × Params s.cfg.gw) :=
  (tableWidth s.tableLen.toNat).andThen fun B =>
    if B % s.cfg.w ≠ 0 then .fails .notExactMultiple
    else if degree < B then .fails .tableWiderThanDegree
    else (normalize degree s.gen s.cfg.w).andThen fun p => .passes (B, p)

end Sys2Proof.Machine
end

