-- ==== Sys2Proof/Machine/BigTableDivider.lean ====
section
/-! DEFINITION. The multi-word (big-table) divider unit, DIVMULTI (45_big_table_divider.md R107), with the shorter last
group of R108 (90_conflicts.md C1: the left shift shrinks to m*W, the right shift grows to degree - m*W). -/

namespace Sys2Proof.Machine

/-- Word j of a group is XORed in at shift `degree - (j + 1) * W` (45_big_table_divider.md R107). -/
def divmultiAbsorb {gw w : Nat} (degree j : Nat) (r : BitVec gw) (word : BitVec w) : BitVec gw :=
  absorb r word (degree - (j + 1) * w)

/-- The group's table step: index the remainder's top m*W bits, combine at width m*W (R107, R108). -/
def divmultiCombine {gw : Nat} (w degree m : Nat) (mask : BitVec gw) (table : Nat → BitVec gw) (r : BitVec gw) :
    BitVec gw :=
  combine mask r (m * w) (table (topIndex r (degree - m * w)))

/-- One group of m words from index i (R107). -/
def divmultiGroup {gw w : Nat} (degree m i : Nat) (mask : BitVec gw) (table : Nat → BitVec gw)
    (data : Nat → BitVec w) (r : BitVec gw) : BitVec gw :=
  divmultiCombine w degree m mask table (loopUpTo m (fun j r => divmultiAbsorb degree j r (data (i + j))) r)

/-- The loop `while i < x[DATA_LEN]` (R107). Each turn takes at least one word, so `fuel = len` turns are enough (R156). -/
def divmultiLoop {gw w : Nat} (degree k : Nat) (mask : BitVec gw) (table : Nat → BitVec gw) (data : Nat → BitVec w)
    (len : Nat) : Nat → Nat → BitVec gw → BitVec gw
  | 0, _, r => r
  | fuel + 1, i, r =>
    if i < len then
      divmultiLoop degree k mask table data len fuel (i + min k (len - i))
        (divmultiGroup degree (min k (len - i)) i mask table data r)
    else r

/-- DIVMULTI degree (45_big_table_divider.md R105, R107). -/
def execDivmulti (degree : Nat) (s : State) : StepResult :=
  match divmultiChecks s degree with
  | .fails f => .next (raise f s)
  | .passes (B, p) =>
    .next (finish { s with
      rem := divmultiLoop degree (B / s.cfg.w) p.mask s.tableAt s.dataAt s.dataLen.toNat s.dataLen.toNat 0 0#s.cfg.gw })

end Sys2Proof.Machine
end

