-- ==== Sys2Proof/Machine/Normalizer.lean ====
section
/-! DEFINITION. The polynomial normalizer unit, NORM (40_normalizer.md R68). -/

namespace Sys2Proof.Machine

/-- The four writes of NORM (40_normalizer.md R68). -/
def writeNormalized (s : State) (p : Params s.cfg.gw) : State :=
  { s with
    ngen := p.g
    nshift := BitVec.ofNat 8 p.shift
    ncarry := p.carry
    nmask := p.mask }

/-- NORM degree, chunk_size (40_normalizer.md R68): on success the four result registers and STATUS, on failure STATUS
only. -/
def execNorm (degree chunkSize : Nat) (s : State) : StepResult :=
  match normChecks s degree chunkSize with
  | .fails f => .next (raise f s)
  | .passes p => .next (finish (writeNormalized s p))

end Sys2Proof.Machine
end

