-- ==== Sys2Proof/Machine/ReferenceDivider.lean ====
section
/-! DEFINITION. The reference divider unit, DIVREF (41_reference_divider.md R75). -/

namespace Sys2Proof.Machine

/-- One word of DIVREF: XOR it in with its most significant bit on bit degree-1, then exactly W bit steps (R75). -/
def divrefWord {gw w : Nat} (p : Params gw) (r : BitVec gw) (word : BitVec w) : BitVec gw :=
  repeatTimes w (bitStep p.g p.carry) (absorb r word p.shift)

/-- The running remainder after the first `len` words of the stream, from 0 (R75); not masked. -/
def divrefLoop {gw w : Nat} (p : Params gw) (data : Nat → BitVec w) (len : Nat) : BitVec gw :=
  loopUpTo len (fun i r => divrefWord p r (data i)) 0#gw

/-- DIVREF degree (41_reference_divider.md R75): REM is the running remainder, masked once at the end. -/
def execDivref (degree : Nat) (s : State) : StepResult :=
  match divrefChecks s degree with
  | .fails f => .next (raise f s)
  | .passes p => .next (finish { s with rem := divrefLoop p s.dataAt s.dataLen.toNat &&& p.mask })

end Sys2Proof.Machine
end

