-- ==== Sys2Proof/Machine/SmallTableDivider.lean ====
section
/-! DEFINITION. The subword (small-table) divider unit, DIVSUB (44_small_table_divider.md R99). -/

namespace Sys2Proof.Machine

/-- The top B bits of what is left of the word: `shr(buf, W - B)` (44_small_table_divider.md R99). -/
def topBlock {w : Nat} (B : Nat) (buf : BitVec w) : BitVec w := shr buf (w - B)

/-- The remainder part of one block: XOR the block in at `bshift = degree - B`, look up the remainder's top B bits,
combine at width B (R99). -/
def divsubCombine {gw w : Nat} (p : Params gw) (B bshift : Nat) (table : Nat → BitVec gw) (r : BitVec gw)
    (buf : BitVec w) : BitVec gw :=
  combine p.mask (absorb r (topBlock B buf) bshift) B (table (topIndex (absorb r (topBlock B buf) bshift) bshift))

/-- One block of DIVSUB on the pair (remainder, word buffer); the buffer is shifted left by B (R99). -/
def divsubBlock {gw w : Nat} (p : Params gw) (B bshift : Nat) (table : Nat → BitVec gw)
    (x : BitVec gw × BitVec w) : BitVec gw × BitVec w :=
  (divsubCombine p B bshift table x.1 x.2, shl x.2 B)

/-- One word of DIVSUB: `W / B` blocks, most significant first (R99). -/
def divsubWord {gw w : Nat} (p : Params gw) (B bshift : Nat) (table : Nat → BitVec gw) (r : BitVec gw)
    (word : BitVec w) : BitVec gw :=
  (repeatTimes (w / B) (divsubBlock p B bshift table) (r, word)).1

/-- The running remainder after the first `len` words, from 0 (R99). -/
def divsubLoop {gw w : Nat} (p : Params gw) (B bshift : Nat) (table : Nat → BitVec gw) (data : Nat → BitVec w)
    (len : Nat) : BitVec gw :=
  loopUpTo len (fun i r => divsubWord p B bshift table r (data i)) 0#gw

/-- DIVSUB degree (44_small_table_divider.md R97, R99). -/
def execDivsub (degree : Nat) (s : State) : StepResult :=
  match divsubChecks s degree with
  | .fails f => .next (raise f s)
  | .passes (B, p) =>
    .next (finish { s with rem := divsubLoop p B (degree - B) s.tableAt s.dataAt s.dataLen.toNat })

end Sys2Proof.Machine
end

