-- ==== Sys2Proof/Machine/TableBuilder.lean ====
section
/-! DEFINITION. The table builder unit, MKTBL (42_table_builder.md R82). -/

namespace Sys2Proof.Machine

/-- The value an entry starts from: `shl_GW(zext_GW(word), shift)` (42_table_builder.md R82). -/
def entryStart {gw : Nat} (p : Params gw) (word : Nat) : BitVec gw :=
  shl (BitVec.ofNat gw word) p.shift

/-- Entry `word` of the table of width `tableSize`: table_size bit steps from its start, unmasked (R82, R83). -/
def tableEntry {gw : Nat} (p : Params gw) (tableSize word : Nat) : BitVec gw :=
  repeatTimes tableSize (bitStep p.g p.carry) (entryStart p word)

/-- The writes of MKTBL to the TABLE store, indices 0 to 2^table_size - 1 in ascending order (R82, R84). -/
def buildTable {gw : Nat} (p : Params gw) (tableSize : Nat) (m : Memory gw) : Memory gw :=
  loopUpTo (2 ^ tableSize) (fun word m => m.write word (tableEntry p tableSize word)) m

/-- MKTBL degree, table_size (42_table_builder.md R81, R82): the entries, TABLE_LEN and STATUS. -/
def execMktbl (degree tableSize : Nat) (s : State) : StepResult :=
  match mktblChecks s degree tableSize with
  | .fails f => .next (raise f s)
  | .passes p =>
    .next (finish { s with
      table := buildTable p tableSize s.table
      tableLen := BitVec.ofNat 33 (2 ^ tableSize) })

end Sys2Proof.Machine
end

