-- ==== Sys2Proof/Machine/WordTableDivider.lean ====
section
/-! DEFINITION. The word-aligned (word-table) divider unit, DIVWORD (43_word_table_divider.md R90). -/

namespace Sys2Proof.Machine

/-- One word of DIVWORD: XOR it in, look up the remainder's top W bits, combine at width W (R90). -/
def divwordWord {gw w : Nat} (p : Params gw) (table : Nat → BitVec gw) (r : BitVec gw) (word : BitVec w) :
    BitVec gw :=
  combine p.mask (absorb r word p.shift) w (table (topIndex (absorb r word p.shift) p.shift))

/-- The running remainder after the first `len` words, from 0 (R90). -/
def divwordLoop {gw w : Nat} (p : Params gw) (table : Nat → BitVec gw) (data : Nat → BitVec w) (len : Nat) :
    BitVec gw :=
  loopUpTo len (fun i r => divwordWord p table r (data i)) 0#gw

/-- DIVWORD degree (43_word_table_divider.md R89, R90). -/
def execDivword (degree : Nat) (s : State) : StepResult :=
  match divwordChecks s degree with
  | .fails f => .next (raise f s)
  | .passes p => .next (finish { s with rem := divwordLoop p s.tableAt s.dataAt s.dataLen.toNat })

end Sys2Proof.Machine
end

