-- ==== Sys2Proof/Machine/Dispatch.lean ====
section
/-! DEFINITION. The dispatch: one arm per operation of 30_encoding.md R52. A command that has been taken (R60) and has
decoded to `i` runs as `exec i`, from its entry checks to its end, in one step (92_eei_decisions.md D9). -/

namespace Sys2Proof.Machine

def exec (i : Instr) (s : State) : Host.Outcome State Fault Refusal :=
  match i with
  | .norm degree chunkSize => Sys2Proof.Machine.execNorm degree chunkSize s
  | .divref degree => Sys2Proof.Machine.execDivref degree s
  | .mktbl degree tableSize => Sys2Proof.Machine.execMktbl degree tableSize s
  | .divword degree => Sys2Proof.Machine.execDivword degree s
  | .divsub degree => Sys2Proof.Machine.execDivsub degree s
  | .divmulti degree => Sys2Proof.Machine.execDivmulti degree s

end Sys2Proof.Machine
end

