-- ==== Sys2Proof/Machine/Sequencer.lean ====
section
/-! DEFINITION. The sequencer of 10_state.md R21 in small steps (92_eei_decisions.md D9: "the order of accesses inside an
operation is the order of its pseudocode, STATE reads BUSY meanwhile"). One micro-step is the entry checks, or one bit step
(DIVREF, MKTBL), one combine (DIVWORD, DIVSUB), one word of a group (DIVMULTI), or the final writes. The granularity is
DESIGN CHOICE (log entry 10). The operands are the fields of CMD, which no one can change while BUSY (R150, R151). -/

namespace Sys2Proof.Machine

/-- `cmd[15:8]` of the running command. -/
def State.runDegree (s : State) : Nat := (cmdDegree s.cmd).toNat

/-- `cmd[23:16]` of the running command. -/
def State.runSize (s : State) : Nat := (cmdSize s.cmd).toNat

/-- The working values right after the entry checks: the normalized 4-tuple, and r = 0 (10_state.md R25). -/
def Work.ofParams {gw : Nat} (w : Nat) (p : Params gw) : Work gw w where
  r := 0#gw
  g := p.g
  carry := p.carry
  mask := p.mask
  shift := p.shift
  buf := 0#w
  B := 0
  n := 0
  k := 0
  m := 0
  bshift := 0
  lsh := 0
  rsh := 0
  idx := 0

/-- The normalized 4-tuple among the working values. -/
def Work.params {gw w : Nat} (wk : Work gw w) : Params gw where
  g := wk.g
  shift := wk.shift
  carry := wk.carry
  mask := wk.mask

/-- The sequencer moves to Run(op, i, j, s) with the given working values. -/
def State.enterRun (s : State) (op : Op) (i j t : Nat) (wk : Work s.cfg.gw s.cfg.w) : State :=
  { s with seq := .run op i j t wk }

/-- A divider's last micro-step: REM and the end of the operation. -/
def State.finishRem (s : State) (r : BitVec s.cfg.gw) : State := finish { s with rem := r }

/-- The entry checks pass into Run, or fail. -/
def State.enterChecked (s : State) (op : Op) (c : Checked (Params s.cfg.gw)) : State :=
  match c with
  | .fails f => raise f s
  | .passes p => s.enterRun op 0 0 0 (Work.ofParams s.cfg.w p)

/-- The same for DIVSUB, with its block values `B`, `n = W / B`, `bshift = degree - B` (44_small_table_divider.md R99). -/
def State.enterDivsub (s : State) (c : Checked (Nat × Params s.cfg.gw)) : State :=
  match c with
  | .fails f => raise f s
  | .passes (B, p) =>
    s.enterRun .divsub 0 0 0
      { Work.ofParams s.cfg.w p with B := B, n := s.cfg.w / B, bshift := s.runDegree - B }

/-- The same for DIVMULTI, with `B` and the grouping factor `k = B / W` (45_big_table_divider.md R107). -/
def State.enterDivmulti (s : State) (c : Checked (Nat × Params s.cfg.gw)) : State :=
  match c with
  | .fails f => raise f s
  | .passes (B, p) =>
    s.enterRun .divmulti 0 0 0 { Work.ofParams s.cfg.w p with B := B, k := B / s.cfg.w }

/-- A micro-step in Check(op): all the entry checks of the operation (10_state.md R21, 60_exceptions.md R133, R134). -/
def checkTick (op : Op) (s : State) : State :=
  match op with
  | .norm => s.enterChecked .norm (normChecks s s.runDegree s.runSize)
  | .divref => s.enterChecked .divref (divrefChecks s s.runDegree)
  | .mktbl => s.enterChecked .mktbl (mktblChecks s s.runDegree s.runSize)
  | .divword => s.enterChecked .divword (divwordChecks s s.runDegree)
  | .divsub => s.enterDivsub (divsubChecks s s.runDegree)
  | .divmulti => s.enterDivmulti (divmultiChecks s s.runDegree)

/-- NORM in Run: its writes (40_normalizer.md R68). -/
def normTick (s : State) (wk : Work s.cfg.gw s.cfg.w) : State := finish (writeNormalized s wk.params)

/-- DIVREF in Run(i, -, t): the word is XORed in before its first bit step; W bit steps a word (41_reference_divider.md
R75). -/
def divrefTick (s : State) (i t : Nat) (wk : Work s.cfg.gw s.cfg.w) : State :=
  if i < s.dataLen.toNat then
    let r := bitStep wk.g wk.carry (if t = 0 then absorb wk.r (s.dataAt i) wk.shift else wk.r)
    if t + 1 < s.cfg.w then s.enterRun .divref i 0 (t + 1) { wk with r := r }
    else s.enterRun .divref (i + 1) 0 0 { wk with r := r }
  else s.finishRem (wk.r &&& wk.mask)

/-- MKTBL in Run(i, -, t): entry i starts fresh, takes table_size bit steps and is written; after the last entry
TABLE_LEN is written (42_table_builder.md R82). -/
def mktblTick (s : State) (i t : Nat) (wk : Work s.cfg.gw s.cfg.w) : State :=
  if i < 2 ^ s.runSize then
    let r := if t = 0 then entryStart wk.params i else wk.r
    if t < s.runSize then s.enterRun .mktbl i 0 (t + 1) { wk with r := bitStep wk.g wk.carry r }
    else (s.writeTable i r).enterRun .mktbl (i + 1) 0 0 { wk with r := r }
  else finish { s with tableLen := BitVec.ofNat 33 (2 ^ s.runSize) }

/-- DIVWORD in Run(i, -, -): one word (43_word_table_divider.md R90). -/
def divwordTick (s : State) (i : Nat) (wk : Work s.cfg.gw s.cfg.w) : State :=
  if i < s.dataLen.toNat then
    s.enterRun .divword (i + 1) 0 0
      { wk with
        r := divwordWord wk.params s.tableAt wk.r (s.dataAt i)
        idx := topIndex (absorb wk.r (s.dataAt i) wk.shift) wk.shift }
  else s.finishRem wk.r

/-- DIVSUB in Run(i, j, -): block j of word i; the word buffer is loaded with the word before its first block
(44_small_table_divider.md R99). -/
def divsubTick (s : State) (i j : Nat) (wk : Work s.cfg.gw s.cfg.w) : State :=
  if i < s.dataLen.toNat then
    let buf := if j = 0 then s.dataAt i else wk.buf
    let x := divsubBlock wk.params wk.B wk.bshift s.tableAt (wk.r, buf)
    let wk' := { wk with
      r := x.1
      buf := x.2
      idx := topIndex (absorb wk.r (topBlock wk.B buf) wk.bshift) wk.bshift }
    if j + 1 < wk.n then s.enterRun .divsub i (j + 1) 0 wk' else s.enterRun .divsub (i + 1) 0 0 wk'
  else s.finishRem wk.r

/-- DIVMULTI in Run(i, j, -): word j of the group that starts at index i; the group's size m is set with its first word,
and its table step follows its last (45_big_table_divider.md R107). -/
def divmultiTick (s : State) (i j : Nat) (wk : Work s.cfg.gw s.cfg.w) : State :=
  if i < s.dataLen.toNat then
    let m := if j = 0 then min wk.k (s.dataLen.toNat - i) else wk.m
    let r := divmultiAbsorb s.runDegree j wk.r (s.dataAt (i + j))
    if j + 1 < m then s.enterRun .divmulti i (j + 1) 0 { wk with r := r, m := m }
    else
      s.enterRun .divmulti (i + m) 0 0
        { wk with
          r := divmultiCombine s.cfg.w s.runDegree m wk.mask s.tableAt r
          m := m
          lsh := m * s.cfg.w
          rsh := s.runDegree - m * s.cfg.w
          idx := topIndex r (s.runDegree - m * s.cfg.w) }
  else s.finishRem wk.r

/-- One micro-step of the sequencer (10_state.md R21). Idle, it holds its state (60_exceptions.md R144). -/
def tick (s : State) : State :=
  match s.seq with
  | .idle => s
  | .check op => checkTick op s
  | .run .norm _ _ _ wk => normTick s wk
  | .run .divref i _ t wk => divrefTick s i t wk
  | .run .mktbl i _ t wk => mktblTick s i t wk
  | .run .divword i _ _ wk => divwordTick s i wk
  | .run .divsub i j _ wk => divsubTick s i j wk
  | .run .divmulti i j _ wk => divmultiTick s i j wk

end Sys2Proof.Machine
end

