-- ==== Sys2Proof/Machine/HostPort.lean ====
section
/-! DEFINITION. What each action of the host does (10_state.md R30, 30_encoding.md R60, R62), in the order `State.pending`
gives: writes and reads of registers, of DATA words and of TABLE entries, a command, a reset. -/

namespace Sys2Proof.Machine

/-- A host write of the word `c` to CMD, the operation run to its end (30_encoding.md R60 in the atomic reading of
92_eei_decisions.md D9). While STATE = BUSY the write is ignored (70_reset_and_hazards.md R151). -/
def commandWrite (c : Command) (s : State) : StepResult :=
  if s.busy then .next s
  else
    match decode c with
    | .illegal _ => .next (raise .illegalCommand (takeCommand c s))
    | .ok i => exec i (takeCommand c s)

/-- The same write in the small-step reading of D9: a legal command is taken and its entry checks come next
(10_state.md R21); an illegal one fails at once (30_encoding.md R56). -/
def commandStart (c : Command) (s : State) : State :=
  if s.busy then s
  else
    match decode c with
    | .illegal _ => raise .illegalCommand (takeCommand c s)
    | .ok i => { takeCommand c s with seq := .check i.op }

/-- A host write of an operand register (10_state.md R15 to R17), its value checked to fit. -/
def writeOperand (r : Reg) (v : Nat) (s : State) : StepResult :=
  match r with
  | .gen => if v < 2 ^ s.cfg.gw then .next { s with gen := BitVec.ofNat s.cfg.gw v } else .refused .valueTooWide
  | .dataLen => if v < 2 ^ 32 then .next { s with dataLen := BitVec.ofNat 32 v } else .refused .valueTooWide
  | .tableLen =>
    if v ≤ 2 ^ 32 then .next { s with tableLen := BitVec.ofNat 33 v } else .refused .tableLenTooLarge
  | _ => .next s

/-- May the host write the register (10_state.md R14, column "access"; CMD apart)? -/
def Reg.isOperand : Reg → Bool
  | .gen => true
  | .dataLen => true
  | .tableLen => true
  | _ => false

/-- WR: a host write of register number `n`. CMD starts an operation (R20); GEN, DATA_LEN and TABLE_LEN are written, but
refused while BUSY (R30, 70 R150); a write to a read-only register is ignored (R22, R30); a number above 9 does not exist
(R14). -/
def hostWriteReg (n v : Nat) (s : State) : StepResult :=
  match Reg.ofNumber n with
  | none => .refused .noSuchRegister
  | some .cmd => if v < 2 ^ 32 then commandWrite (BitVec.ofNat 32 v) s else .refused .valueTooWide
  | some r =>
    if r.isOperand then if s.busy then .refused .writeWhileBusy else writeOperand r v s
    else .next s

/-- Registers whose value is unspecified while an operation runs (70_reset_and_hazards.md R153; 93 U9): REM, NGEN, NSHIFT,
NCARRY, NMASK and TABLE_LEN. -/
def Reg.isResult : Reg → Bool
  | .tableLen => true
  | .rem => true
  | .ngen => true
  | .nshift => true
  | .ncarry => true
  | .nmask => true
  | _ => false

/-- The host gets `v` from a read; nothing else changes: "a read has no side effect" (10_state.md R30). -/
def answer (v : Nat) (s : State) : State := { s with reply := some v }

/-- The host reads something of `width` bits that is unspecified while BUSY: a free value, and the next such read is
another (70_reset_and_hazards.md R153, log entry 6). -/
def answerDraw (width : Nat) (s : State) : State :=
  { answer (Config.drawBusy width s.draws).toNat s with draws := s.draws + 1 }

/-- RD: a host read of register number `n` (10_state.md R30). -/
def hostReadReg (n : Nat) (s : State) : StepResult :=
  match Reg.ofNumber n with
  | none => .refused .noSuchRegister
  | some r =>
    if s.busy && r.isResult then .next (answerDraw (r.width s.cfg) s) else .next (answer (s.readReg r) s)

/-- A host write of word `i` of the DATA store (20_memory.md R34, R43; 70 R150). -/
def hostWriteData (i v : Nat) (s : State) : StepResult :=
  if 2 ^ 32 - 1 ≤ i then .fault .noSuchElement
  else if s.busy then .refused .writeWhileBusy
  else if v < 2 ^ s.cfg.w then .next (s.writeData i (BitVec.ofNat s.cfg.w v))
  else .refused .valueTooWide

/-- A host write of entry `i` of the TABLE store (20_memory.md R43, R49; 70 R150). -/
def hostWriteTable (i v : Nat) (s : State) : StepResult :=
  if 2 ^ 32 ≤ i then .fault .noSuchElement
  else if s.busy then .refused .writeWhileBusy
  else if v < 2 ^ s.cfg.gw then .next (s.writeTable i (BitVec.ofNat s.cfg.gw v))
  else .refused .valueTooWide

/-- RDT: a host read of entry `i` of the TABLE store (20_memory.md R36, R37; unspecified while BUSY, 70 R153). -/
def hostReadTable (i : Nat) (s : State) : StepResult :=
  if 2 ^ 32 ≤ i then .fault .noSuchElement
  else if s.busy then .next (answerDraw s.cfg.gw s)
  else .next (answer (s.tableAt i).toNat s)

/-- A reset, at any moment, also in the middle of an operation (70_reset_and_hazards.md R145, R147): every piece of the
spec's state takes its reset value, the unspecified ones a new free value each (R146). What the host has still to do and
its last reply are not CORE's. -/
def resetEvent (s : State) : State :=
  { State.resetAt s.cfg (s.epoch + 1) with
    pending := s.pending
    reply := s.reply
    draws := s.draws }

/-- One event. -/
def deliver (e : Event) (s : State) : StepResult :=
  match e with
  | .reset => .next (resetEvent s)
  | .writeReg n v => hostWriteReg n v s
  | .startCmd v => if v < 2 ^ 32 then .next (commandStart (BitVec.ofNat 32 v) s) else .refused .valueTooWide
  | .readReg n => hostReadReg n s
  | .writeData i v => hostWriteData i v s
  | .writeTable i v => hostWriteTable i v s
  | .readTable i => hostReadTable i s
  | .tick => .next (tick s)

end Sys2Proof.Machine
end

