-- ==== Sys2Proof/Machine/Step.lean ====
section
/-! DEFINITION. One step of the machine: the next event of `State.pending`, or, when the host has nothing to do, one
micro-step of a running operation; an idle CORE holds its state (60_exceptions.md R144, 70_reset_and_hazards.md R145). -/

namespace Sys2Proof.Machine

/-- The next event is taken from the list, then delivered. CORE has no program counter and no fetch (10_state.md R21): a
command word is taken "from the host's write to CMD at the moment of the write" (20_memory.md R48). -/
def step (s : State) : Host.Outcome State Fault Refusal :=
  match s.pending with
  | [] => .next (tick s)
  | e :: rest => deliver e { s with pending := rest }

/-- The state in which no operation is running, made from `s`: an operation in progress is dropped. -/
def State.notBusy (s : State) : State :=
  if s.busy then { s with status := { s.status with state := .idle }, seq := .idle } else s

/-- `s` with the command whose bits are `w` (of which the opcode table gives the low `nbits`; bits above are 0) as the
host's next action: a write to CMD. That is where CORE's next command comes from (30_encoding.md R50, R60). A write while
BUSY is ignored (70_reset_and_hazards.md R151), so an operation in progress is dropped first (log entry 3). -/
def State.withFetchWord (s : State) (nbits w : Nat) : State :=
  { s.notBusy with pending := .writeReg 0 (w % 2 ^ nbits) :: s.pending }

end Sys2Proof.Machine
end

