-- ==== Sys2Proof/Machine/SourceCalls.lean ====
section
/-! DEFINITION. The host's shorthands `DATA` and `TBL` (30_encoding.md R62) and the source's six functions as lists of host
actions with what the host reads at the end (R63). -/

namespace Sys2Proof.Machine

/-- The element writes of a shorthand, from index `i` on. -/
def elementWrites (mk : Nat → Nat → Event) : Nat → List Nat → List Event
  | _, [] => []
  | i, v :: rest => mk i v :: elementWrites mk (i + 1) rest

/-- `DATA [w0, ...]`: the words to indices 0 on, and their number to DATA_LEN (R62). -/
def hostData (ws : List Nat) : List Event :=
  elementWrites .writeData 0 ws ++ [.writeReg Reg.dataLen.number ws.length]

/-- `TBL [e0, ...]`: the entries to indices 0 on, and their number to TABLE_LEN (R62). -/
def hostTable (es : List Nat) : List Event :=
  elementWrites .writeTable 0 es ++ [.writeReg Reg.tableLen.number es.length]

/-- `WR CMD` with the word a command assembles to (30_encoding.md R61, R62). Its users give it well-formed commands only:
the fields of another one would not be where the word has them. -/
def hostCommand (i : Instr) : Event := .writeReg Reg.cmd.number (encode i).toNat

/-- A call of one of the source's six functions (R63). A table of `none` keeps the one a MKTBL or an earlier `TBL` left. -/
inductive SourceCall where
  | normalize (degree generator chunkSize : Nat)
  | divideNoTable (degree generator : Nat) (data : List Nat)
  | buildTable (degree generator tableSize : Nat)
  | divideWordTable (degree generator : Nat) (data : List Nat) (table : Option (List Nat))
  | divideSmallTable (degree generator : Nat) (data : List Nat) (table : Option (List Nat))
  | divideBigTable (degree generator : Nat) (data : List Nat) (table : Option (List Nat))
deriving DecidableEq, Repr

/-- `WR GEN, generator`. -/
def hostGen (generator : Nat) : Event := .writeReg Reg.gen.number generator

/-- The host's table actions of a call: `TBL table`, or nothing (R63). -/
def hostTableChoice : Option (List Nat) → List Event
  | none => []
  | some es => hostTable es

/-- The command of a call (R63). -/
def SourceCall.command : SourceCall → Instr
  | .normalize d _ c => .norm d c
  | .divideNoTable d _ _ => .divref d
  | .buildTable d _ t => .mktbl d t
  | .divideWordTable d _ _ _ => .divword d
  | .divideSmallTable d _ _ _ => .divsub d
  | .divideBigTable d _ _ _ => .divmulti d

/-- What the wrapper reports when the SIZE operand of a call cannot be presented: for `build_table` "table too large", for
`normalize` "polynomial smaller than data chunk". DESIGN CHOICE (log entry 15): the spec has no rule for a wrapper that is
handed a chunk_size or table_size of 256 or more. -/
def SourceCall.sizeFailure : SourceCall → Failure
  | .buildTable _ _ _ => .tableTooLarge
  | .normalize _ _ _ => .chunkAboveDegree
  | .divideNoTable _ _ _ => .chunkAboveDegree
  | .divideWordTable _ _ _ _ => .chunkAboveDegree
  | .divideSmallTable _ _ _ _ => .chunkAboveDegree
  | .divideBigTable _ _ _ _ => .chunkAboveDegree

/-- The failure the software wrapper reports by itself, if the call cannot be presented to CORE: a degree of 256 or more
is InvalidPolynomial (30_encoding.md R53; that its code is 0x11 and that it comes before the size is log entry 15). -/
def SourceCall.wrapperFailure (c : SourceCall) : Option Failure :=
  if !c.command.degreeFits then some .degreeAboveGw
  else if !c.command.sizeFits then some c.sizeFailure
  else none

/-- The host's operand actions of a call (R63). -/
def SourceCall.operands : SourceCall → List Event
  | .normalize _ g _ => [hostGen g]
  | .divideNoTable _ g ws => hostGen g :: hostData ws
  | .buildTable _ g _ => [hostGen g]
  | .divideWordTable _ g ws es => hostGen g :: hostData ws ++ hostTableChoice es
  | .divideSmallTable _ g ws es => hostGen g :: hostData ws ++ hostTableChoice es
  | .divideBigTable _ g ws es => hostGen g :: hostData ws ++ hostTableChoice es

/-- The expansion of a call into host actions, up to and with its command (R63); none for a call that cannot be presented
to CORE (R53, log entry 15). -/
def SourceCall.events (c : SourceCall) : List Event :=
  match c.wrapperFailure with
  | some _ => []
  | none => c.operands ++ [hostCommand c.command]

/-- What a call hands back to the source's caller (R63). -/
inductive SourceResult where
  /-- On ERROR: STATUS.ERR; or the wrapper's own failure (R53). -/
  | failure (err : Nat)
  /-- On DONE of NORM: NGEN, NSHIFT, NCARRY, NMASK. -/
  | normalized (g shift carry mask : Nat)
  /-- On DONE of a divider: REM. -/
  | remainder (rem : Nat)
  /-- On DONE of MKTBL: TABLE store indices 0 to TABLE_LEN - 1. -/
  | table (entries : List Nat)
  /-- STATE is neither DONE nor ERROR: the call has not ended. -/
  | pending
deriving DecidableEq, Repr

/-- What the host reads once the operation is DONE (R63). -/
def SourceCall.doneResult (s : State) : SourceCall → SourceResult
  | .normalize _ _ _ => .normalized s.ngen.toNat s.nshift.toNat s.ncarry.toNat s.nmask.toNat
  | .buildTable _ _ _ => .table ((List.range s.tableLen.toNat).map fun i => (s.tableAt i).toNat)
  | .divideNoTable _ _ _ => .remainder s.rem.toNat
  | .divideWordTable _ _ _ _ => .remainder s.rem.toNat
  | .divideSmallTable _ _ _ _ => .remainder s.rem.toNat
  | .divideBigTable _ _ _ _ => .remainder s.rem.toNat

/-- The host's branch on STATUS.STATE after the command (R63, 60_exceptions.md R137). -/
def SourceCall.statusResult (s : State) (c : SourceCall) : SourceResult :=
  match s.status.state with
  | .done => c.doneResult s
  | .error => .failure s.status.err.toNat
  | .busy => .pending
  | .idle => .pending

/-- What the call hands back once its actions have been performed and `s` is reached (R63): the wrapper's own failure for a
call it did not present (R53), else what STATUS says. -/
def SourceCall.result (s : State) (c : SourceCall) : SourceResult :=
  match c.wrapperFailure with
  | some f => .failure f.code.toNat
  | none => c.statusResult s

end Sys2Proof.Machine
end

