-- ==== Sys2Proof/Safety.lean ====
section
/-! DEFINITION. The terms in which claims about the machine are stated: what a run reads as (registers and store elements
as numbers), the invariant of every step, what it means for an operation to succeed, and the rules' results written a second
time, over lists and single bits, beside the machine's own loops. -/

namespace Sys2Proof.Machine

/-- Every register not in `rs` holds in `t` what it holds in `s`. -/
def sameRegsExcept (rs : List Reg) (s t : State) : Prop :=
  ∀ r : Reg, r ∉ rs → t.readReg r = s.readReg r

/-- Every word of the DATA store reads in `t` as in `s`. -/
def sameData (s t : State) : Prop :=
  ∀ i : Nat, (t.dataAt i).toNat = (s.dataAt i).toNat

/-- Every entry of the TABLE store at an index from `from_` on reads in `t` as in `s`. -/
def sameTableFrom (from_ : Nat) (s t : State) : Prop :=
  ∀ i : Nat, from_ ≤ i → (t.tableAt i).toNat = (s.tableAt i).toNat

/-- The instance and the model's own fields are those of `s`. -/
def sameEnvelope (s t : State) : Prop :=
  t.cfg = s.cfg ∧ t.pending = s.pending ∧ t.reply = s.reply ∧ t.epoch = s.epoch ∧ t.draws = s.draws

/-- The state after a failure with code `code`: STATUS.ERR and STATUS.STATE, seq Idle, nothing else
(60_exceptions.md R136). -/
def failedWith (code : BitVec 8) (s : State) : State :=
  { s with status := { s.status with state := .error, err := code }, seq := .idle }

/-- The state after a divider that succeeded with `v`: REM and STATUS.STATE, seq Idle, nothing else
(10_state.md R27). -/
def remainderIs (s : State) (v : BitVec s.cfg.gw) : State :=
  { s with rem := v, status := { s.status with state := .done }, seq := .idle }

/-- REM, if the operation ended in DONE. -/
def remainderOf (o : StepResult) : Option Nat :=
  match o with
  | .next t => if t.status.state = .done then some t.rem.toNat else none
  | .fault _ => none
  | .refused _ => none

/-- STATUS.ERR, if the operation ended in ERROR. -/
def failureOf (o : StepResult) : Option (BitVec 8) :=
  match o with
  | .next t => if t.status.state = .error then some t.status.err else none
  | .fault _ => none
  | .refused _ => none

/-- The data stream (20_memory.md R34): words 0 to DATA_LEN - 1. -/
def State.stream (s : State) : List (BitVec s.cfg.w) := (List.range s.dataLen.toNat).map s.dataAt

/-- The masked generator of a degree (40_normalizer.md R65). -/
def State.maskedGen (s : State) (d : Nat) : BitVec s.cfg.gw := s.gen &&& BitVec.ofNat s.cfg.gw (2 ^ d - 1)

/-- The bit step as the source words it (41_reference_divider.md R72): on bit degree-1. -/
def stepOnTopBit {gw : Nat} (d : Nat) (g r : BitVec gw) : BitVec gw :=
  if r.getLsbD (d - 1) then (r <<< 1) ^^^ g else r <<< 1

/-- The entry that a table of width `T` holds at index `i`: `step^T(i * 2^(degree - T))` (42_table_builder.md R85). -/
def entryOf {gw : Nat} (d : Nat) (g : BitVec gw) (T i : Nat) : BitVec gw :=
  (stepOnTopBit d g)^[T] (BitVec.ofNat gw (i * 2 ^ (d - T)))

/-- "A matching table" of width B (46_equivalence_laws.md, opening): TABLE_LEN is 2^B and the entries agree with those of a
MKTBL for the same degree and generator on the low `degree` bits. -/
def State.MatchingTable (s : State) (B d : Nat) : Prop :=
  s.tableLen.toNat = 2 ^ B ∧
    ∀ i, i < 2 ^ B → (s.tableAt i).toNat % 2 ^ d = (entryOf d (s.maskedGen d) B i).toNat % 2 ^ d

/-- DIVREF's remainder over a list of words (41_reference_divider.md R75). -/
def divrefOver {gw w : Nat} (d : Nat) (g : BitVec gw) (ws : List (BitVec w)) : BitVec gw :=
  BitVec.ofNat gw (2 ^ d - 1) &&&
    ws.foldl (fun (r : BitVec gw) (x : BitVec w) => (stepOnTopBit d g)^[w] (r ^^^ (x.setWidth gw <<< (d - w)))) 0#gw

/-- One table step: n input bits of value `x` enter at bit degree-1, the top n bits of the remainder index the table
(43_word_table_divider.md R90). -/
def tableStep {gw : Nat} (d n : Nat) (table : Nat → BitVec gw) (r : BitVec gw) (x : Nat) : BitVec gw :=
  let y := r ^^^ BitVec.ofNat gw (x * 2 ^ (d - n))
  BitVec.ofNat gw (2 ^ d - 1) &&& ((y <<< n) ^^^ table (y.toNat / 2 ^ (d - n)))

/-- DIVWORD's remainder over a list of words (43_word_table_divider.md R90). -/
def divwordOver {gw w : Nat} (d : Nat) (table : Nat → BitVec gw) (ws : List (BitVec w)) : BitVec gw :=
  ws.foldl (fun r x => tableStep d w table r x.toNat) 0#gw

/-- The blocks of B bits of a word, most significant first (44_small_table_divider.md R99, 20_memory.md R39). -/
def blocksOf {w : Nat} (B : Nat) (x : BitVec w) : List Nat :=
  (List.range (w / B)).map fun j => x.toNat / 2 ^ (w - (j + 1) * B) % 2 ^ B

/-- DIVSUB's remainder over a list of words (44_small_table_divider.md R99). -/
def divsubOver {gw w : Nat} (d B : Nat) (table : Nat → BitVec gw) (ws : List (BitVec w)) : BitVec gw :=
  (ws.flatMap (blocksOf B)).foldl (tableStep d B table) 0#gw

/-- The groups of k consecutive words, the last one possibly shorter (45_big_table_divider.md R106). -/
def groupsOf {α : Type} (k : Nat) : Nat → List α → List (List α)
  | 0, _ => []
  | _ + 1, [] => []
  | fuel + 1, x :: xs => (x :: xs).take k :: groupsOf k fuel ((x :: xs).drop k)

/-- A group's words as one number, the first word most significant (20_memory.md R39). -/
def groupValue {w : Nat} (ws : List (BitVec w)) : Nat := ws.foldl (fun a x => a * 2 ^ w + x.toNat) 0

/-- DIVMULTI's remainder over a list of words: one table step of m*W bits for each group of m words
(45_big_table_divider.md R107, R108). -/
def divmultiOver {gw w : Nat} (d k : Nat) (table : Nat → BitVec gw) (ws : List (BitVec w)) : BitVec gw :=
  (groupsOf k ws.length ws).foldl (fun r g => tableStep d (g.length * w) table r (groupValue g)) 0#gw

/-- The bounds of the sequencer state (10_state.md R21: "bounded by DATA_LEN or by 2^table_size"), and that it runs the
command CMD holds. -/
def Seq.Bounded (s : State) : Seq s.cfg.gw s.cfg.w → Prop
  | .idle => True
  | .check op => ∃ i, decode s.cmd = .ok i ∧ i.op = op
  | .run .norm i j t _ => (∃ k, decode s.cmd = .ok k ∧ k.op = .norm) ∧ i = 0 ∧ j = 0 ∧ t = 0
  | .run .divref i j t _ =>
    (∃ k, decode s.cmd = .ok k ∧ k.op = .divref) ∧ i ≤ s.dataLen.toNat ∧ j = 0 ∧ t < s.cfg.w
  | .run .mktbl i j t _ =>
    (∃ k, decode s.cmd = .ok k ∧ k.op = .mktbl) ∧ s.runSize ≤ 32 ∧ i ≤ 2 ^ s.runSize ∧ j = 0 ∧ t ≤ s.runSize
  | .run .divword i j t _ =>
    (∃ k, decode s.cmd = .ok k ∧ k.op = .divword) ∧ i ≤ s.dataLen.toNat ∧ j = 0 ∧ t = 0
  | .run .divsub i j t wk =>
    (∃ k, decode s.cmd = .ok k ∧ k.op = .divsub) ∧ i ≤ s.dataLen.toNat ∧ t = 0 ∧ j < wk.n ∧ wk.n ≤ s.cfg.w
  | .run .divmulti i j t wk =>
    (∃ k, decode s.cmd = .ok k ∧ k.op = .divmulti) ∧ t = 0 ∧ 0 < wk.k ∧ wk.k ≤ 32 ∧
      i + j ≤ s.dataLen.toNat ∧ (0 < j → j < wk.m ∧ wk.m ≤ wk.k ∧ i + wk.m ≤ s.dataLen.toNat)

/-- The fields of STATUS agree with each other (10_state.md R22, R23): ERR is a code of 60_exceptions.md R126 exactly when
STATE is ERROR and 0 otherwise; LASTOP is 0 while STATE is still IDLE. -/
def Status.Consistent (st : Status) : Prop :=
  (st.state ≠ .error → st.err = 0#8) ∧ (st.state = .error → ∃ f : Failure, st.err = f.code) ∧
    (st.state = .idle → st.lastop = 0#3)

/-- The invariant of every step. -/
structure State.Inv (s : State) : Prop where
  /-- The stores are in canonical form (log entry 5). -/
  dataWf : s.data.wf
  tableWf : s.table.wf
  /-- The stores list only indices of the address map (20_memory.md R43). -/
  dataRange : ∀ e ∈ s.data, e.1 < 2 ^ 32 - 1
  tableRange : ∀ e ∈ s.table, e.1 < 2 ^ 32
  /-- "Legal values are 0 to 2^32" (10_state.md R17). -/
  tableLenLegal : s.tableLen.toNat ≤ 2 ^ 32
  /-- "seq is Idle exactly when STATUS.STATE is not BUSY" (10_state.md R21). -/
  seqIdle : s.seq = .idle ↔ s.status.state ≠ .busy
  statusConsistent : s.status.Consistent
  /-- LASTOP holds bits [2:0] of CMD once a command has been taken (10_state.md R22). -/
  lastopOfCmd : s.status.lastop = cmdOp s.cmd
  seqBounded : s.seq.Bounded s

end Sys2Proof.Machine
end

