-- ==== Sys2Proof/Certificates/Slice0/Obligations.lean ====
section
/-! DEFINITION. The statements about the machine, for the provers: one `def Obligations.<Name> : Prop` each. GW and W are
`s.cfg.gw` and `s.cfg.w`; every statement holds for all their values. -/

open Sys2Proof Sys2Proof.Machine

/-! ### Encoding (30_encoding.md) -/

/-- Decoding the word of a well-formed command gives the command back, with every operand at every value (R58, R61). -/
def Obligations.DecodeOfEncodeIsIdentity : Prop :=
  ∀ i : Instr, i.wf = true → decode (encode i) = .ok i ∧ decodeTableWord 32 (encode i).toNat = some i

/-- Each word that decodes has one meaning: it is the word of what it decodes to (R58, R61). -/
def Obligations.EncodeOfDecodeIsIdentity : Prop :=
  ∀ (c : Command) (i : Instr), decode c = .ok i → i.wf = true ∧ encode i = c

/-- R59, the six rows written out: a word selects an operation exactly by its mask and match, its free fields are the
operands, and a word matching none is illegal. -/
def Obligations.MaskAndMatchSelectTheOperation : Prop :=
  ∀ c : Command,
    (c &&& 0xFF0000FF#32 = 0x00000001#32 ↔
      decode c = .ok (.norm (c.extractLsb' 8 8).toNat (c.extractLsb' 16 8).toNat)) ∧
    (c &&& 0xFFFF00FF#32 = 0x00000002#32 ↔ decode c = .ok (.divref (c.extractLsb' 8 8).toNat)) ∧
    (c &&& 0xFF0000FF#32 = 0x00000003#32 ↔
      decode c = .ok (.mktbl (c.extractLsb' 8 8).toNat (c.extractLsb' 16 8).toNat)) ∧
    (c &&& 0xFFFF00FF#32 = 0x00000004#32 ↔ decode c = .ok (.divword (c.extractLsb' 8 8).toNat)) ∧
    (c &&& 0xFFFF00FF#32 = 0x00000005#32 ↔ decode c = .ok (.divsub (c.extractLsb' 8 8).toNat)) ∧
    (c &&& 0xFFFF00FF#32 = 0x00000006#32 ↔ decode c = .ok (.divmulti (c.extractLsb' 8 8).toNat)) ∧
    ((∃ why, decode c = .illegal why) ↔
      c &&& 0xFF0000FF#32 ≠ 0x00000001#32 ∧ c &&& 0xFFFF00FF#32 ≠ 0x00000002#32 ∧
      c &&& 0xFF0000FF#32 ≠ 0x00000003#32 ∧ c &&& 0xFFFF00FF#32 ≠ 0x00000004#32 ∧
      c &&& 0xFFFF00FF#32 ≠ 0x00000005#32 ∧ c &&& 0xFFFF00FF#32 ≠ 0x00000006#32)

/-- The words of 95_test_vectors.md section 2.1 decode to the commands they stand for. -/
def Obligations.SpecWordsDecode : Prop :=
  decode 0x00080801#32 = .ok (.norm 8 8) ∧ decode 0x00002002#32 = .ok (.divref 32) ∧
    decode 0x00081003#32 = .ok (.mktbl 16 8) ∧ decode 0x00000804#32 = .ok (.divword 8) ∧
    decode 0x00001005#32 = .ok (.divsub 16) ∧ decode 0x00002006#32 = .ok (.divmulti 32) ∧
    decode 0x00000812#32 = .illegal .reservedField

/-! ### A command runs (30_encoding.md R60) -/

/-- A step runs the decoded command: when the host's next action writes the word of a command to CMD while STATE is not
BUSY, the step is `exec` of that command in the state in which CMD holds the word, LASTOP its opcode, ERR 0, STATE BUSY. -/
def Obligations.StepRunsTheDecodedCommand : Prop :=
  ∀ (s : State) (c : Command) (i : Instr) (rest : List Event),
    s.pending = .writeReg 0 c.toNat :: rest → s.status.state ≠ .busy → decode c = .ok i →
      step s = exec i
        { s with pending := rest, cmd := c, status := { state := .busy, err := 0#8, lastop := c.extractLsb' 0 3 } }

/-- R57, R130: a word with a reserved field not 0, a reserved OP, or a SIZE not 0 on a divider ends at once in
IllegalCommand, code 0x41; nothing changes but CMD, which the host wrote, and STATUS. -/
def Obligations.IllegalCommandChangesOnlyStatus : Prop :=
  ∀ (s : State) (c : Command) (rest : List Event),
    s.pending = .writeReg 0 c.toNat :: rest → s.status.state ≠ .busy →
    (c.extractLsb' 3 5 ≠ 0#5 ∨ c.extractLsb' 24 8 ≠ 0#8 ∨ c.extractLsb' 0 3 = 0#3 ∨ c.extractLsb' 0 3 = 7#3 ∨
      (c.extractLsb' 0 3 ∈ [2#3, 4#3, 5#3, 6#3] ∧ c.extractLsb' 16 8 ≠ 0#8)) →
      step s = .next
        { s with
          pending := rest
          cmd := c
          status := { state := .error, err := 0x41#8, lastop := c.extractLsb' 0 3 }
          seq := .idle }

/-- R135, R136 at the step: a command that fails changes nothing but CMD, which the host wrote, and STATUS, whose ERR is
one of the codes of R126. -/
def Obligations.FailingCommandChangesOnlyStatus : Prop :=
  ∀ (s t : State) (c : Command) (rest : List Event),
    s.pending = .writeReg 0 c.toNat :: rest → s.status.state ≠ .busy → step s = .next t → t.status.state = .error →
      ∃ code : BitVec 8,
        code ∈ [0x11#8, 0x12#8, 0x13#8, 0x21#8, 0x31#8, 0x32#8, 0x33#8, 0x34#8, 0x35#8, 0x36#8, 0x41#8] ∧
        t = { s with
          pending := rest
          cmd := c
          status := { state := .error, err := code, lastop := c.extractLsb' 0 3 }
          seq := .idle }

/-- Every operation ends, in any state: with STATE DONE or ERROR, seq Idle, LASTOP kept (10_state.md R23,
60_exceptions.md R134). -/
def Obligations.EveryOperationEnds : Prop :=
  ∀ (i : Instr) (s : State), ∃ t, exec i s = .next t ∧ (t.status.state = .done ∨ t.status.state = .error) ∧
    t.seq = .idle ∧ t.status.lastop = s.status.lastop ∧ (t.status.state = .done → t.status.err = s.status.err)

/-! ### NORM (40_normalizer.md) -/

/-- NORM completes for 1 <= degree <= GW and chunk <= degree: the four values of R65 in NGEN, NSHIFT, NCARRY, NMASK, STATE
DONE, and nothing else changed; otherwise it changes STATUS only (R68). -/
def Obligations.NormWritesTheNormalizedTuple : Prop :=
  ∀ (s : State) (d c : Nat),
    (1 ≤ d ∧ d ≤ s.cfg.gw ∧ c ≤ d → ∃ t, exec (.norm d c) s = .next t ∧
      t.ngen.toNat = s.gen.toNat % 2 ^ d ∧ t.nshift.toNat = d - c ∧ t.ncarry.toNat = 2 ^ (d - 1) ∧
      t.nmask.toNat = 2 ^ d - 1 ∧ t.status = { s.status with state := .done } ∧ t.seq = .idle ∧
      sameRegsExcept [.status, .ngen, .nshift, .ncarry, .nmask] s t ∧ sameData s t ∧ sameTableFrom 0 s t ∧
      sameEnvelope s t) ∧
    (¬(1 ≤ d ∧ d ≤ s.cfg.gw ∧ c ≤ d) → ∃ code, exec (.norm d c) s = .next (failedWith code s))

/-- R66: the failures of `normalize`, the first in the order 0x13, 0x11, 0x12 being reported; no other condition fails. -/
def Obligations.NormalizeFailsInOrder : Prop :=
  ∀ (s : State) (d c : Nat),
    failureOf (exec (.norm d c) s) =
      if d = 0 then some 0x13#8
      else if s.cfg.gw < d then some 0x11#8
      else if d < c then some 0x12#8
      else none

/-- R67: bits of the generator at and above `degree` are ignored. -/
def Obligations.NormalizeMasksTheGenerator : Prop :=
  ∀ (gw d c : Nat) (gen : BitVec gw), Sys2Proof.Machine.normalize d gen c = Sys2Proof.Machine.normalize d (gen &&& BitVec.ofNat gw (2 ^ d - 1)) c

/-! ### The bit step and DIVREF (41_reference_divider.md) -/

/-- R73: the low `degree` bits after any number of bit steps, and after XORing a value below 2^degree in, depend on the
low `degree` bits alone. -/
def Obligations.LowBitsIgnoreHighBits : Prop :=
  ∀ (gw d n : Nat) (g r v : BitVec gw), 1 ≤ d → d ≤ gw → g.toNat < 2 ^ d → v.toNat < 2 ^ d →
    ((bitStep g (BitVec.ofNat gw (2 ^ (d - 1))))^[n] r).toNat % 2 ^ d =
      ((bitStep g (BitVec.ofNat gw (2 ^ (d - 1))))^[n] (BitVec.ofNat gw (r.toNat % 2 ^ d))).toNat % 2 ^ d ∧
    (r ^^^ v).toNat % 2 ^ d = (BitVec.ofNat gw (r.toNat % 2 ^ d) ^^^ v).toNat % 2 ^ d

/-- R75: DIVREF completes for W <= degree <= GW, with the remainder of R75 over the stream; nothing else changes but
STATE (and seq, Idle); otherwise it fails. -/
def Obligations.DivrefCompletes : Prop :=
  ∀ (s : State) (d : Nat),
    (s.cfg.w ≤ d ∧ d ≤ s.cfg.gw →
      exec (.divref d) s = .next (remainderIs s (divrefOver d (s.maskedGen d) s.stream))) ∧
    (¬(s.cfg.w ≤ d ∧ d ≤ s.cfg.gw) → ∃ code, exec (.divref d) s = .next (failedWith code s))

/-- R76: DIVREF's failures, and no other; none depends on the data or its length. -/
def Obligations.DivrefFails : Prop :=
  ∀ (s : State) (d : Nat),
    (d = 0 → exec (.divref d) s = .next (failedWith 0x13#8 s)) ∧
    (s.cfg.gw < d → exec (.divref d) s = .next (failedWith 0x11#8 s)) ∧
    (1 ≤ d → d ≤ s.cfg.gw → d < s.cfg.w → exec (.divref d) s = .next (failedWith 0x12#8 s)) ∧
    (s.cfg.w ≤ d → d ≤ s.cfg.gw → failureOf (exec (.divref d) s) = none)

/-- A bit vector as a polynomial over GF(2) (00_scope.md R12). -/
noncomputable def Sys2Proof.Machine.polyOf {n : Nat} (v : BitVec n) : Polynomial (ZMod 2) :=
  ∑ i ∈ Finset.range n, if v.getLsbD i then Polynomial.X ^ i else 0

/-- The generator polynomial `x^d + ...` (00_scope.md R12). -/
noncomputable def Sys2Proof.Machine.generatorPoly {n : Nat} (d : Nat) (gen : BitVec n) : Polynomial (ZMod 2) :=
  Polynomial.X ^ d + ∑ i ∈ Finset.range d, if gen.getLsbD i then Polynomial.X ^ i else 0

/-- The message polynomial: words in index order, each most significant bit first (00_scope.md R12). -/
noncomputable def Sys2Proof.Machine.messagePoly {w : Nat} (ws : List (BitVec w)) : Polynomial (ZMod 2) :=
  ws.foldl (fun M x => M * Polynomial.X ^ w + polyOf x) 0

/-- R12: DIVREF's REM is `M(x) * x^degree mod G(x)`. -/
def Obligations.DivrefIsThePolynomialRemainder : Prop :=
  ∀ (s t : State) (d : Nat), exec (.divref d) s = .next t → t.status.state = .done →
    polyOf t.rem = (messagePoly s.stream * Polynomial.X ^ d) %ₘ generatorPoly d s.gen

/-- R73: DIVREF's result does not depend on GW: two instances of the same W, with generators that agree on the low
`degree` bits and the same stream, give the same number. -/
def Obligations.DivrefIndependentOfGeneratorWidth : Prop :=
  ∀ (s s' : State) (d : Nat), s.cfg.w = s'.cfg.w → d ≤ s.cfg.gw → d ≤ s'.cfg.gw →
    s.gen.toNat % 2 ^ d = s'.gen.toNat % 2 ^ d → s.dataLen = s'.dataLen →
    (∀ i, i < s.dataLen.toNat → (s.dataAt i).toNat = (s'.dataAt i).toNat) →
      remainderOf (exec (.divref d) s) = remainderOf (exec (.divref d) s')

/-- R78: a generator whose low `degree` bits are 0, or a stream of zero words, gives REM = 0. -/
def Obligations.ZeroGeneratorOrStreamGivesZero : Prop :=
  ∀ (s : State) (d v : Nat), remainderOf (exec (.divref d) s) = some v →
    (s.gen.toNat % 2 ^ d = 0 → v = 0) ∧ ((∀ i, i < s.dataLen.toNat → (s.dataAt i).toNat = 0) → v = 0)

/-- R124: a stream of wide words and the stream of the narrow words they are cut into, most significant first, give the
same REM. -/
def Obligations.RegroupedStreamGivesTheSameRemainder : Prop :=
  ∀ (s s' : State) (c d v : Nat), 1 ≤ c → s'.cfg.w = c * s.cfg.w → s'.cfg.gw = s.cfg.gw →
    s'.gen.toNat = s.gen.toNat → s.dataLen.toNat = c * s'.dataLen.toNat →
    (∀ i j, i < s'.dataLen.toNat → j < c →
      (s.dataAt (c * i + j)).toNat = (s'.dataAt i).toNat / 2 ^ ((c - 1 - j) * s.cfg.w) % 2 ^ s.cfg.w) →
    remainderOf (exec (.divref d) s') = some v → remainderOf (exec (.divref d) s) = some v

/-! ### MKTBL (42_table_builder.md) -/

/-- R82, R84: MKTBL completes for table_size <= min(32, degree) and 1 <= degree <= GW: entry i is
`step^T(i * 2^(degree - T))`, unmasked; TABLE_LEN is 2^T; entries from 2^T on keep their contents; nothing else changes but
STATE. -/
def Obligations.MktblCompletes : Prop :=
  ∀ (s : State) (d T : Nat), T ≤ 32 → T ≤ d → 1 ≤ d → d ≤ s.cfg.gw →
    ∃ t, exec (.mktbl d T) s = .next t ∧ t.tableLen.toNat = 2 ^ T ∧
      (∀ i, i < 2 ^ T → (t.tableAt i).toNat = (entryOf d (s.maskedGen d) T i).toNat) ∧
      sameTableFrom (2 ^ T) s t ∧ sameData s t ∧ sameRegsExcept [.status, .tableLen] s t ∧ sameEnvelope s t ∧
      t.status = { s.status with state := .done } ∧ t.seq = .idle

/-- R81: MKTBL's checks, in order. -/
def Obligations.MktblFails : Prop :=
  ∀ (s : State) (d T : Nat),
    (33 ≤ T → exec (.mktbl d T) s = .next (failedWith 0x21#8 s)) ∧
    (T < 33 → d = 0 → exec (.mktbl d T) s = .next (failedWith 0x13#8 s)) ∧
    (T < 33 → s.cfg.gw < d → exec (.mktbl d T) s = .next (failedWith 0x11#8 s)) ∧
    (T < 33 → 1 ≤ d → d ≤ s.cfg.gw → d < T → exec (.mktbl d T) s = .next (failedWith 0x12#8 s))

/-- R83, of the entries a successful MKTBL leaves: bit `degree + T - k` of entry i (when below GW) is the bit that step
number k tested, and bits from `degree + T` on are 0. -/
def Obligations.EntryHighBitsAreQuotientBits : Prop :=
  ∀ (s t : State) (d T i : Nat), exec (.mktbl d T) s = .next t → t.status.state = .done → i < 2 ^ T →
    (∀ k, 1 ≤ k → k ≤ T → d + T - k < s.cfg.gw →
      (t.tableAt i).getLsbD (d + T - k) =
        ((bitStep (s.maskedGen d) (carryOf s.cfg.gw d))^[k - 1]
          (BitVec.ofNat s.cfg.gw (i * 2 ^ (d - T)))).getLsbD (d - 1)) ∧
    (∀ b, d + T ≤ b → (t.tableAt i).getLsbD b = false)

/-- R85, R115, of the machine's own bit step, table entry and combine: on a remainder below 2^degree, n bit steps, masked,
are one combine at width n with the entry that MKTBL computes for the remainder's top n bits. -/
def Obligations.EntryReplacesBitSteps : Prop :=
  ∀ (gw d n : Nat) (gen r : BitVec gw) (p : Params gw),
    Sys2Proof.Machine.normalize d gen n = .passes p → r.toNat < 2 ^ d →
      (bitStep p.g p.carry)^[n] r &&& p.mask = combine p.mask r n (tableEntry p n (topIndex r p.shift))

/-- R109, of the entries of two successful MKTBL: the low part of a table of width B is a table of any narrower width n, on
the low `degree` bits. -/
def Obligations.WideTableContainsNarrowTable : Prop :=
  ∀ (s t u : State) (d n B i : Nat), n ≤ B →
    exec (.mktbl d n) s = .next t → t.status.state = .done →
    exec (.mktbl d B) s = .next u → u.status.state = .done → i < 2 ^ n →
      (u.tableAt i).toNat % 2 ^ d = (t.tableAt i).toNat % 2 ^ d

/-- R86: entry 0 is always 0, and entry 1 of a table as wide as the degree is the masked generator on the low bits. -/
def Obligations.FirstTwoEntries : Prop :=
  ∀ (s t : State) (d T : Nat), exec (.mktbl d T) s = .next t → t.status.state = .done →
    (t.tableAt 0).toNat = 0 ∧ (T = d → (t.tableAt 1).toNat % 2 ^ d = s.gen.toNat % 2 ^ d)

/-- R87, R117: two MKTBL with the same operands write the same table. And (R82, R84, with the model's canonical form of a
store, log entry 5, a DESIGN CHOICE) repeating one changes nothing at all, in a state whose TABLE store is in that form. -/
def Obligations.BuildingATableIsIdempotent : Prop :=
  (∀ (s s' t t' : State) (d T : Nat), s.cfg.gw = s'.cfg.gw → s.gen.toNat = s'.gen.toNat →
    exec (.mktbl d T) s = .next t → exec (.mktbl d T) s' = .next t' → t.status.state = .done →
      t'.status.state = .done ∧ t.tableLen = t'.tableLen ∧
        ∀ i, i < t.tableLen.toNat → (t.tableAt i).toNat = (t'.tableAt i).toNat) ∧
  (∀ (s t : State) (d T : Nat), s.table.wf → exec (.mktbl d T) s = .next t → t.status.state = .done →
    exec (.mktbl d T) t = .next t)

/-- A MKTBL that succeeds leaves a matching table of its width for its degree and GEN (46_equivalence_laws.md, opening). -/
def Obligations.MktblLeavesAMatchingTable : Prop :=
  ∀ (s t : State) (d B : Nat), exec (.mktbl d B) s = .next t → t.status.state = .done → t.MatchingTable B d

/-! ### DIVWORD (43_word_table_divider.md) -/

/-- R90: DIVWORD completes when TABLE_LEN = 2^W and W <= degree <= GW. -/
def Obligations.DivwordCompletes : Prop :=
  ∀ (s : State) (d : Nat), s.tableLen.toNat = 2 ^ s.cfg.w → s.cfg.w ≤ d → d ≤ s.cfg.gw →
    exec (.divword d) s = .next (remainderIs s (divwordOver d s.tableAt s.stream))

/-- R89: DIVWORD's checks, in order; with W > 32 every DIVWORD fails with 0x31. -/
def Obligations.DivwordFails : Prop :=
  ∀ (s : State) (d : Nat),
    (s.tableLen.toNat ≠ 2 ^ s.cfg.w → exec (.divword d) s = .next (failedWith 0x31#8 s)) ∧
    (32 < s.cfg.w → exec (.divword d) s = .next (failedWith 0x31#8 s)) ∧
    (s.tableLen.toNat = 2 ^ s.cfg.w →
      (d = 0 → exec (.divword d) s = .next (failedWith 0x13#8 s)) ∧
      (s.cfg.gw < d → exec (.divword d) s = .next (failedWith 0x11#8 s)) ∧
      (1 ≤ d → d ≤ s.cfg.gw → d < s.cfg.w → exec (.divword d) s = .next (failedWith 0x12#8 s)))

/-! ### DIVSUB (44_small_table_divider.md) -/

/-- R99: DIVSUB completes when TABLE_LEN = 2^B, B >= 1 divides W, and W <= degree <= GW. The block's position degree - B
is the spec's own inference (R99 marks it derived from R85 and R90). -/
def Obligations.DivsubCompletes : Prop :=
  ∀ (s : State) (d B : Nat), 1 ≤ B → s.tableLen.toNat = 2 ^ B → s.cfg.w % B = 0 → s.cfg.w ≤ d → d ≤ s.cfg.gw →
    exec (.divsub d) s = .next (remainderIs s (divsubOver d B s.tableAt s.stream))

/-- R97: DIVSUB's checks, in order. -/
def Obligations.DivsubFails : Prop :=
  ∀ (s : State) (d : Nat),
    ((¬∃ B, 1 ≤ B ∧ s.tableLen.toNat = 2 ^ B) → exec (.divsub d) s = .next (failedWith 0x36#8 s)) ∧
    (∀ B, 1 ≤ B → s.tableLen.toNat = 2 ^ B →
      (s.cfg.w < B → exec (.divsub d) s = .next (failedWith 0x32#8 s)) ∧
      (B ≤ s.cfg.w → s.cfg.w % B ≠ 0 → exec (.divsub d) s = .next (failedWith 0x33#8 s)) ∧
      (B ≤ s.cfg.w → s.cfg.w % B = 0 →
        (d = 0 → exec (.divsub d) s = .next (failedWith 0x13#8 s)) ∧
        (s.cfg.gw < d → exec (.divsub d) s = .next (failedWith 0x11#8 s)) ∧
        (1 ≤ d → d ≤ s.cfg.gw → d < s.cfg.w → exec (.divsub d) s = .next (failedWith 0x12#8 s))))

/-! ### DIVMULTI (45_big_table_divider.md) -/

/-- R107, R108: DIVMULTI completes when TABLE_LEN = 2^B, B >= 1 is a multiple of W, and B <= degree <= GW; its last group
may be shorter. The words' positions are the spec's own inference (R107 marks them derived from R85 and R90), and the
shorter last group follows the reading of 90_conflicts.md C1. -/
def Obligations.DivmultiCompletes : Prop :=
  ∀ (s : State) (d B : Nat), 1 ≤ B → s.tableLen.toNat = 2 ^ B → B % s.cfg.w = 0 → B ≤ d → d ≤ s.cfg.gw →
    exec (.divmulti d) s = .next (remainderIs s (divmultiOver d (B / s.cfg.w) s.tableAt s.stream))

/-- R105: DIVMULTI's checks, in order; 0x11 is the only failure left to `normalize`. -/
def Obligations.DivmultiFails : Prop :=
  ∀ (s : State) (d : Nat),
    ((¬∃ B, 1 ≤ B ∧ s.tableLen.toNat = 2 ^ B) → exec (.divmulti d) s = .next (failedWith 0x36#8 s)) ∧
    (∀ B, 1 ≤ B → s.tableLen.toNat = 2 ^ B →
      (B % s.cfg.w ≠ 0 → exec (.divmulti d) s = .next (failedWith 0x34#8 s)) ∧
      (B % s.cfg.w = 0 → d < B → exec (.divmulti d) s = .next (failedWith 0x35#8 s)) ∧
      (B % s.cfg.w = 0 → B ≤ d → s.cfg.gw < d → exec (.divmulti d) s = .next (failedWith 0x11#8 s)))

/-! ### The laws between the units (46_equivalence_laws.md) -/

/-- R114 (a): with a matching table of width W, DIVWORD succeeds with DIVREF's REM. -/
def Obligations.WordTableDividerEqualsReference : Prop :=
  ∀ (s : State) (d v : Nat), s.MatchingTable s.cfg.w d →
    remainderOf (exec (.divref d) s) = some v → remainderOf (exec (.divword d) s) = some v

/-- R114 (b): with a matching table of any width B >= 1 that divides W, DIVSUB succeeds with DIVREF's REM. -/
def Obligations.SmallTableDividerEqualsReference : Prop :=
  ∀ (s : State) (d B v : Nat), 1 ≤ B → s.cfg.w % B = 0 → s.MatchingTable B d →
    remainderOf (exec (.divref d) s) = some v → remainderOf (exec (.divsub d) s) = some v

/-- R114 (c), R120: with a matching table of any width B <= degree that is a multiple of W, DIVMULTI succeeds with DIVREF's
REM, for every stream length. -/
def Obligations.BigTableDividerEqualsReference : Prop :=
  ∀ (s : State) (d B v : Nat), 1 ≤ B → B % s.cfg.w = 0 → B ≤ d → s.MatchingTable B d →
    remainderOf (exec (.divref d) s) = some v → remainderOf (exec (.divmulti d) s) = some v

/-- R114, its converse: each table divider succeeds only if DIVREF succeeds on the same degree and GEN. -/
def Obligations.TableDividersSucceedOnlyWithReference : Prop :=
  ∀ (s : State) (d : Nat) (i : Instr), i = .divword d ∨ i = .divsub d ∨ i = .divmulti d →
    (remainderOf (exec i s)).isSome → (remainderOf (exec (.divref d) s)).isSome

/-- R116: for fixed degree, generator and stream, every valid table width of DIVSUB and DIVMULTI gives the same result. -/
def Obligations.ResultIsIndependentOfTableWidth : Prop :=
  ∀ (s : State) (m : Memory s.cfg.gw) (len : BitVec 33) (d B B' : Nat) (i i' : Instr),
    (i = .divsub d ∧ s.cfg.w % B = 0 ∨ i = .divmulti d ∧ B % s.cfg.w = 0 ∧ B ≤ d) → 1 ≤ B →
    (i' = .divsub d ∧ s.cfg.w % B' = 0 ∨ i' = .divmulti d ∧ B' % s.cfg.w = 0 ∧ B' ≤ d) → 1 ≤ B' →
    s.MatchingTable B d → State.MatchingTable { s with table := m, tableLen := len } B' d →
      remainderOf (exec i s) = remainderOf (exec i' { s with table := m, tableLen := len })

/-- R118: after a divider that succeeded, REM is below 2^degree. -/
def Obligations.RemainderIsMaskedToDegree : Prop :=
  ∀ (s t : State) (d : Nat) (i : Instr), i = .divref d ∨ i = .divword d ∨ i = .divsub d ∨ i = .divmulti d →
    exec i s = .next t → t.status.state = .done → t.rem.toNat < 2 ^ d

/-- R119: on an empty stream every divider that succeeds gives 0, and the entry checks do not depend on the length of the
stream. -/
def Obligations.EmptyStreamGivesZero : Prop :=
  ∀ (s : State) (d : Nat) (i : Instr), i = .divref d ∨ i = .divword d ∨ i = .divsub d ∨ i = .divmulti d →
    (∀ v, s.dataLen = 0#32 → remainderOf (exec i s) = some v → v = 0) ∧
    (∀ n : BitVec 32, failureOf (exec i { s with dataLen := n }) = failureOf (exec i s))

/-! ### What an operation reads and writes (10_state.md R27) -/

/-- The frame of the four dividers, on success and on failure: every register but STATUS and REM, every DATA word, every
TABLE entry, the instance and the host's side are unchanged. -/
def Obligations.DividersFrame : Prop :=
  ∀ (s t : State) (d : Nat) (i : Instr), i = .divref d ∨ i = .divword d ∨ i = .divsub d ∨ i = .divmulti d →
    exec i s = .next t →
      sameRegsExcept [.status, .rem] s t ∧ sameData s t ∧ sameTableFrom 0 s t ∧ sameEnvelope s t ∧
      (t.status.state = .error → t.rem.toNat = s.rem.toNat)

/-- The frame of NORM and MKTBL, on success and on failure. -/
def Obligations.NormAndMktblFrame : Prop :=
  ∀ (s t : State) (d n : Nat),
    (exec (.norm d n) s = .next t →
      sameRegsExcept [.status, .ngen, .nshift, .ncarry, .nmask] s t ∧ sameData s t ∧ sameTableFrom 0 s t ∧
      sameEnvelope s t) ∧
    (exec (.mktbl d n) s = .next t →
      sameRegsExcept [.status, .tableLen] s t ∧ sameData s t ∧ sameTableFrom (2 ^ n) s t ∧ sameEnvelope s t ∧
      (t.status.state = .error → sameTableFrom 0 s t ∧ t.tableLen = s.tableLen))

/-- R44: the dividers read no DATA word at or above DATA_LEN and no TABLE entry at or above TABLE_LEN: stores that agree
below those lengths give the same result. -/
def Obligations.DividersReadOnlyStreamAndTable : Prop :=
  ∀ (s : State) (m : Memory s.cfg.w) (m' : Memory s.cfg.gw) (d : Nat) (i : Instr),
    i = .divref d ∨ i = .divword d ∨ i = .divsub d ∨ i = .divmulti d →
    (∀ j, j < s.dataLen.toNat → State.dataAt { s with data := m, table := m' } j = s.dataAt j) →
    (∀ j, j < s.tableLen.toNat → State.tableAt { s with data := m, table := m' } j = s.tableAt j) →
      remainderOf (exec i { s with data := m, table := m' }) = remainderOf (exec i s)

/-- R69: no operation reads NGEN, NSHIFT, NCARRY or NMASK: with any other values in them before, the next state is the
same, but for those four registers themselves, which only a NORM that succeeds overwrites. -/
def Obligations.NormResultsAreNotOperands : Prop :=
  ∀ (s t : State) (a n b e : Nat) (i : Instr), exec i s = .next t →
    exec i { s with
      ngen := BitVec.ofNat s.cfg.gw a
      nshift := BitVec.ofNat 8 n
      ncarry := BitVec.ofNat s.cfg.gw b
      nmask := BitVec.ofNat s.cfg.gw e } =
    .next (if i.op = .norm ∧ t.status.state = .done then t
      else { t with
        ngen := BitVec.ofNat t.cfg.gw a
        nshift := BitVec.ofNat 8 n
        ncarry := BitVec.ofNat t.cfg.gw b
        nmask := BitVec.ofNat t.cfg.gw e })

/-- R152: a table divider uses the table alone: changing GEN after the table was built changes neither its result nor its
failures. -/
def Obligations.TableDividersIgnoreTheGenerator : Prop :=
  ∀ (s : State) (gen : BitVec s.cfg.gw) (d : Nat) (i : Instr), i = .divword d ∨ i = .divsub d ∨ i = .divmulti d →
    remainderOf (exec i { s with gen := gen }) = remainderOf (exec i s) ∧
    failureOf (exec i { s with gen := gen }) = failureOf (exec i s)

/-! ### STATUS, the invariant, the sequencer, reset -/

/-- R22: the fields of STATUS, 0 in every other bit, and the four numbers of STATE. -/
def Obligations.StatusWordLayout : Prop :=
  (∀ st : Status,
    st.word.extractLsb' 0 2 = st.state.code ∧ st.word.extractLsb' 2 6 = 0#6 ∧ st.word.extractLsb' 8 8 = st.err ∧
    st.word.extractLsb' 16 3 = st.lastop ∧ st.word.extractLsb' 19 13 = 0#13) ∧
  RunState.idle.code = 0#2 ∧ RunState.busy.code = 1#2 ∧ RunState.done.code = 2#2 ∧ RunState.error.code = 3#2

/-- Every step keeps the invariant of Safety.lean: canonical stores within the address map, a legal TABLE_LEN, "seq is Idle
exactly when STATUS.STATE is not BUSY" (R21), consistent STATUS fields (R22), a bounded sequencer state (R21). -/
def Obligations.StepKeepsInvariant : Prop :=
  ∀ s t : State, s.Inv → step s = .next t → t.Inv

/-- The invariant holds after reset, of every instance. -/
def Obligations.ResetMeetsInvariant : Prop :=
  ∀ (cfg : Config) (epoch : Nat), (State.resetAt cfg epoch).Inv

/-- The small-step reading reaches the atomic one (92_eei_decisions.md D9): a command started with startCmd ends, after
enough micro-steps with no host action between, in exactly the state that the atomic write of the same word gives. -/
def Obligations.SequencerReachesTheAtomicResult : Prop :=
  ∀ (s : State) (c : Command), s.status.state ≠ .busy →
    ∃ (n : Nat) (u t : State),
      step { s with pending := [.startCmd c.toNat] } = .next u ∧
      step { s with pending := [.writeReg 0 c.toNat] } = .next t ∧
      Host.Core.run Sys2Proof.core n u = .next t

/-- R156: no operation runs for ever: from every state that meets the invariant, with no host action coming, enough
micro-steps leave BUSY. -/
def Obligations.RunningOperationEnds : Prop :=
  ∀ s : State, s.Inv → s.pending = [] →
    ∃ (n : Nat) (t : State), Host.Core.run Sys2Proof.core n s = .next t ∧ t.status.state ≠ .busy

/-- R145: a reset, at any moment, gives the control state its reset values; after it CORE does nothing while no host action
comes. Nothing is listed in either store: that an unspecified element is one not listed is the model's DESIGN CHOICE, log
entry 5. -/
def Obligations.ResetGivesTheResetValues : Prop :=
  (∀ (s : State) (rest : List Event), s.pending = .reset :: rest →
    ∃ t, step s = .next t ∧ t.cfg = s.cfg ∧ t.cmd = 0#32 ∧ t.status.word = 0#32 ∧ t.dataLen = 0#32 ∧
      t.tableLen = 0#33 ∧ t.seq = .idle ∧ t.data = [] ∧ t.table = [] ∧ t.pending = rest) ∧
  (∀ (cfg : Config) (epoch : Nat), step (State.resetAt cfg epoch) = .next (State.resetAt cfg epoch))

/-- R23: STATE becomes IDLE by a reset only; a CMD write while not BUSY sets LASTOP, clears ERR and sets STATE to BUSY
(small-step), or ends in DONE or ERROR (atomic); a BUSY operation ends in DONE or ERROR; STATUS changes in no other way. -/
def Obligations.StateTransitions : Prop :=
  ∀ s t : State, s.Inv → step s = .next t →
    (t.status.state = .idle → s.status.state = .idle ∨ ∃ rest, s.pending = .reset :: rest) ∧
    (∀ (c : Command) (rest : List Event), s.pending = .startCmd c.toNat :: rest → s.status.state ≠ .busy →
      t.status.lastop = c.extractLsb' 0 3 ∧
      ((∃ i, decode c = .ok i) → t.status.state = .busy ∧ t.status.err = 0#8) ∧
      ((∃ why, decode c = .illegal why) → t.status.state = .error ∧ t.status.err = 0x41#8)) ∧
    (∀ (c : Command) (rest : List Event), s.pending = .writeReg 0 c.toNat :: rest → s.status.state ≠ .busy →
      t.status.lastop = c.extractLsb' 0 3 ∧
      (t.status.state = .done ∧ t.status.err = 0#8 ∨ t.status.state = .error)) ∧
    (t.status ≠ s.status →
      (∃ rest, s.pending = .reset :: rest) ∨
      (s.status.state ≠ .busy ∧ ∃ v rest, s.pending = .startCmd v :: rest ∨ s.pending = .writeReg 0 v :: rest) ∨
      (s.status.state = .busy ∧ (t.status.state = .done ∨ t.status.state = .error) ∧
        t.status.lastop = s.status.lastop))

/-! ### The host (10_state.md R14, R30) -/

/-- R30, R37: a host read of a register, or of a TABLE entry within the address map, changes nothing but the host's reply
(and the count of free values drawn, while BUSY); it returns what the register or entry holds, except for a result register
or an entry while BUSY, where it returns some value of its width (R153; free values, log entry 6). -/
def Obligations.HostReadHasNoSideEffect : Prop :=
  (∀ (s : State) (r : Reg) (rest : List Event), s.pending = .readReg r.number :: rest →
    ∃ v k, v < 2 ^ r.width s.cfg ∧
      step s = .next { s with pending := rest, reply := some v, draws := k } ∧
      (s.status.state ≠ .busy ∨ r ∈ [.cmd, .status, .gen, .dataLen] → v = s.readReg r ∧ k = s.draws)) ∧
  (∀ (s : State) (i : Nat) (rest : List Event), s.pending = .readTable i :: rest → i < 2 ^ 32 →
    ∃ v k, v < 2 ^ s.cfg.gw ∧
      step s = .next { s with pending := rest, reply := some v, draws := k } ∧
      (s.status.state ≠ .busy → v = (s.tableAt i).toNat ∧ k = s.draws))

/-- R15 to R17: the host writes GEN, DATA_LEN and TABLE_LEN while STATE is not BUSY, and nothing else changes. -/
def Obligations.HostWritesOperandRegisters : Prop :=
  ∀ (s : State) (rest : List Event), s.status.state ≠ .busy →
    (∀ v : BitVec s.cfg.gw, s.pending = .writeReg 2 v.toNat :: rest →
      step s = .next { s with pending := rest, gen := v }) ∧
    (∀ v : BitVec 32, s.pending = .writeReg 3 v.toNat :: rest →
      step s = .next { s with pending := rest, dataLen := v }) ∧
    (∀ v : BitVec 33, v.toNat ≤ 2 ^ 32 → s.pending = .writeReg 4 v.toNat :: rest →
      step s = .next { s with pending := rest, tableLen := v })

/-- R22, R30, R151: host writes to the read-only registers, and to CMD while BUSY, in either reading, change nothing. -/
def Obligations.IgnoredHostWrites : Prop :=
  ∀ (s : State) (rest : List Event),
    (∀ n v, n ∈ [1, 5, 6, 7, 8, 9] → s.pending = .writeReg n v :: rest → step s = .next { s with pending := rest }) ∧
    (∀ c : Command, s.status.state = .busy →
      (s.pending = .writeReg 0 c.toNat :: rest ∨ s.pending = .startCmd c.toNat :: rest) →
        step s = .next { s with pending := rest })

/-- R14, R17, R150: the host accesses that the model refuses; and, by the model's log entry 7 (DEDUCED from R11 and R43),
those of a value that does not fit and of an element outside the address map. -/
def Obligations.RefusedHostAccesses : Prop :=
  ∀ (s : State) (rest : List Event),
    (∀ n v, 9 < n → s.pending = .writeReg n v :: rest → step s = .refused .noSuchRegister) ∧
    (∀ n, 9 < n → s.pending = .readReg n :: rest → step s = .refused .noSuchRegister) ∧
    (∀ v, s.status.state ≠ .busy → 2 ^ 32 < v → s.pending = .writeReg 4 v :: rest →
      step s = .refused .tableLenTooLarge) ∧
    (∀ n v, s.status.state = .busy → n ∈ [2, 3, 4] → s.pending = .writeReg n v :: rest →
      step s = .refused .writeWhileBusy) ∧
    (∀ i v, s.status.state = .busy → i < 2 ^ 32 - 1 → s.pending = .writeData i v :: rest →
      step s = .refused .writeWhileBusy) ∧
    (∀ i v, s.status.state = .busy → i < 2 ^ 32 → s.pending = .writeTable i v :: rest →
      step s = .refused .writeWhileBusy) ∧
    (∀ v, s.status.state ≠ .busy →
      (s.pending = .writeReg 2 v :: rest ∧ 2 ^ s.cfg.gw ≤ v ∨ s.pending = .writeReg 3 v :: rest ∧ 2 ^ 32 ≤ v) →
        step s = .refused .valueTooWide) ∧
    (∀ i v, s.status.state ≠ .busy →
      (s.pending = .writeData i v :: rest ∧ i < 2 ^ 32 - 1 ∧ 2 ^ s.cfg.w ≤ v ∨
        s.pending = .writeTable i v :: rest ∧ i < 2 ^ 32 ∧ 2 ^ s.cfg.gw ≤ v) →
        step s = .refused .valueTooWide) ∧
    (∀ v, 2 ^ 32 ≤ v → (s.pending = .writeReg 0 v :: rest ∨ s.pending = .startCmd v :: rest) →
      step s = .refused .valueTooWide) ∧
    (∀ i v, (s.pending = .writeData i v :: rest ∧ 2 ^ 32 - 1 ≤ i ∨ s.pending = .writeTable i v :: rest ∧ 2 ^ 32 ≤ i ∨
      s.pending = .readTable i :: rest ∧ 2 ^ 32 ≤ i) → step s = .fault .noSuchElement)

/-- R34, R36, R42, R49: a host write of one element, while STATE is not BUSY, is what a later read of that element gives;
every other element of that store reads as before, and no other field of the state changes (the instance, the registers,
the other store, seq and the model's own fields), but for the event that is taken. -/
def Obligations.HostWritesOneElement : Prop :=
  ∀ (s : State) (rest : List Event) (i : Nat), s.status.state ≠ .busy →
    (∀ v : BitVec s.cfg.w, i < 2 ^ 32 - 1 → s.pending = .writeData i v.toNat :: rest →
      ∃ m : Memory s.cfg.w, step s = .next { s with pending := rest, data := m } ∧
        State.dataAt { s with pending := rest, data := m } i = v ∧
        ∀ j, j ≠ i → State.dataAt { s with pending := rest, data := m } j = s.dataAt j) ∧
    (∀ v : BitVec s.cfg.gw, i < 2 ^ 32 → s.pending = .writeTable i v.toNat :: rest →
      ∃ m : Memory s.cfg.gw, step s = .next { s with pending := rest, table := m } ∧
        State.tableAt { s with pending := rest, table := m } i = v ∧
        ∀ j, j ≠ i → State.tableAt { s with pending := rest, table := m } j = s.tableAt j)

/-! ### The source's calls (30_encoding.md R53, R63) -/

/-- R53, R63: a call of one of the source's six functions with a degree that the field cannot hold performs no host action
and the wrapper reports InvalidPolynomial (class 1 of R126), in every state; a call whose operands fit ends its host
actions with the CMD write of a word that decodes to its command, and performs no other CMD write. The model's own, log
entry 15 (DESIGN CHOICE): the degree is reported before the size when neither fits; and a call whose degree fits and whose
chunk_size or table_size is 256 or more performs no host action either, and the wrapper reports 0x12 for `normalize` and
0x21 for `build_table`. So no call writes CMD with a command whose fields do not fit. -/
def Obligations.SourceCallsPresentOnlyWhatFits : Prop :=
  ∀ c : SourceCall,
    (256 ≤ c.command.degree →
      c.events = [] ∧ ∃ f : Failure, f.classCode = 1#4 ∧ ∀ s, c.result s = .failure f.code.toNat) ∧
    (c.command.wf = true →
      ∃ (before : List Event) (word : Command),
        c.events = before ++ [.writeReg 0 word.toNat] ∧ decode word = .ok c.command ∧
        (∀ e ∈ before, ∀ v, e ≠ .writeReg 0 v ∧ e ≠ .startCmd v) ∧ ∀ s, c.result s = c.statusResult s) ∧
    (c.command.wf = false → c.events = []) ∧
    (∀ d g n, d < 256 → 256 ≤ n →
      (c = .normalize d g n → ∀ s, c.result s = .failure 0x12) ∧
      (c = .buildTable d g n → ∀ s, c.result s = .failure 0x21))
end

