-- ==== Sys2Proof/Laws/State.lean ====
section
/-! SUPPORT. What each update of the state leaves in each field: one lemma per field per update, true by rfl, so that no
proof unfolds a record update. -/

namespace Sys2Proof.Machine

/-! The failure entry (60_exceptions.md R136): STATUS and seq. -/

@[simp] theorem raise_cfg (f : Failure) (s : State) : (raise f s).cfg = s.cfg := rfl
@[simp] theorem raise_cmd (f : Failure) (s : State) : (raise f s).cmd = s.cmd := rfl
@[simp] theorem raise_status (f : Failure) (s : State) : (raise f s).status = s.status.failed f := rfl
@[simp] theorem raise_gen (f : Failure) (s : State) : (raise f s).gen = s.gen := rfl
@[simp] theorem raise_dataLen (f : Failure) (s : State) : (raise f s).dataLen = s.dataLen := rfl
@[simp] theorem raise_tableLen (f : Failure) (s : State) : (raise f s).tableLen = s.tableLen := rfl
@[simp] theorem raise_rem (f : Failure) (s : State) : (raise f s).rem = s.rem := rfl
@[simp] theorem raise_ngen (f : Failure) (s : State) : (raise f s).ngen = s.ngen := rfl
@[simp] theorem raise_nshift (f : Failure) (s : State) : (raise f s).nshift = s.nshift := rfl
@[simp] theorem raise_ncarry (f : Failure) (s : State) : (raise f s).ncarry = s.ncarry := rfl
@[simp] theorem raise_nmask (f : Failure) (s : State) : (raise f s).nmask = s.nmask := rfl
@[simp] theorem raise_data (f : Failure) (s : State) : (raise f s).data = s.data := rfl
@[simp] theorem raise_table (f : Failure) (s : State) : (raise f s).table = s.table := rfl
@[simp] theorem raise_seq (f : Failure) (s : State) : (raise f s).seq = .idle := rfl
@[simp] theorem raise_pending (f : Failure) (s : State) : (raise f s).pending = s.pending := rfl
@[simp] theorem raise_reply (f : Failure) (s : State) : (raise f s).reply = s.reply := rfl
@[simp] theorem raise_epoch (f : Failure) (s : State) : (raise f s).epoch = s.epoch := rfl
@[simp] theorem raise_draws (f : Failure) (s : State) : (raise f s).draws = s.draws := rfl

/-! The end of a successful operation: STATUS and seq. -/

@[simp] theorem finish_cfg (s : State) : (finish s).cfg = s.cfg := rfl
@[simp] theorem finish_cmd (s : State) : (finish s).cmd = s.cmd := rfl
@[simp] theorem finish_status (s : State) : (finish s).status = s.status.finished := rfl
@[simp] theorem finish_gen (s : State) : (finish s).gen = s.gen := rfl
@[simp] theorem finish_dataLen (s : State) : (finish s).dataLen = s.dataLen := rfl
@[simp] theorem finish_tableLen (s : State) : (finish s).tableLen = s.tableLen := rfl
@[simp] theorem finish_rem (s : State) : (finish s).rem = s.rem := rfl
@[simp] theorem finish_ngen (s : State) : (finish s).ngen = s.ngen := rfl
@[simp] theorem finish_nshift (s : State) : (finish s).nshift = s.nshift := rfl
@[simp] theorem finish_ncarry (s : State) : (finish s).ncarry = s.ncarry := rfl
@[simp] theorem finish_nmask (s : State) : (finish s).nmask = s.nmask := rfl
@[simp] theorem finish_data (s : State) : (finish s).data = s.data := rfl
@[simp] theorem finish_table (s : State) : (finish s).table = s.table := rfl
@[simp] theorem finish_seq (s : State) : (finish s).seq = .idle := rfl
@[simp] theorem finish_pending (s : State) : (finish s).pending = s.pending := rfl
@[simp] theorem finish_reply (s : State) : (finish s).reply = s.reply := rfl
@[simp] theorem finish_epoch (s : State) : (finish s).epoch = s.epoch := rfl
@[simp] theorem finish_draws (s : State) : (finish s).draws = s.draws := rfl

/-! A command is taken (30_encoding.md R60): CMD and STATUS. -/

@[simp] theorem takeCommand_cfg (c : Command) (s : State) : (takeCommand c s).cfg = s.cfg := rfl
@[simp] theorem takeCommand_cmd (c : Command) (s : State) : (takeCommand c s).cmd = c := rfl
@[simp] theorem takeCommand_status (c : Command) (s : State) : (takeCommand c s).status = Status.taken (cmdOp c) := rfl
@[simp] theorem takeCommand_gen (c : Command) (s : State) : (takeCommand c s).gen = s.gen := rfl
@[simp] theorem takeCommand_dataLen (c : Command) (s : State) : (takeCommand c s).dataLen = s.dataLen := rfl
@[simp] theorem takeCommand_tableLen (c : Command) (s : State) : (takeCommand c s).tableLen = s.tableLen := rfl
@[simp] theorem takeCommand_rem (c : Command) (s : State) : (takeCommand c s).rem = s.rem := rfl
@[simp] theorem takeCommand_ngen (c : Command) (s : State) : (takeCommand c s).ngen = s.ngen := rfl
@[simp] theorem takeCommand_nshift (c : Command) (s : State) : (takeCommand c s).nshift = s.nshift := rfl
@[simp] theorem takeCommand_ncarry (c : Command) (s : State) : (takeCommand c s).ncarry = s.ncarry := rfl
@[simp] theorem takeCommand_nmask (c : Command) (s : State) : (takeCommand c s).nmask = s.nmask := rfl
@[simp] theorem takeCommand_data (c : Command) (s : State) : (takeCommand c s).data = s.data := rfl
@[simp] theorem takeCommand_table (c : Command) (s : State) : (takeCommand c s).table = s.table := rfl
@[simp] theorem takeCommand_seq (c : Command) (s : State) : (takeCommand c s).seq = s.seq := rfl
@[simp] theorem takeCommand_pending (c : Command) (s : State) : (takeCommand c s).pending = s.pending := rfl
@[simp] theorem takeCommand_reply (c : Command) (s : State) : (takeCommand c s).reply = s.reply := rfl
@[simp] theorem takeCommand_epoch (c : Command) (s : State) : (takeCommand c s).epoch = s.epoch := rfl
@[simp] theorem takeCommand_draws (c : Command) (s : State) : (takeCommand c s).draws = s.draws := rfl

/-! A write of the TABLE store. -/

@[simp] theorem State.writeTable_cfg (s : State) (i : Nat) (v : BitVec s.cfg.gw) : (s.writeTable i v).cfg = s.cfg := rfl
@[simp] theorem State.writeTable_cmd (s : State) (i : Nat) (v : BitVec s.cfg.gw) : (s.writeTable i v).cmd = s.cmd := rfl
@[simp] theorem State.writeTable_status (s : State) (i : Nat) (v : BitVec s.cfg.gw) : (s.writeTable i v).status = s.status := rfl
@[simp] theorem State.writeTable_gen (s : State) (i : Nat) (v : BitVec s.cfg.gw) : (s.writeTable i v).gen = s.gen := rfl
@[simp] theorem State.writeTable_dataLen (s : State) (i : Nat) (v : BitVec s.cfg.gw) : (s.writeTable i v).dataLen = s.dataLen := rfl
@[simp] theorem State.writeTable_tableLen (s : State) (i : Nat) (v : BitVec s.cfg.gw) : (s.writeTable i v).tableLen = s.tableLen := rfl
@[simp] theorem State.writeTable_rem (s : State) (i : Nat) (v : BitVec s.cfg.gw) : (s.writeTable i v).rem = s.rem := rfl
@[simp] theorem State.writeTable_ngen (s : State) (i : Nat) (v : BitVec s.cfg.gw) : (s.writeTable i v).ngen = s.ngen := rfl
@[simp] theorem State.writeTable_nshift (s : State) (i : Nat) (v : BitVec s.cfg.gw) : (s.writeTable i v).nshift = s.nshift := rfl
@[simp] theorem State.writeTable_ncarry (s : State) (i : Nat) (v : BitVec s.cfg.gw) : (s.writeTable i v).ncarry = s.ncarry := rfl
@[simp] theorem State.writeTable_nmask (s : State) (i : Nat) (v : BitVec s.cfg.gw) : (s.writeTable i v).nmask = s.nmask := rfl
@[simp] theorem State.writeTable_data (s : State) (i : Nat) (v : BitVec s.cfg.gw) : (s.writeTable i v).data = s.data := rfl
@[simp] theorem State.writeTable_table (s : State) (i : Nat) (v : BitVec s.cfg.gw) : (s.writeTable i v).table = s.table.write i v := rfl
@[simp] theorem State.writeTable_seq (s : State) (i : Nat) (v : BitVec s.cfg.gw) : (s.writeTable i v).seq = s.seq := rfl
@[simp] theorem State.writeTable_pending (s : State) (i : Nat) (v : BitVec s.cfg.gw) : (s.writeTable i v).pending = s.pending := rfl
@[simp] theorem State.writeTable_reply (s : State) (i : Nat) (v : BitVec s.cfg.gw) : (s.writeTable i v).reply = s.reply := rfl
@[simp] theorem State.writeTable_epoch (s : State) (i : Nat) (v : BitVec s.cfg.gw) : (s.writeTable i v).epoch = s.epoch := rfl
@[simp] theorem State.writeTable_draws (s : State) (i : Nat) (v : BitVec s.cfg.gw) : (s.writeTable i v).draws = s.draws := rfl

/-! A write of the DATA store. -/

@[simp] theorem State.writeData_cfg (s : State) (i : Nat) (v : BitVec s.cfg.w) : (s.writeData i v).cfg = s.cfg := rfl
@[simp] theorem State.writeData_cmd (s : State) (i : Nat) (v : BitVec s.cfg.w) : (s.writeData i v).cmd = s.cmd := rfl
@[simp] theorem State.writeData_status (s : State) (i : Nat) (v : BitVec s.cfg.w) : (s.writeData i v).status = s.status := rfl
@[simp] theorem State.writeData_gen (s : State) (i : Nat) (v : BitVec s.cfg.w) : (s.writeData i v).gen = s.gen := rfl
@[simp] theorem State.writeData_dataLen (s : State) (i : Nat) (v : BitVec s.cfg.w) : (s.writeData i v).dataLen = s.dataLen := rfl
@[simp] theorem State.writeData_tableLen (s : State) (i : Nat) (v : BitVec s.cfg.w) : (s.writeData i v).tableLen = s.tableLen := rfl
@[simp] theorem State.writeData_rem (s : State) (i : Nat) (v : BitVec s.cfg.w) : (s.writeData i v).rem = s.rem := rfl
@[simp] theorem State.writeData_ngen (s : State) (i : Nat) (v : BitVec s.cfg.w) : (s.writeData i v).ngen = s.ngen := rfl
@[simp] theorem State.writeData_nshift (s : State) (i : Nat) (v : BitVec s.cfg.w) : (s.writeData i v).nshift = s.nshift := rfl
@[simp] theorem State.writeData_ncarry (s : State) (i : Nat) (v : BitVec s.cfg.w) : (s.writeData i v).ncarry = s.ncarry := rfl
@[simp] theorem State.writeData_nmask (s : State) (i : Nat) (v : BitVec s.cfg.w) : (s.writeData i v).nmask = s.nmask := rfl
@[simp] theorem State.writeData_data (s : State) (i : Nat) (v : BitVec s.cfg.w) : (s.writeData i v).data = s.data.write i v := rfl
@[simp] theorem State.writeData_table (s : State) (i : Nat) (v : BitVec s.cfg.w) : (s.writeData i v).table = s.table := rfl
@[simp] theorem State.writeData_seq (s : State) (i : Nat) (v : BitVec s.cfg.w) : (s.writeData i v).seq = s.seq := rfl
@[simp] theorem State.writeData_pending (s : State) (i : Nat) (v : BitVec s.cfg.w) : (s.writeData i v).pending = s.pending := rfl
@[simp] theorem State.writeData_reply (s : State) (i : Nat) (v : BitVec s.cfg.w) : (s.writeData i v).reply = s.reply := rfl
@[simp] theorem State.writeData_epoch (s : State) (i : Nat) (v : BitVec s.cfg.w) : (s.writeData i v).epoch = s.epoch := rfl
@[simp] theorem State.writeData_draws (s : State) (i : Nat) (v : BitVec s.cfg.w) : (s.writeData i v).draws = s.draws := rfl

/-! The sequencer moves within an operation: seq. -/

@[simp] theorem State.enterRun_cfg (s : State) (op : Op) (i j t : Nat) (wk : Work s.cfg.gw s.cfg.w) : (s.enterRun op i j t wk).cfg = s.cfg := rfl
@[simp] theorem State.enterRun_cmd (s : State) (op : Op) (i j t : Nat) (wk : Work s.cfg.gw s.cfg.w) : (s.enterRun op i j t wk).cmd = s.cmd := rfl
@[simp] theorem State.enterRun_status (s : State) (op : Op) (i j t : Nat) (wk : Work s.cfg.gw s.cfg.w) : (s.enterRun op i j t wk).status = s.status := rfl
@[simp] theorem State.enterRun_gen (s : State) (op : Op) (i j t : Nat) (wk : Work s.cfg.gw s.cfg.w) : (s.enterRun op i j t wk).gen = s.gen := rfl
@[simp] theorem State.enterRun_dataLen (s : State) (op : Op) (i j t : Nat) (wk : Work s.cfg.gw s.cfg.w) : (s.enterRun op i j t wk).dataLen = s.dataLen := rfl
@[simp] theorem State.enterRun_tableLen (s : State) (op : Op) (i j t : Nat) (wk : Work s.cfg.gw s.cfg.w) : (s.enterRun op i j t wk).tableLen = s.tableLen := rfl
@[simp] theorem State.enterRun_rem (s : State) (op : Op) (i j t : Nat) (wk : Work s.cfg.gw s.cfg.w) : (s.enterRun op i j t wk).rem = s.rem := rfl
@[simp] theorem State.enterRun_ngen (s : State) (op : Op) (i j t : Nat) (wk : Work s.cfg.gw s.cfg.w) : (s.enterRun op i j t wk).ngen = s.ngen := rfl
@[simp] theorem State.enterRun_nshift (s : State) (op : Op) (i j t : Nat) (wk : Work s.cfg.gw s.cfg.w) : (s.enterRun op i j t wk).nshift = s.nshift := rfl
@[simp] theorem State.enterRun_ncarry (s : State) (op : Op) (i j t : Nat) (wk : Work s.cfg.gw s.cfg.w) : (s.enterRun op i j t wk).ncarry = s.ncarry := rfl
@[simp] theorem State.enterRun_nmask (s : State) (op : Op) (i j t : Nat) (wk : Work s.cfg.gw s.cfg.w) : (s.enterRun op i j t wk).nmask = s.nmask := rfl
@[simp] theorem State.enterRun_data (s : State) (op : Op) (i j t : Nat) (wk : Work s.cfg.gw s.cfg.w) : (s.enterRun op i j t wk).data = s.data := rfl
@[simp] theorem State.enterRun_table (s : State) (op : Op) (i j t : Nat) (wk : Work s.cfg.gw s.cfg.w) : (s.enterRun op i j t wk).table = s.table := rfl
@[simp] theorem State.enterRun_seq (s : State) (op : Op) (i j t : Nat) (wk : Work s.cfg.gw s.cfg.w) : (s.enterRun op i j t wk).seq = .run op i j t wk := rfl
@[simp] theorem State.enterRun_pending (s : State) (op : Op) (i j t : Nat) (wk : Work s.cfg.gw s.cfg.w) : (s.enterRun op i j t wk).pending = s.pending := rfl
@[simp] theorem State.enterRun_reply (s : State) (op : Op) (i j t : Nat) (wk : Work s.cfg.gw s.cfg.w) : (s.enterRun op i j t wk).reply = s.reply := rfl
@[simp] theorem State.enterRun_epoch (s : State) (op : Op) (i j t : Nat) (wk : Work s.cfg.gw s.cfg.w) : (s.enterRun op i j t wk).epoch = s.epoch := rfl
@[simp] theorem State.enterRun_draws (s : State) (op : Op) (i j t : Nat) (wk : Work s.cfg.gw s.cfg.w) : (s.enterRun op i j t wk).draws = s.draws := rfl

/-! NORM's four writes (40_normalizer.md R68). -/

@[simp] theorem writeNormalized_cfg (s : State) (p : Params s.cfg.gw) : (writeNormalized s p).cfg = s.cfg := rfl
@[simp] theorem writeNormalized_cmd (s : State) (p : Params s.cfg.gw) : (writeNormalized s p).cmd = s.cmd := rfl
@[simp] theorem writeNormalized_status (s : State) (p : Params s.cfg.gw) : (writeNormalized s p).status = s.status := rfl
@[simp] theorem writeNormalized_gen (s : State) (p : Params s.cfg.gw) : (writeNormalized s p).gen = s.gen := rfl
@[simp] theorem writeNormalized_dataLen (s : State) (p : Params s.cfg.gw) : (writeNormalized s p).dataLen = s.dataLen := rfl
@[simp] theorem writeNormalized_tableLen (s : State) (p : Params s.cfg.gw) : (writeNormalized s p).tableLen = s.tableLen := rfl
@[simp] theorem writeNormalized_rem (s : State) (p : Params s.cfg.gw) : (writeNormalized s p).rem = s.rem := rfl
@[simp] theorem writeNormalized_ngen (s : State) (p : Params s.cfg.gw) : (writeNormalized s p).ngen = p.g := rfl
@[simp] theorem writeNormalized_nshift (s : State) (p : Params s.cfg.gw) : (writeNormalized s p).nshift = BitVec.ofNat 8 p.shift := rfl
@[simp] theorem writeNormalized_ncarry (s : State) (p : Params s.cfg.gw) : (writeNormalized s p).ncarry = p.carry := rfl
@[simp] theorem writeNormalized_nmask (s : State) (p : Params s.cfg.gw) : (writeNormalized s p).nmask = p.mask := rfl
@[simp] theorem writeNormalized_data (s : State) (p : Params s.cfg.gw) : (writeNormalized s p).data = s.data := rfl
@[simp] theorem writeNormalized_table (s : State) (p : Params s.cfg.gw) : (writeNormalized s p).table = s.table := rfl
@[simp] theorem writeNormalized_seq (s : State) (p : Params s.cfg.gw) : (writeNormalized s p).seq = s.seq := rfl
@[simp] theorem writeNormalized_pending (s : State) (p : Params s.cfg.gw) : (writeNormalized s p).pending = s.pending := rfl
@[simp] theorem writeNormalized_reply (s : State) (p : Params s.cfg.gw) : (writeNormalized s p).reply = s.reply := rfl
@[simp] theorem writeNormalized_epoch (s : State) (p : Params s.cfg.gw) : (writeNormalized s p).epoch = s.epoch := rfl
@[simp] theorem writeNormalized_draws (s : State) (p : Params s.cfg.gw) : (writeNormalized s p).draws = s.draws := rfl

/-! A host read: the reply only (10_state.md R30). -/

@[simp] theorem answer_cfg (v : Nat) (s : State) : (answer v s).cfg = s.cfg := rfl
@[simp] theorem answer_cmd (v : Nat) (s : State) : (answer v s).cmd = s.cmd := rfl
@[simp] theorem answer_status (v : Nat) (s : State) : (answer v s).status = s.status := rfl
@[simp] theorem answer_gen (v : Nat) (s : State) : (answer v s).gen = s.gen := rfl
@[simp] theorem answer_dataLen (v : Nat) (s : State) : (answer v s).dataLen = s.dataLen := rfl
@[simp] theorem answer_tableLen (v : Nat) (s : State) : (answer v s).tableLen = s.tableLen := rfl
@[simp] theorem answer_rem (v : Nat) (s : State) : (answer v s).rem = s.rem := rfl
@[simp] theorem answer_ngen (v : Nat) (s : State) : (answer v s).ngen = s.ngen := rfl
@[simp] theorem answer_nshift (v : Nat) (s : State) : (answer v s).nshift = s.nshift := rfl
@[simp] theorem answer_ncarry (v : Nat) (s : State) : (answer v s).ncarry = s.ncarry := rfl
@[simp] theorem answer_nmask (v : Nat) (s : State) : (answer v s).nmask = s.nmask := rfl
@[simp] theorem answer_data (v : Nat) (s : State) : (answer v s).data = s.data := rfl
@[simp] theorem answer_table (v : Nat) (s : State) : (answer v s).table = s.table := rfl
@[simp] theorem answer_seq (v : Nat) (s : State) : (answer v s).seq = s.seq := rfl
@[simp] theorem answer_pending (v : Nat) (s : State) : (answer v s).pending = s.pending := rfl
@[simp] theorem answer_reply (v : Nat) (s : State) : (answer v s).reply = some v := rfl
@[simp] theorem answer_epoch (v : Nat) (s : State) : (answer v s).epoch = s.epoch := rfl
@[simp] theorem answer_draws (v : Nat) (s : State) : (answer v s).draws = s.draws := rfl

end Sys2Proof.Machine
end

