-- ==== Sys2Proof/Laws/Ops.lean ====
section
/-! SUPPORT. The laws of the named operations: operators and loops, the stores (read after write, canonical form), the
registers, the bit step. Each says once what its operation does; later proofs cite these. -/

namespace Sys2Proof.Machine

/-! ### Operators and loops (00_scope.md R10, R11) -/

@[simp] theorem toNat_shl {n : Nat} (v : BitVec n) (k : Nat) : (shl v k).toNat = v.toNat * 2 ^ k % 2 ^ n := by
  simp [shl, Nat.shiftLeft_eq]

@[simp] theorem toNat_shr {n : Nat} (v : BitVec n) (k : Nat) : (shr v k).toNat = v.toNat / 2 ^ k := by
  simp [shr, Nat.shiftRight_eq_div_pow]

@[simp] theorem getLsbD_shl {n : Nat} (v : BitVec n) (k i : Nat) :
    (shl v k).getLsbD i = (decide (i < n) && !decide (i < k) && v.getLsbD (i - k)) := by
  simp [shl]

@[simp] theorem getLsbD_shr {n : Nat} (v : BitVec n) (k i : Nat) : (shr v k).getLsbD i = v.getLsbD (k + i) := by
  simp [shr]

/-- A shift by the width or more gives 0 (R10; 93 U24). -/
theorem shl_of_width_le {n : Nat} (v : BitVec n) {k : Nat} (h : n ≤ k) : shl v k = 0#n := by
  apply BitVec.eq_of_getLsbD_eq
  intro i hi
  have : i < k := by omega
  simp [this]

@[simp] theorem loopUpTo_zero {α : Type} (f : Nat → α → α) (a : α) : loopUpTo 0 f a = a := rfl

@[simp] theorem loopUpTo_succ {α : Type} (n : Nat) (f : Nat → α → α) (a : α) :
    loopUpTo (n + 1) f a = f n (loopUpTo n f a) := rfl

/-- A counted loop is a fold over the indices in ascending order. -/
theorem loopUpTo_eq_foldl {α : Type} (n : Nat) (f : Nat → α → α) (a : α) :
    loopUpTo n f a = (List.range n).foldl (fun x i => f i x) a := by
  induction n with
  | zero => rfl
  | succ n ih => simp [List.range_succ, ih]

/-- Two loops whose bodies agree on the indices they visit agree. -/
theorem loopUpTo_congr {α : Type} {n : Nat} {f g : Nat → α → α} (a : α) (h : ∀ i, i < n → ∀ x, f i x = g i x) :
    loopUpTo n f a = loopUpTo n g a := by
  induction n with
  | zero => rfl
  | succ n ih =>
    rw [loopUpTo_succ, loopUpTo_succ, ih (fun i hi => h i (by omega)), h n (by omega)]

/-- What every turn keeps, the loop keeps. -/
theorem loopUpTo_induct {α : Type} (P : α → Prop) {n : Nat} {f : Nat → α → α} {a : α} (h0 : P a)
    (hs : ∀ i, i < n → ∀ x, P x → P (f i x)) : P (loopUpTo n f a) := by
  induction n with
  | zero => exact h0
  | succ n ih => exact hs n (by omega) _ (ih fun i hi => hs i (by omega))

theorem repeatTimes_eq_iterate {α : Type} (n : Nat) (f : α → α) (a : α) : repeatTimes n f a = f^[n] a := by
  induction n with
  | zero => rfl
  | succ n ih => rw [repeatTimes, ih, Function.iterate_succ_apply']

/-- `ispow2(n)` (R10). -/
theorem isPow2_iff (n : Nat) : isPow2 n = true ↔ ∃ k, n = 2 ^ k := by
  constructor
  · intro h
    simp only [isPow2, Bool.and_eq_true, beq_iff_eq] at h
    exact ⟨_, h.2.symm⟩
  · rintro ⟨k, rfl⟩
    simp [isPow2]

/-! ### The stores (20_memory.md R35 to R38) -/

@[simp] theorem Memory.find_nil {n : Nat} (i : Nat) : Memory.find ([] : Memory n) i = none := rfl

theorem Memory.find_cons {n : Nat} (k : Nat) (v : BitVec n) (m : Memory n) (i : Nat) :
    Memory.find ((k, v) :: m) i = if k = i then some v else Memory.find m i := rfl

/-- Every index below the ones a store lists reads as unlisted. -/
theorem Memory.find_eq_none_of_lt {n : Nat} {m : Memory n} {i : Nat} (h : ∀ e ∈ m, i < e.1) : m.find i = none := by
  induction m with
  | nil => rfl
  | cons e m ih =>
    obtain ⟨k, v⟩ := e
    have hk := h (k, v) (by simp)
    rw [find_cons, if_neg (by simp at hk; omega), ih fun e he => h e (by simp [he])]

/-- A read after a write to the same index gives the value written. -/
@[simp] theorem Memory.find_write_same {n : Nat} (m : Memory n) (i : Nat) (v : BitVec n) :
    (m.write i v).find i = some v := by
  induction m with
  | nil => simp [write, find_cons]
  | cons e m ih =>
    obtain ⟨k, u⟩ := e
    unfold write
    split
    · simp [find_cons]
    · split
      · simp [find_cons]
      · rw [find_cons, if_neg (by omega), ih]

/-- A write leaves every other index alone. -/
theorem Memory.find_write_other {n : Nat} (m : Memory n) {i j : Nat} (v : BitVec n) (h : j ≠ i) :
    (m.write i v).find j = m.find j := by
  induction m with
  | nil => simp [write, find_cons, h.symm]
  | cons e m ih =>
    obtain ⟨k, u⟩ := e
    unfold write
    split
    · rw [find_cons, if_neg h.symm]
    · split
      · rename_i hki; subst hki
        rw [find_cons, if_neg h.symm, find_cons, if_neg h.symm]
      · rw [find_cons, find_cons, ih]

/-- A write lists the index written and what was listed before. -/
theorem Memory.mem_write {n : Nat} {m : Memory n} {i : Nat} {v : BitVec n} {e : Nat × BitVec n}
    (h : e ∈ m.write i v) : e = (i, v) ∨ e ∈ m := by
  induction m with
  | nil => simpa [write] using h
  | cons d m ih =>
    obtain ⟨k, u⟩ := d
    unfold write at h
    split at h
    · simpa using h
    · split at h
      · simp only [List.mem_cons] at h ⊢
        tauto
      · simp only [List.mem_cons] at h ⊢
        rcases h with h | h
        · exact Or.inr (Or.inl h)
        · rcases ih h with h | h
          · exact Or.inl h
          · exact Or.inr (Or.inr h)

/-- The empty store is in canonical form. -/
theorem Memory.wf_nil {n : Nat} : Memory.wf ([] : Memory n) := List.Pairwise.nil

/-- A write keeps the canonical form. -/
theorem Memory.wf_write {n : Nat} {m : Memory n} (i : Nat) (v : BitVec n) (h : m.wf) : (m.write i v).wf := by
  induction m with
  | nil => simp [write, wf]
  | cons d m ih =>
    obtain ⟨k, u⟩ := d
    unfold wf at h ih ⊢
    rw [List.pairwise_cons] at h
    unfold write
    split
    · rename_i hlt
      rw [List.pairwise_cons, List.pairwise_cons]
      refine ⟨fun e he => ?_, h⟩
      rcases List.mem_cons.1 he with rfl | he
      · exact hlt
      · exact lt_trans hlt (h.1 e he)
    · split
      · rename_i _ hik; subst hik
        rw [List.pairwise_cons]; exact h
      · rename_i h1 h2
        rw [List.pairwise_cons]
        refine ⟨fun e he => ?_, ih h.2⟩
        rcases mem_write he with rfl | he
        · simp only; omega
        · exact h.1 e he

/-- In canonical form a store is determined by what its indices read as: equal memories are equal data. -/
theorem Memory.eq_of_find_eq {n : Nat} {m m' : Memory n} (h : m.wf) (h' : m'.wf) (hf : ∀ i, m.find i = m'.find i) :
    m = m' := by
  induction m generalizing m' with
  | nil =>
    cases m' with
    | nil => rfl
    | cons e m' => obtain ⟨l, v⟩ := e; have := hf l; simp [find_cons] at this
  | cons d m ih =>
    obtain ⟨k, u⟩ := d
    unfold wf at h h'
    rw [List.pairwise_cons] at h
    cases m' with
    | nil => have := hf k; simp [find_cons] at this
    | cons e m' =>
      obtain ⟨l, v⟩ := e
      rw [List.pairwise_cons] at h'
      have hk : k = l := by
        rcases Nat.lt_trichotomy k l with hlt | heq | hgt
        · have := hf k
          rw [find_cons, if_pos rfl, find_eq_none_of_lt] at this
          · simp at this
          · intro e he
            rcases List.mem_cons.1 he with rfl | he
            · exact hlt
            · exact lt_trans hlt (h'.1 e he)
        · exact heq
        · have := hf l
          rw [find_cons (k := l), if_pos rfl, find_eq_none_of_lt] at this
          · simp at this
          · intro e he
            rcases List.mem_cons.1 he with rfl | he
            · exact hgt
            · exact lt_trans hgt (h.1 e he)
      subst hk
      have huv : u = v := by have := hf k; simpa [find_cons] using this
      subst huv
      congr 1
      refine ih h.2 h'.2 fun i => ?_
      by_cases hik : k = i
      · subst hik
        rw [find_eq_none_of_lt h.1, find_eq_none_of_lt h'.1]
      · have := hf i
        simpa [find_cons, hik] using this

@[simp] theorem dataAt_writeData_same (s : State) (i : Nat) (v : BitVec s.cfg.w) :
    (s.writeData i v).dataAt i = v := by
  simp [State.dataAt]

theorem dataAt_writeData_other (s : State) {i j : Nat} (v : BitVec s.cfg.w) (h : j ≠ i) :
    (s.writeData i v).dataAt j = s.dataAt j := by
  simp [State.dataAt, Memory.find_write_other _ _ h]

@[simp] theorem tableAt_writeTable_same (s : State) (i : Nat) (v : BitVec s.cfg.gw) :
    (s.writeTable i v).tableAt i = v := by
  simp [State.tableAt]

theorem tableAt_writeTable_other (s : State) {i j : Nat} (v : BitVec s.cfg.gw) (h : j ≠ i) :
    (s.writeTable i v).tableAt j = s.tableAt j := by
  simp [State.tableAt, Memory.find_write_other _ _ h]

/-! ### MKTBL's writes (42_table_builder.md R82, R84) -/

/-- An index below 2^table_size holds its entry after the build. -/
theorem find_buildTable_of_lt {gw : Nat} (p : Params gw) (T : Nat) (m : Memory gw) {i : Nat} (h : i < 2 ^ T) :
    (buildTable p T m).find i = some (tableEntry p T i) := by
  unfold buildTable
  generalize 2 ^ T = n at h
  induction n with
  | zero => omega
  | succ n ih =>
    rw [loopUpTo_succ]
    by_cases hi : i = n
    · subst hi; simp
    · rw [Memory.find_write_other _ _ hi, ih (by omega)]

/-- An index from 2^table_size on keeps what it held. -/
theorem find_buildTable_of_le {gw : Nat} (p : Params gw) (T : Nat) (m : Memory gw) {i : Nat} (h : 2 ^ T ≤ i) :
    (buildTable p T m).find i = m.find i := by
  unfold buildTable
  generalize 2 ^ T = n at h
  induction n with
  | zero => rfl
  | succ n ih => rw [loopUpTo_succ, Memory.find_write_other _ _ (by omega), ih (by omega)]

/-- The build keeps the canonical form. -/
theorem wf_buildTable {gw : Nat} (p : Params gw) (T : Nat) {m : Memory gw} (h : m.wf) : (buildTable p T m).wf :=
  loopUpTo_induct (fun m : Memory gw => m.wf) h fun _ _ _ hx => Memory.wf_write _ _ hx

/-- The build lists no index but those of the table and those listed before. -/
theorem mem_buildTable {gw : Nat} {p : Params gw} {T : Nat} {m : Memory gw} {e : Nat × BitVec gw}
    (h : e ∈ buildTable p T m) : e.1 < 2 ^ T ∨ e ∈ m := by
  revert h
  refine loopUpTo_induct (fun x : Memory gw => e ∈ x → e.1 < 2 ^ T ∨ e ∈ m) Or.inr fun i hi x hx he => ?_
  rcases Memory.mem_write he with rfl | he
  · exact Or.inl hi
  · exact hx he

/-! ### The bit step (41_reference_divider.md R72) -/

/-- The step by its tested bit. -/
theorem bitStep_eq {gw : Nat} (g carry r : BitVec gw) :
    bitStep g carry r = if r &&& carry = 0#gw then r <<< 1 else (r <<< 1) ^^^ g := by
  unfold bitStep shl
  by_cases h : r &&& carry = 0#gw <;> simp [h]

/-! ### The registers (10_state.md R14) -/

/-- The register map: numbers 0 to 9 and no others. -/
theorem Reg.ofNumber_eq_none_iff (n : Nat) : Reg.ofNumber n = none ↔ 9 < n := by
  constructor
  · intro h
    by_contra hn
    have : n ≤ 9 := by omega
    interval_cases n <;> simp [Reg.ofNumber] at h
  · intro h
    match n, h with
    | n + 10, _ => rfl

@[simp] theorem Reg.ofNumber_number (r : Reg) : Reg.ofNumber r.number = some r := by cases r <;> rfl

theorem Reg.number_of_ofNumber {n : Nat} {r : Reg} (h : Reg.ofNumber n = some r) : r.number = n := by
  have hn : n ≤ 9 := by
    by_contra hc
    rw [(Reg.ofNumber_eq_none_iff n).2 (by omega)] at h
    cases h
  interval_cases n <;> (simp [Reg.ofNumber] at h; subst h; rfl)

end Sys2Proof.Machine
end

