-- ==== Sys2Proof/Laws/Exec.lean ====
section
/-! SUPPORT. What the checks and the meanings can do, said once: the normalizer's outcome, one lemma per outcome of each
meaning, and the inversion of `exec` ("if it answers next t, then one of these holds"). -/

namespace Sys2Proof.Machine

/-- `normalize` passes exactly on 1 <= degree <= GW and chunk <= degree, with the 4-tuple of 40_normalizer.md R65. -/
theorem normalize_passes_iff {gw : Nat} {d c : Nat} {gen : BitVec gw} {p : Params gw} :
    normalize d gen c = .passes p ↔
      (1 ≤ d ∧ d ≤ gw ∧ c ≤ d) ∧
        p = { g := gen &&& maskOf gw d, shift := d - c, carry := carryOf gw d, mask := maskOf gw d } := by
  unfold normalize
  split
  · simp; omega
  · split
    · simp; omega
    · split
      · simp; omega
      · simp only [Checked.passes.injEq]
        constructor
        · intro h; exact ⟨by omega, h.symm⟩
        · intro h; exact h.2.symm

/-- The table width read back from a length that is a power of two of at least 2 (44_small_table_divider.md R96). -/
theorem tableWidth_two_pow {B : Nat} (h : 1 ≤ B) : tableWidth (2 ^ B) = .passes B := by
  have hp : isPow2 (2 ^ B) = true := (isPow2_iff _).2 ⟨B, rfl⟩
  simp [tableWidth, hp]
  omega

theorem tableWidth_passes {n B : Nat} (h : tableWidth n = .passes B) : n = 2 ^ B ∧ 1 ≤ B := by
  unfold tableWidth at h
  split at h
  · cases h
  · rename_i hc
    simp only [Bool.or_eq_true, Bool.not_eq_true', beq_iff_eq, not_or, Bool.not_eq_false] at hc
    obtain ⟨k, rfl⟩ := (isPow2_iff n).1 hc.1
    simp only [Nat.log2_two_pow, Checked.passes.injEq] at h
    subst h
    refine ⟨rfl, Nat.one_le_iff_ne_zero.2 ?_⟩
    rintro rfl
    exact hc.2 rfl

/-- Checks in sequence pass exactly when both pass. -/
theorem Checked.andThen_passes_iff {α β : Type} {c : Checked α} {f : α → Checked β} {b : β} :
    c.andThen f = .passes b ↔ ∃ a, c = .passes a ∧ f a = .passes b := by
  cases c <;> simp [Checked.andThen]

section Meanings

variable {s : State} {d n : Nat} {f : Failure}

theorem execNorm_fails (h : normChecks s d n = .fails f) : execNorm d n s = .next (raise f s) := by
  unfold execNorm; rw [h]

theorem execNorm_passes {p : Params s.cfg.gw} (h : normChecks s d n = .passes p) :
    execNorm d n s = .next (finish (writeNormalized s p)) := by
  unfold execNorm; rw [h]

theorem execDivref_fails (h : divrefChecks s d = .fails f) : execDivref d s = .next (raise f s) := by
  unfold execDivref; rw [h]

theorem execDivref_passes {p : Params s.cfg.gw} (h : divrefChecks s d = .passes p) :
    execDivref d s = .next (finish { s with rem := divrefLoop p s.dataAt s.dataLen.toNat &&& p.mask }) := by
  unfold execDivref; rw [h]

theorem execMktbl_fails (h : mktblChecks s d n = .fails f) : execMktbl d n s = .next (raise f s) := by
  unfold execMktbl; rw [h]

theorem execMktbl_passes {p : Params s.cfg.gw} (h : mktblChecks s d n = .passes p) :
    execMktbl d n s =
      .next (finish { s with table := buildTable p n s.table, tableLen := BitVec.ofNat 33 (2 ^ n) }) := by
  unfold execMktbl; rw [h]

theorem execDivword_fails (h : divwordChecks s d = .fails f) : execDivword d s = .next (raise f s) := by
  unfold execDivword; rw [h]

theorem execDivword_passes {p : Params s.cfg.gw} (h : divwordChecks s d = .passes p) :
    execDivword d s = .next (finish { s with rem := divwordLoop p s.tableAt s.dataAt s.dataLen.toNat }) := by
  unfold execDivword; rw [h]

theorem execDivsub_fails (h : divsubChecks s d = .fails f) : execDivsub d s = .next (raise f s) := by
  unfold execDivsub; rw [h]

theorem execDivsub_passes {B : Nat} {p : Params s.cfg.gw} (h : divsubChecks s d = .passes (B, p)) :
    execDivsub d s =
      .next (finish { s with rem := divsubLoop p B (d - B) s.tableAt s.dataAt s.dataLen.toNat }) := by
  unfold execDivsub; rw [h]

theorem execDivmulti_fails (h : divmultiChecks s d = .fails f) : execDivmulti d s = .next (raise f s) := by
  unfold execDivmulti; rw [h]

theorem execDivmulti_passes {B : Nat} {p : Params s.cfg.gw} (h : divmultiChecks s d = .passes (B, p)) :
    execDivmulti d s = .next (finish { s with
      rem := divmultiLoop d (B / s.cfg.w) p.mask s.tableAt s.dataAt s.dataLen.toNat s.dataLen.toNat 0
        0#s.cfg.gw }) := by
  unfold execDivmulti; rw [h]

end Meanings

/-- MKTBL's checks pass only for a size of at most 32 (42_table_builder.md R81). -/
theorem mktblChecks_passes_size {s : State} {d n : Nat} {p : Params s.cfg.gw}
    (h : mktblChecks s d n = .passes p) : n ≤ 32 := by
  unfold mktblChecks at h
  split at h
  · cases h
  · omega

/-- All that an operation can do: fail, or write what 10_state.md R27 lists for it. -/
theorem exec_cases {i : Instr} {s t : State} (h : exec i s = .next t) :
    (∃ f, t = raise f s) ∨
      (∃ d c p, i = .norm d c ∧ t = finish (writeNormalized s p)) ∨
      (∃ d n p, i = .mktbl d n ∧ n ≤ 32 ∧
        t = finish { s with table := buildTable p n s.table, tableLen := BitVec.ofNat 33 (2 ^ n) }) ∨
      ((∃ d, i = .divref d ∨ i = .divword d ∨ i = .divsub d ∨ i = .divmulti d) ∧
        ∃ v, t = finish { s with rem := v }) := by
  cases i with
  | norm d c =>
    rcases hc : normChecks s d c with f | p
    · rw [exec, execNorm_fails hc] at h; cases h; exact .inl ⟨f, rfl⟩
    · rw [exec, execNorm_passes hc] at h; cases h; exact .inr (.inl ⟨d, c, p, rfl, rfl⟩)
  | divref d =>
    rcases hc : divrefChecks s d with f | p
    · rw [exec, execDivref_fails hc] at h; cases h; exact .inl ⟨f, rfl⟩
    · rw [exec, execDivref_passes hc] at h; cases h
      exact .inr (.inr (.inr ⟨⟨d, .inl rfl⟩, _, rfl⟩))
  | mktbl d n =>
    rcases hc : mktblChecks s d n with f | p
    · rw [exec, execMktbl_fails hc] at h; cases h; exact .inl ⟨f, rfl⟩
    · rw [exec, execMktbl_passes hc] at h; cases h
      exact .inr (.inr (.inl ⟨d, n, p, rfl, mktblChecks_passes_size hc, rfl⟩))
  | divword d =>
    rcases hc : divwordChecks s d with f | p
    · rw [exec, execDivword_fails hc] at h; cases h; exact .inl ⟨f, rfl⟩
    · rw [exec, execDivword_passes hc] at h; cases h
      exact .inr (.inr (.inr ⟨⟨d, .inr (.inl rfl)⟩, _, rfl⟩))
  | divsub d =>
    rcases hc : divsubChecks s d with f | ⟨B, p⟩
    · rw [exec, execDivsub_fails hc] at h; cases h; exact .inl ⟨f, rfl⟩
    · rw [exec, execDivsub_passes hc] at h; cases h
      exact .inr (.inr (.inr ⟨⟨d, .inr (.inr (.inl rfl))⟩, _, rfl⟩))
  | divmulti d =>
    rcases hc : divmultiChecks s d with f | ⟨B, p⟩
    · rw [exec, execDivmulti_fails hc] at h; cases h; exact .inl ⟨f, rfl⟩
    · rw [exec, execDivmulti_passes hc] at h; cases h
      exact .inr (.inr (.inr ⟨⟨d, .inr (.inr (.inr rfl))⟩, _, rfl⟩))

end Sys2Proof.Machine
end

