-- ==== Sys2Proof/Laws/PerInstr.lean ====
section
/-! SUPPORT. Statements made for every constructor of Instr. Family EncodedFields: the word of a well-formed command has
the operation's OP field and its reserved fields are 0 (30_encoding.md R51, R52, R57). -/

namespace Sys2Proof.Laws.EncodedFields

/-- The word of a well-formed command carries its opcode, its operands, and 0 in both reserved fields. -/
def Statement (i : Instr) : Prop :=
  i.wf = true →
    cmdOp (encode i) = i.op.code ∧ cmdRsv0 (encode i) = 0#5 ∧ cmdRsv1 (encode i) = 0#8 ∧
      cmdDegree (encode i) = BitVec.ofNat 8 i.degree ∧ cmdSize (encode i) = BitVec.ofNat 8 i.size

/-- Bits of the fields, from bits of the word `(size << 16) or (degree << 8) or OP`. -/
theorem fields_of_word (size degree : Nat) (op : BitVec 3) (hs : size < 256) (hd : degree < 256) :
    let c : Command := (BitVec.ofNat 32 size <<< 16) ||| (BitVec.ofNat 32 degree <<< 8) ||| op.setWidth 32
    cmdOp c = op ∧ cmdRsv0 c = 0#5 ∧ cmdRsv1 c = 0#8 ∧ cmdDegree c = BitVec.ofNat 8 degree ∧
      cmdSize c = BitVec.ofNat 8 size := by
  have bitS : ∀ k, 8 ≤ k → size.testBit k = false := fun k hk =>
    Nat.testBit_lt_two_pow (lt_of_lt_of_le hs (Nat.pow_le_pow_right (by norm_num) hk : 2 ^ 8 ≤ 2 ^ k))
  have bitD : ∀ k, 8 ≤ k → degree.testBit k = false := fun k hk =>
    Nat.testBit_lt_two_pow (lt_of_lt_of_le hd (Nat.pow_le_pow_right (by norm_num) hk : 2 ^ 8 ≤ 2 ^ k))
  refine ⟨?_, ?_, ?_, ?_, ?_⟩ <;>
    (apply BitVec.eq_of_getLsbD_eq
     intro j hj
     interval_cases j <;>
       simp [cmdOp, cmdRsv0, cmdRsv1, cmdDegree, cmdSize, bitS, bitD, -BitVec.getLsbD_eq_getElem,
         BitVec.getLsbD_ofNat])

/-- The bounds that well-formedness gives. -/
theorem bounds {i : Instr} (h : i.wf = true) : i.size < 256 ∧ i.degree < 256 := by
  simp only [Instr.wf, Instr.degreeFits, Instr.sizeFits, Bool.and_eq_true, decide_eq_true_eq] at h
  exact ⟨h.2, h.1⟩

theorem all (i : Instr) : Statement i := fun h => fields_of_word i.size i.degree i.op.code (bounds h).1 (bounds h).2

theorem norm (degree chunkSize : Nat) : Statement (.norm degree chunkSize) := all _

theorem divref (degree : Nat) : Statement (.divref degree) := all _

theorem mktbl (degree tableSize : Nat) : Statement (.mktbl degree tableSize) := all _

theorem divword (degree : Nat) : Statement (.divword degree) := all _

theorem divsub (degree : Nat) : Statement (.divsub degree) := all _

theorem divmulti (degree : Nat) : Statement (.divmulti degree) := all _

end Sys2Proof.Laws.EncodedFields
end

