-- ==== Sys2Proof/Laws/SourceCalls.lean ====
section
/-! SUPPORT. When the wrapper of a source call reports a failure by itself, and what a call does otherwise
(30_encoding.md R53, R63; log entry 15). -/

namespace Sys2Proof.Machine

/-- The wrapper lets a call through exactly when its command's fields fit. -/
theorem SourceCall.wrapperFailure_eq_none_iff (c : SourceCall) : c.wrapperFailure = none ↔ c.command.wf = true := by
  unfold SourceCall.wrapperFailure Instr.wf
  cases c.command.degreeFits <;> cases c.command.sizeFits <;> simp

/-- A degree that the field cannot hold is reported first (R53). -/
theorem SourceCall.wrapperFailure_of_degree {c : SourceCall} (h : c.command.degreeFits = false) :
    c.wrapperFailure = some .degreeAboveGw := by
  simp [SourceCall.wrapperFailure, h]

/-- The host actions of a call that fits. -/
theorem SourceCall.events_of_wf {c : SourceCall} (h : c.command.wf = true) :
    c.events = c.operands ++ [hostCommand c.command] := by
  simp [SourceCall.events, (c.wrapperFailure_eq_none_iff).2 h]

/-- The result of a call that fits. -/
theorem SourceCall.result_of_wf {c : SourceCall} (h : c.command.wf = true) (s : State) : c.result s = c.statusResult s := by
  simp [SourceCall.result, (c.wrapperFailure_eq_none_iff).2 h]

end Sys2Proof.Machine
end

