-- ==== Sys2Proof/Machine/Assembler.lean ====
section
/-! DEFINITION. The textual form of commands and of the host's other actions (30_encoding.md R61, R62), read from a list of
characters: one line to the events it stands for. -/

namespace Sys2Proof.Machine

/-- The pieces of a line: a name, a number, `,`, `[`, `]`. -/
inductive Token where
  | name (cs : List Char)
  | number (v : Nat)
  | comma
  | openBracket
  | closeBracket
deriving DecidableEq, Repr

/-- The value of a digit in a base of at most 16. -/
def digitValue (base : Nat) (c : Char) : Option Nat :=
  let v :=
    if 48 ≤ c.toNat ∧ c.toNat ≤ 57 then c.toNat - 48
    else if 65 ≤ c.toNat ∧ c.toNat ≤ 70 then c.toNat - 55
    else if 97 ≤ c.toNat ∧ c.toNat ≤ 102 then c.toNat - 87
    else 16
  if v < base then some v else none

/-- A run of digits, most significant first, after the value `acc`. -/
def digitsValue (base : Nat) : Nat → List Char → Option Nat
  | acc, [] => some acc
  | acc, c :: rest =>
    match digitValue base c with
    | some v => digitsValue base (acc * base + v) rest
    | none => none

/-- "numbers are decimal or `0x` hexadecimal" (R61). -/
def numberValue : List Char → Option Nat
  | [] => none
  | ['0', 'x'] => none
  | '0' :: 'x' :: ds => digitsValue 16 0 ds
  | ds => digitsValue 10 0 ds

/-- Letters, digits and `_`: the characters of names and numbers. -/
def isNameChar (c : Char) : Bool := c.isAlphanum || c == '_'

/-- A run of name characters, kept in reverse, as a token in front of `rest`. -/
def flushRun (run : List Char) (rest : Option (List Token)) : Option (List Token) :=
  match run.reverse, rest with
  | _, none => none
  | [], some ts => some ts
  | c :: cs, some ts =>
    if c.isDigit then (numberValue (c :: cs)).map fun v => .number v :: ts else some (.name (c :: cs) :: ts)

/-- The tokens of a line; a comment runs from `;` to its end (R62). `run` holds the run of name characters so far. -/
def tokensOf : List Char → List Char → Option (List Token)
  | run, [] => flushRun run (some [])
  | run, c :: rest =>
    if isNameChar c then tokensOf (c :: run) rest
    else if c = ';' then flushRun run (some [])
    else if c = ' ' then flushRun run (tokensOf [] rest)
    else if c = ',' then flushRun run ((tokensOf [] rest).map fun ts => .comma :: ts)
    else if c = '[' then flushRun run ((tokensOf [] rest).map fun ts => .openBracket :: ts)
    else if c = ']' then flushRun run ((tokensOf [] rest).map fun ts => .closeBracket :: ts)
    else none

/-- A register by its name (10_state.md R14). -/
def Reg.ofName (cs : List Char) : Option Reg :=
  if cs = ['C', 'M', 'D'] then some .cmd
  else if cs = ['S', 'T', 'A', 'T', 'U', 'S'] then some .status
  else if cs = ['G', 'E', 'N'] then some .gen
  else if cs = ['D', 'A', 'T', 'A', '_', 'L', 'E', 'N'] then some .dataLen
  else if cs = ['T', 'A', 'B', 'L', 'E', '_', 'L', 'E', 'N'] then some .tableLen
  else if cs = ['R', 'E', 'M'] then some .rem
  else if cs = ['N', 'G', 'E', 'N'] then some .ngen
  else if cs = ['N', 'S', 'H', 'I', 'F', 'T'] then some .nshift
  else if cs = ['N', 'C', 'A', 'R', 'R', 'Y'] then some .ncarry
  else if cs = ['N', 'M', 'A', 'S', 'K'] then some .nmask
  else none

/-- A command line (R61): the mnemonic and its numbers. -/
def commandOf (cs : List Char) (numbers : List Nat) : Option Instr :=
  match numbers with
  | [d] =>
    if cs = ['D', 'I', 'V', 'R', 'E', 'F'] then some (.divref d)
    else if cs = ['D', 'I', 'V', 'W', 'O', 'R', 'D'] then some (.divword d)
    else if cs = ['D', 'I', 'V', 'S', 'U', 'B'] then some (.divsub d)
    else if cs = ['D', 'I', 'V', 'M', 'U', 'L', 'T', 'I'] then some (.divmulti d)
    else none
  | [d, n] =>
    if cs = ['N', 'O', 'R', 'M'] then some (.norm d n)
    else if cs = ['M', 'K', 'T', 'B', 'L'] then some (.mktbl d n)
    else none
  | _ => none

/-- Numbers separated by commas, up to the end of the line. -/
def commaNumbers : List Token → Option (List Nat)
  | [.number v] => some [v]
  | .number v :: .comma :: rest => (commaNumbers rest).map fun vs => v :: vs
  | _ => none

/-- Numbers separated by commas, up to a closing bracket that ends the line. -/
def bracketNumbers : List Token → Option (List Nat)
  | [.number v, .closeBracket] => some [v]
  | .number v :: .comma :: rest => (bracketNumbers rest).map fun vs => v :: vs
  | _ => none

/-- `[v0, v1, ...]`, or `[]`. -/
def listOperand : List Token → Option (List Nat)
  | [.openBracket, .closeBracket] => some []
  | .openBracket :: rest => bracketNumbers rest
  | _ => none

/-- A command line whose fields fit the word (R53, R54, R61). -/
def commandEvents (cs : List Char) (rest : List Token) : Option (List Event) :=
  match (commaNumbers rest).bind (commandOf cs) with
  | none => none
  | some i => if i.wf then some [hostCommand i] else none

/-- The events one line stands for (R61, R62); an empty line or a comment stands for none. -/
def lineEvents : List Token → Option (List Event)
  | [] => some []
  | .name cs :: rest =>
    if cs = ['R', 'E', 'S', 'E', 'T'] then (if rest = [] then some [.reset] else none)
    else if cs = ['W', 'R'] then
      match rest with
      | [.name r, .comma, .number v] => (Reg.ofName r).map fun reg => [.writeReg reg.number v]
      | _ => none
    else if cs = ['R', 'D'] then
      match rest with
      | [.name r] => (Reg.ofName r).map fun reg => [.readReg reg.number]
      | _ => none
    else if cs = ['R', 'D', 'T'] then
      match rest with
      | [.number i] => some [.readTable i]
      | _ => none
    else if cs = ['D', 'A', 'T', 'A'] then (listOperand rest).map hostData
    else if cs = ['T', 'B', 'L'] then (listOperand rest).map hostTable
    else commandEvents cs rest
  | _ => none

/-- The events of a line of text (R61, R62). -/
def assemble (line : List Char) : Option (List Event) := (tokensOf [] line).bind lineEvents

end Sys2Proof.Machine
end

