-- ==== Sys2Proof/Tests/Slice0.lean ====
section
/-! SUPPORT. Tests: expected results come from 95_test_vectors.md and from the worked examples of the rules, one step each;
and, for every obligation with hypotheses, a state and operands that meet them all (`witness_…`). -/

namespace Sys2Proof.Tests

open Sys2Proof Sys2Proof.Machine

set_option Elab.async false

/-! ### Helpers -/

/-- A store holding the listed values from index `i` on. -/
def listed (n : Nat) : Nat → List Nat → Memory n
  | _, [] => []
  | i, v :: rest => (i, BitVec.ofNat n v) :: listed n (i + 1) rest

/-- After reset and the host's writes of GEN, of the stream and its length, of the table and its length. -/
def setUp (cfg : Config) (gen : Nat) (words entries : List Nat) : State :=
  { State.resetAt cfg 0 with
    gen := BitVec.ofNat cfg.gw gen
    dataLen := BitVec.ofNat 32 words.length
    tableLen := BitVec.ofNat 33 entries.length
    data := listed cfg.w 0 words
    table := listed cfg.gw 0 entries }

/-- The same with a TABLE_LEN and some entries of its table only. -/
def setUpTable (cfg : Config) (gen : Nat) (words : List Nat) (tableLen : Nat) (entries : List (Nat × Nat)) : State :=
  { setUp cfg gen words [] with
    tableLen := BitVec.ofNat 33 tableLen
    table := entries.map fun e => (e.1, BitVec.ofNat cfg.gw e.2) }

/-- The host acts next as listed. -/
def hostDoes (es : List Event) (s : State) : State := { s with pending := es }

/-- An operation is running: DIVREF 8 has been taken, its checks come next. -/
def running (s : State) : State :=
  { s with
    cmd := 0x00000802#32
    status := { state := .busy, err := 0#8, lastop := 2#3 }
    seq := .check .divref }

/-- What to look at in a next state. -/
def seen {α : Type} (f : State → α) : StepResult → Option α
  | .next t => some (f t)
  | .fault _ => none
  | .refused _ => none

/-- STATUS as the host reads it. -/
def statusOf : StepResult → Option Nat := seen fun t => t.status.word.toNat

/-- The results of NORM. -/
def tupleOf (t : State) : Nat × Nat × Nat × Nat := (t.ngen.toNat, t.nshift.toNat, t.ncarry.toNat, t.nmask.toNat)

/-- The first `n` entries of the table, and TABLE_LEN. -/
def tableOf (n : Nat) (t : State) : List Nat × Nat := ((List.range n).map fun i => (t.tableAt i).toNat, t.tableLen.toNat)

def c88 : Config := { gw := 8, w := 8 }
def c168 : Config := { gw := 16, w := 8 }
def c1616 : Config := { gw := 16, w := 16 }
def c82 : Config := { gw := 8, w := 2 }
def c84 : Config := { gw := 8, w := 4 }
def c162 : Config := { gw := 16, w := 2 }
/-- W > 32. -/
def c4033 : Config := { gw := 40, w := 33 }

/-- V-TBL-2, V-TBL-3, V-TBL-4: the tables of widths 1, 2 and 4 for degree 8 and generator 0x07. -/
def table1 : List Nat := [0x00, 0x07]
def table2 : List Nat := [0x00, 0x07, 0x0E, 0x09]
def table4 : List Nat :=
  [0x00, 0x07, 0x0E, 0x09, 0x1C, 0x1B, 0x12, 0x15] ++ [0x38, 0x3F, 0x36, 0x31, 0x24, 0x23, 0x2A, 0x2D]

/-! ### Well-formedness: each check refuses an ill-formed command (30_encoding.md R53, R54) -/

theorem test_wellFormed_refuses_degree_256 : (Instr.divref 256).degreeFits = false ∧ (Instr.divref 256).wf = false := by
  decide
theorem test_wellFormed_refuses_size_256 : (Instr.mktbl 8 256).sizeFits = false ∧ (Instr.mktbl 8 256).wf = false := by
  decide
theorem test_wellFormed_accepts_the_largest_fields : (Instr.norm 255 255).wf = true := by decide

/-! ### Decoding: each word is written field by field, RSV1 SIZE DEGREE RSV0 OP (30_encoding.md R51; V-ENC) -/

/-- V-ENC-2. -/
theorem test_decode_norm : decode (0#8 ++ 8#8 ++ 40#8 ++ 0#5 ++ 0b001#3) = .ok (.norm 40 8) := by decide
/-- V-ENC-4. -/
theorem test_decode_divref : decode (0#8 ++ 0#8 ++ 32#8 ++ 0#5 ++ 0b010#3) = .ok (.divref 32) := by decide
/-- V-ENC-5. -/
theorem test_decode_mktbl : decode (0#8 ++ 8#8 ++ 16#8 ++ 0#5 ++ 0b011#3) = .ok (.mktbl 16 8) := by decide
/-- V-ENC-8. -/
theorem test_decode_divword : decode (0#8 ++ 0#8 ++ 8#8 ++ 0#5 ++ 0b100#3) = .ok (.divword 8) := by decide
/-- V-ENC-9. -/
theorem test_decode_divsub : decode (0#8 ++ 0#8 ++ 16#8 ++ 0#5 ++ 0b101#3) = .ok (.divsub 16) := by decide
/-- V-ENC-10. -/
theorem test_decode_divmulti : decode (0#8 ++ 0#8 ++ 32#8 ++ 0#5 ++ 0b110#3) = .ok (.divmulti 32) := by decide
/-- V-ENC-1, 3, 6, 7, 11: the words themselves. -/
theorem test_decode_words :
    decode 0x00080801#32 = .ok (.norm 8 8) ∧ decode 0x00000802#32 = .ok (.divref 8) ∧
      decode 0x00202003#32 = .ok (.mktbl 32 32) ∧ decode 0x00210803#32 = .ok (.mktbl 8 33) ∧
      decode 0x00FFFF01#32 = .ok (.norm 255 255) := by decide
/-- V-ENC-12 to V-ENC-17. -/
theorem test_decode_illegal :
    decode 0x00000000#32 = .illegal .reservedOp ∧ decode 0x00000807#32 = .illegal .reservedOp ∧
      decode 0x00010802#32 = .illegal .sizeOnDivider ∧ decode 0x01000802#32 = .illegal .reservedField ∧
      decode 0x00000812#32 = .illegal .reservedField ∧ decode 0xFFFFFFFF#32 = .illegal .reservedField := by decide
/-- R61's examples. -/
theorem test_encode : encode (.mktbl 16 8) = 0x00081003#32 ∧ encode (.divref 8) = 0x00000802#32 := by decide
/-- R59: each row's match has no bit outside its mask, and no two rows overlap. -/
theorem test_opcodeRows_disjoint :
    opcodeRows.all (fun r => r.pattern &&& r.mask == r.pattern) = true ∧
      opcodeRows.Pairwise (fun a b => a.pattern &&& (a.mask &&& b.mask) ≠ b.pattern &&& (a.mask &&& b.mask)) := by
  decide
/-- A word of more than 32 bits is no command. -/
theorem test_decodeTableWord : decodeTableWord 32 0x00081003 = some (.mktbl 16 8) ∧ decodeTableWord 40 0x0100000802 = none := by
  decide

/-! ### The bit step (V-STP-1, V-STP-3, V-STP-6, V-STP-7, V-STP-8) and the shift of 00_scope.md R10 -/

theorem test_bitStep :
    bitStep 0x07#8 0x80#8 0x80#8 = 0x07#8 ∧ bitStep 0x07#8 0x80#8 0xFF#8 = 0xF9#8 ∧
      bitStep 0x0007#16 0x0080#16 0x0080#16 = 0x0107#16 ∧ bitStep 0x0007#16 0x0080#16 0x8080#16 = 0x0107#16 ∧
      bitStep 0x0007#16 0x0080#16 0xFF40#16 = 0xFE80#16 := by decide
/-- `shl_N(v, N)` is 0, not v. -/
theorem test_shl_by_the_width : shl 0xFF#8 8 = 0#8 ∧ shl 0xFF#8 9 = 0#8 := by decide
/-- R10: `ispow2`. -/
theorem test_isPow2 : [0, 1, 2, 3, 100, 512, 2 ^ 32].map isPow2 = [false, true, true, false, false, true, true] := by
  decide +kernel

/-! ### The six operations -/

/-- V-NRM-3. -/
theorem test_norm : seen tupleOf (exec (.norm 8 3) (setUp c88 0x07 [] [])) = some (0x07, 5, 0x80, 0xFF) := by
  decide +kernel
/-- V-NRM-16: 0x13 before 0x12; V-NRM-19: 0x11 before 0x12; V-NRM-18: 0x12. -/
theorem test_norm_fails :
    failureOf (exec (.norm 0 5) (setUp c88 0x07 [] [])) = some 0x13#8 ∧
      failureOf (exec (.norm 9 10) (setUp c88 0x07 [] [])) = some 0x11#8 ∧
      failureOf (exec (.norm 8 9) (setUp c88 0x07 [] [])) = some 0x12#8 := by decide +kernel
/-- V-REF-8. -/
theorem test_divref : remainderOf (exec (.divref 8) (setUp c88 0x07 [0x01, 0x02, 0x03] [])) = some 0x48 := by
  decide +kernel
/-- V-REF-25: degree 12 in 16 bits, masked once at the end. -/
theorem test_divref_below_gw : remainderOf (exec (.divref 12) (setUp c168 0x080F [0xFF, 0xFF] [])) = some 0x3C6 := by
  decide +kernel
/-- V-TBL-5: unmasked entries. -/
theorem test_mktbl :
    seen (tableOf 16) (exec (.mktbl 8 4) (setUp c168 0x0007 [] [])) =
      some ([0x0000, 0x0107, 0x020E, 0x0309, 0x041C, 0x051B, 0x0612, 0x0715] ++
        [0x0838, 0x093F, 0x0A36, 0x0B31, 0x0C24, 0x0D23, 0x0E2A, 0x0F2D], 16) := by decide +kernel
/-- V-TBL-E3: 0x21 is checked before the degree; V-TBL-E5. -/
theorem test_mktbl_fails :
    failureOf (exec (.mktbl 0 33) (setUp c88 0x07 [] [])) = some 0x21#8 ∧
      failureOf (exec (.mktbl 8 9) (setUp c88 0x07 [] [])) = some 0x12#8 := by decide +kernel
/-- R94: the entries its trace reads. -/
theorem test_divword :
    remainderOf (exec (.divword 8)
      (setUpTable c88 0x07 [0x01, 0x02, 0x03] 256 [(0x01, 0x07), (0x05, 0x1B), (0x18, 0x48)])) = some 0x48 := by
  decide +kernel
/-- V-WRD-E6: the table check comes first; V-WRD-E4. -/
theorem test_divword_fails :
    failureOf (exec (.divword 0) (setUpTable c168 0x07 [] 16 [])) = some 0x31#8 ∧
      failureOf (exec (.divword 17) (setUpTable c168 0x07 [] 256 [])) = some 0x11#8 := by decide +kernel
/-- R103. -/
theorem test_divsub : remainderOf (exec (.divsub 8) (setUp c88 0x07 [0x01, 0x02, 0x03] table4)) = some 0x48 := by
  decide +kernel
/-- V-SUB-E5, V-SUB-E6, V-SUB-E10, V-SUB-E11. -/
theorem test_divsub_fails :
    failureOf (exec (.divsub 8) (setUpTable c88 0x07 [] 512 [])) = some 0x32#8 ∧
      failureOf (exec (.divsub 16) (setUpTable c1616 0x07 [] 8 [])) = some 0x33#8 ∧
      failureOf (exec (.divsub 7) (setUpTable c88 0x07 [] 16 [])) = some 0x12#8 ∧
      failureOf (exec (.divsub 0) (setUpTable c88 0x07 [] 3 [])) = some 0x36#8 := by decide +kernel
/-- R113: one full group and a partial one, with the two entries its trace reads. -/
theorem test_divmulti :
    remainderOf (exec (.divmulti 16)
      (setUpTable c168 0x1021 [0x31, 0x32, 0x33] 65536 [(0x13, 0x2252), (0x3132, 0x20B5)])) = some 0x9752 := by
  decide +kernel
/-- R111: TABLE_LEN 1, 16 and 65536 at W = 8, degree 8 and 0. -/
theorem test_divmulti_fails :
    failureOf (exec (.divmulti 8) (setUpTable c88 0x07 [] 1 [])) = some 0x36#8 ∧
      failureOf (exec (.divmulti 8) (setUpTable c88 0x07 [] 16 [])) = some 0x34#8 ∧
      failureOf (exec (.divmulti 8) (setUpTable c88 0x07 [] 65536 [])) = some 0x35#8 ∧
      failureOf (exec (.divmulti 0) (setUpTable c88 0x07 [] 65536 [])) = some 0x35#8 := by decide +kernel

/-! ### The step, STATUS, the host -/

/-- V-NRM-1 and V-NRM-18 through a CMD write: STATUS. -/
theorem test_step_status :
    statusOf (step (hostDoes [.writeReg 0 0x00080801] (setUp c88 0x07 [] []))) = some 0x00010002 ∧
      statusOf (step (hostDoes [.writeReg 0 0x00090801] (setUp c88 0x07 [] []))) = some 0x00011203 := by decide +kernel
/-- V-ENC-12, V-ENC-13, V-ENC-16: STATUS after an illegal word. -/
theorem test_step_illegal :
    statusOf (step (hostDoes [.writeReg 0 0x00000000] (setUp c88 0x07 [] []))) = some 0x00004103 ∧
      statusOf (step (hostDoes [.writeReg 0 0x00000807] (setUp c88 0x07 [] []))) = some 0x00074103 ∧
      statusOf (step (hostDoes [.writeReg 0 0x00000812] (setUp c88 0x07 [] []))) = some 0x00024103 := by decide +kernel
/-- The command that the first step after reset runs. -/
theorem test_withFetchWord :
    statusOf (step (State.reset.withFetchWord 32 0x00082001)) = some 0x00010002 ∧
      statusOf (step ((running State.reset).withFetchWord 32 0x00082001)) = some 0x00010002 := by decide +kernel
/-- While BUSY (70_reset_and_hazards.md R150, R151): a CMD write is ignored, an operand write is refused. -/
theorem test_busy_host :
    statusOf (step (hostDoes [.writeReg 0 0x00080801] (running (setUp c88 0x07 [] [])))) = some 0x00020001 ∧
      step (hostDoes [.writeReg 2 1] (running (setUp c88 0x07 [] []))) = .refused .writeWhileBusy :=
  ⟨by decide +kernel, rfl⟩
/-- 20_memory.md R43: the bounds of the two stores. -/
theorem test_store_bounds :
    step (hostDoes [.writeData (2 ^ 32 - 1) 0] (setUp c88 0 [] [])) = .fault .noSuchElement ∧
      step (hostDoes [.readTable (2 ^ 32)] (setUp c88 0 [] [])) = .fault .noSuchElement ∧
      seen (fun t => (t.dataAt (2 ^ 32 - 2)).toNat) (step (hostDoes [.writeData (2 ^ 32 - 2) 5] (setUp c88 0 [] []))) =
        some 5 := ⟨rfl, rfl, by decide +kernel⟩
/-- A host read (10_state.md R30) and its reply. -/
theorem test_host_read :
    seen (fun t => t.reply) (step (hostDoes [.readReg 2] (setUp c88 0x07 [] []))) = some (some 0x07) ∧
      seen (fun t => t.reply) (step (hostDoes [.readTable 3] (setUp c88 0 [] table2))) = some (some 0x09) := by
  decide +kernel
/-- One micro-step of DIVREF: word 0x01 of R79 enters and takes its first bit step, r = 0x02. -/
theorem test_tick_divref :
    seen (fun t => match t.seq with
      | .run .divref i j k wk => (i, j, k, wk.r.toNat)
      | _ => (9, 9, 9, 9))
      (step (tick (running (setUp c88 0x07 [0x01] [])))) = some (0, 0, 1, 0x02) := by decide +kernel

/-! ### Text (30_encoding.md R61, R62) -/

theorem test_assemble_commands :
    assemble "MKTBL 16, 8".toList = some [.writeReg 0 0x00081003] ∧
      assemble "DIVREF   0x8".toList = some [.writeReg 0 0x00000802] ∧
      assemble "NORM 8, 256".toList = none ∧ assemble "DIVREF 8, 1".toList = none := by decide +kernel
theorem test_assemble_host_actions :
    assemble "WR GEN, 0x07   ; the generator".toList = some [.writeReg 2 7] ∧
      assemble "DATA [0x01, 2]".toList = some [.writeData 0 1, .writeData 1 2, .writeReg 3 2] ∧
      assemble "TBL []".toList = some [.writeReg 4 0] ∧ assemble "RDT 3".toList = some [.readTable 3] ∧
      assemble "RESET".toList = some [.reset] ∧ assemble "RD REM".toList = some [.readReg 5] := by decide +kernel
/-- R63: `divide_no_table(8, 0x07, [0x01])`. -/
theorem test_sourceCall :
    (SourceCall.divideNoTable 8 0x07 [0x01]).events =
      [.writeReg 2 7, .writeData 0 1, .writeReg 3 1, .writeReg 0 0x00000802] := by decide +kernel

/-- R53: the wrapper reports a degree the field cannot hold (264 = 256 + 8 would otherwise spill into SIZE); and 65544 =
2^16 + 8, which would spill into RSV1 (log entry 15). -/
theorem test_sourceCall_unpresentable :
    (SourceCall.normalize 264 0x07 0).events = [] ∧
      (SourceCall.normalize 264 0x07 0).result (setUp c88 0x07 [] []) = .failure 0x11 ∧
      (SourceCall.buildTable 8 0x07 65544).events = [] ∧
      (SourceCall.buildTable 8 0x07 65544).result (setUp c88 0x07 [] []) = .failure 0x21 := by decide +kernel

/-! ### Witnesses: a state and operands that meet all the hypotheses of each obligation, clause by clause -/

theorem witness_DecodeOfEncodeIsIdentity : (Instr.mktbl 255 255).wf = true ∧ (Instr.divref 0).wf = true := by decide

theorem witness_EncodeOfDecodeIsIdentity : decode 0x00FFFF03#32 = .ok (.mktbl 255 255) := by decide

theorem witness_StepRunsTheDecodedCommand :
    let s := hostDoes [.writeReg 0 (0x00000802#32).toNat] (setUp c88 0x07 [0x01] [])
    s.pending = .writeReg 0 (0x00000802#32).toNat :: [] ∧ s.status.state ≠ .busy ∧
      decode 0x00000802#32 = .ok (.divref 8) := ⟨rfl, by decide, by decide⟩

/-- A word for each way of being illegal. -/
theorem witness_IllegalCommandChangesOnlyStatus :
    let s := fun c : Command => hostDoes [.writeReg 0 c.toNat] (setUp c88 0x07 [0x01] [])
    (∀ c, (s c).pending = .writeReg 0 c.toNat :: [] ∧ (s c).status.state ≠ .busy) ∧
      (0x00000812#32).extractLsb' 3 5 ≠ 0#5 ∧ (0x01000802#32).extractLsb' 24 8 ≠ 0#8 ∧
      (0x00000000#32).extractLsb' 0 3 = 0#3 ∧ (0x00000807#32).extractLsb' 0 3 = 7#3 ∧
      ((0x00010802#32).extractLsb' 0 3 ∈ [2#3, 4#3, 5#3, 6#3] ∧ (0x00010802#32).extractLsb' 16 8 ≠ 0#8) :=
  ⟨fun _ => ⟨rfl, by simp [hostDoes, setUp, State.resetAt]⟩, by decide, by decide, by decide, by decide, by decide⟩

theorem witness_FailingCommandChangesOnlyStatus :
    let s := hostDoes [.writeReg 0 (0x00090801#32).toNat] (setUp c88 0x07 [] [])
    s.pending = .writeReg 0 (0x00090801#32).toNat :: [] ∧ s.status.state ≠ .busy ∧
      ∃ t, step s = .next t ∧ t.status.state = .error := ⟨rfl, by decide, _, rfl, by decide +kernel⟩

/-- Both clauses, at degree 1 and GW, chunk 0 and degree; degree 0, GW + 1, chunk degree + 1. -/
theorem witness_NormWritesTheNormalizedTuple :
    let s := setUp c88 0x07 [] []
    (1 ≤ 1 ∧ 1 ≤ s.cfg.gw ∧ 0 ≤ 1) ∧ (1 ≤ 8 ∧ 8 ≤ s.cfg.gw ∧ 8 ≤ 8) ∧ ¬(1 ≤ 0 ∧ 0 ≤ s.cfg.gw ∧ 0 ≤ 0) ∧
      ¬(1 ≤ 9 ∧ 9 ≤ s.cfg.gw ∧ 0 ≤ 9) ∧ ¬(1 ≤ 8 ∧ 8 ≤ s.cfg.gw ∧ 9 ≤ 8) := by decide

theorem witness_LowBitsIgnoreHighBits :
    1 ≤ 8 ∧ 8 ≤ 16 ∧ (0x0007#16).toNat < 2 ^ 8 ∧ (0x00FF#16).toNat < 2 ^ 8 := by decide

/-- Both clauses: W <= degree <= GW, at degree W and GW; just outside. -/
theorem witness_DivrefCompletes :
    let s := setUp c168 0x07 [0x01] []
    (s.cfg.w ≤ 8 ∧ 8 ≤ s.cfg.gw) ∧ (s.cfg.w ≤ 16 ∧ 16 ≤ s.cfg.gw) ∧ ¬(s.cfg.w ≤ 7 ∧ 7 ≤ s.cfg.gw) ∧
      ¬(s.cfg.w ≤ 17 ∧ 17 ≤ s.cfg.gw) := by decide

/-- Each clause, at a boundary: degree 0, GW + 1, W - 1, W. -/
theorem witness_DivrefFails :
    let s := setUp c168 0x07 [0x01] []
    (0 = 0) ∧ s.cfg.gw < 17 ∧ (1 ≤ 7 ∧ 7 ≤ s.cfg.gw ∧ 7 < s.cfg.w) ∧ (s.cfg.w ≤ 8 ∧ 8 ≤ s.cfg.gw) := by decide

theorem witness_DivrefIsThePolynomialRemainder :
    ∃ t, exec (.divref 8) (setUp c88 0x07 [0x01, 0x02] []) = .next t ∧ t.status.state = .done :=
  ⟨_, rfl, by decide +kernel⟩

theorem witness_DivrefIndependentOfGeneratorWidth :
    let s := setUp c88 0x07 [0x01, 0x02] []
    let s' := setUp c168 0xFF07 [0x01, 0x02] []
    s.cfg.w = s'.cfg.w ∧ 8 ≤ s.cfg.gw ∧ 8 ≤ s'.cfg.gw ∧ s.gen.toNat % 2 ^ 8 = s'.gen.toNat % 2 ^ 8 ∧
      s.dataLen = s'.dataLen ∧ ∀ i, i < s.dataLen.toNat → (s.dataAt i).toNat = (s'.dataAt i).toNat := by
  decide +kernel

/-- Each clause: a zero generator, a zero stream. -/
theorem witness_ZeroGeneratorOrStreamGivesZero :
    let s := setUp c168 0xFF00 [0x01, 0x02] []
    let s' := setUp c88 0x07 [0x00, 0x00] []
    (remainderOf (exec (.divref 8) s) = some 0 ∧ s.gen.toNat % 2 ^ 8 = 0) ∧
      remainderOf (exec (.divref 8) s') = some 0 ∧ ∀ i, i < s'.dataLen.toNat → (s'.dataAt i).toNat = 0 := by
  decide +kernel

/-- V-REF-23 and V-REF-18. -/
theorem witness_RegroupedStreamGivesTheSameRemainder :
    let s := setUp c168 0x1021 [0x31, 0x32, 0x33, 0x34] []
    let s' := setUp c1616 0x1021 [0x3132, 0x3334] []
    1 ≤ 2 ∧ s'.cfg.w = 2 * s.cfg.w ∧ s'.cfg.gw = s.cfg.gw ∧ s'.gen.toNat = s.gen.toNat ∧
      s.dataLen.toNat = 2 * s'.dataLen.toNat ∧
      (∀ i, i < s'.dataLen.toNat → ∀ j, j < 2 →
        (s.dataAt (2 * i + j)).toNat = (s'.dataAt i).toNat / 2 ^ ((2 - 1 - j) * s.cfg.w) % 2 ^ s.cfg.w) ∧
      remainderOf (exec (.divref 16) s') = some 0xD789 := by decide +kernel

/-- At table_size 0 and min(32, degree), degree 1 and GW. -/
theorem witness_MktblCompletes :
    let s := setUp c88 0x07 [] []
    (0 ≤ 32 ∧ 0 ≤ 1 ∧ 1 ≤ 1 ∧ 1 ≤ s.cfg.gw) ∧ (8 ≤ 32 ∧ 8 ≤ 8 ∧ 1 ≤ 8 ∧ 8 ≤ s.cfg.gw) ∧
      (32 ≤ 32 ∧ 32 ≤ 33 ∧ 1 ≤ 33 ∧ 33 ≤ (setUp c4033 0x07 [] []).cfg.gw) := by decide

/-- Each clause, at a boundary. -/
theorem witness_MktblFails :
    let s := setUp c88 0x07 [] []
    33 ≤ 33 ∧ (32 < 33 ∧ 0 = 0) ∧ (32 < 33 ∧ s.cfg.gw < 9) ∧ (9 < 33 ∧ 1 ≤ 8 ∧ 8 ≤ s.cfg.gw ∧ 8 < 9) := by decide

/-- Entry 15 of V-TBL-5: step T puts its bit at position degree, the lowest, step 1 at degree + T - 1; the zero bits begin
at degree + T. -/
theorem witness_EntryHighBitsAreQuotientBits :
    let s := setUp c168 0x0007 [] []
    (∃ t, exec (.mktbl 8 4) s = .next t ∧ t.status.state = .done) ∧ 15 < 2 ^ 4 ∧
      (1 ≤ 4 ∧ 4 ≤ 4 ∧ 8 + 4 - 4 < s.cfg.gw) ∧ (1 ≤ 1 ∧ 1 ≤ 4 ∧ 8 + 4 - 1 < s.cfg.gw) ∧ 8 + 4 ≤ 12 :=
  ⟨⟨_, rfl, by decide +kernel⟩, by decide, by decide, by decide, by decide⟩

/-- At n = 0 and n = degree = GW. -/
theorem witness_EntryReplacesBitSteps :
    (∃ p, Sys2Proof.Machine.normalize 8 0x07#8 0 = .passes p) ∧ (∃ p, Sys2Proof.Machine.normalize 8 0x07#8 8 = .passes p) ∧
      (0xFF#8).toNat < 2 ^ 8 := ⟨⟨_, rfl⟩, ⟨_, rfl⟩, by decide⟩

theorem witness_WideTableContainsNarrowTable :
    let s := setUp c88 0x07 [] []
    2 ≤ 4 ∧ (∃ t, exec (.mktbl 8 2) s = .next t ∧ t.status.state = .done) ∧
      (∃ u, exec (.mktbl 8 4) s = .next u ∧ u.status.state = .done) ∧ 3 < 2 ^ 2 :=
  ⟨by decide, ⟨_, rfl, by decide +kernel⟩, ⟨_, rfl, by decide +kernel⟩, by decide⟩

/-- Both clauses: a table narrower than the degree, and one as wide as it. -/
theorem witness_FirstTwoEntries :
    (∃ t, exec (.mktbl 8 0) (setUp c88 0x07 [] []) = .next t ∧ t.status.state = .done) ∧
      ∃ t, exec (.mktbl 3 3) (setUp c88 0x07 [] []) = .next t ∧ t.status.state = .done ∧ 3 = 3 :=
  ⟨⟨_, rfl, by decide +kernel⟩, _, rfl, by decide +kernel, rfl⟩

/-- Both parts. -/
theorem witness_BuildingATableIsIdempotent :
    let s := setUp c88 0x07 [] []
    let s' := setUp c84 0x07 [1] table4
    (s.cfg.gw = s'.cfg.gw ∧ s.gen.toNat = s'.gen.toNat) ∧
      (∃ t t', exec (.mktbl 8 2) s = .next t ∧ exec (.mktbl 8 2) s' = .next t' ∧ t.status.state = .done) ∧
      s'.table.wf ∧ ∃ t, exec (.mktbl 8 2) s' = .next t ∧ t.status.state = .done :=
  ⟨⟨rfl, rfl⟩, ⟨_, _, rfl, rfl, by decide +kernel⟩, by decide +kernel, _, rfl, by decide +kernel⟩

theorem witness_MktblLeavesAMatchingTable :
    ∃ t, exec (.mktbl 8 2) (setUp c168 0x0107 [] []) = .next t ∧ t.status.state = .done := ⟨_, rfl, by decide +kernel⟩

/-- At degree W and GW. -/
theorem witness_DivwordCompletes :
    let s := setUpTable c168 0x07 [0x01] 256 []
    s.tableLen.toNat = 2 ^ s.cfg.w ∧ (s.cfg.w ≤ 8 ∧ 8 ≤ s.cfg.gw) ∧ (s.cfg.w ≤ 16 ∧ 16 ≤ s.cfg.gw) := by
  decide +kernel

/-- Each clause: a wrong length, W = 33, and with the right length degree 0, GW + 1, W - 1. -/
theorem witness_DivwordFails :
    let s := setUpTable c168 0x07 [0x01] 256 []
    (setUpTable c168 0x07 [0x01] 128 []).tableLen.toNat ≠ 2 ^ 8 ∧ 32 < (setUp c4033 0x07 [] []).cfg.w ∧
      s.tableLen.toNat = 2 ^ s.cfg.w ∧ 0 = 0 ∧ s.cfg.gw < 17 ∧ (1 ≤ 7 ∧ 7 ≤ s.cfg.gw ∧ 7 < s.cfg.w) := by
  decide +kernel

/-- At B = 1 and B = W. -/
theorem witness_DivsubCompletes :
    let s := setUpTable c168 0x07 [0x01] 2 []
    let s' := setUpTable c168 0x07 [0x01] 256 []
    (1 ≤ 1 ∧ s.tableLen.toNat = 2 ^ 1 ∧ s.cfg.w % 1 = 0 ∧ s.cfg.w ≤ 8 ∧ 8 ≤ s.cfg.gw) ∧
      (1 ≤ 8 ∧ s'.tableLen.toNat = 2 ^ 8 ∧ s'.cfg.w % 8 = 0 ∧ s'.cfg.w ≤ 16 ∧ 16 ≤ s'.cfg.gw) := by decide +kernel

/-- A TABLE_LEN that is 1 is 2^B for no B of at least 1. -/
theorem witness_noWidth : ¬∃ B, 1 ≤ B ∧ (setUpTable c88 0x07 [] 1 []).tableLen.toNat = 2 ^ B := by
  rintro ⟨B, hB, h⟩
  have h1 : (setUpTable c88 0x07 [] 1 []).tableLen.toNat = 1 := rfl
  have h2 : 2 ^ 1 ≤ 2 ^ B := Nat.pow_le_pow_right (by norm_num) hB
  omega

/-- Each clause: no width (`witness_noWidth`); B = W + 1; B = 3 at W = 8; and B = 4 with degree 0, GW + 1, W - 1. -/
theorem witness_DivsubFails :
    let s := setUpTable c88 0x07 [] 16 []
    (1 ≤ 9 ∧ (setUpTable c88 0x07 [] 512 []).tableLen.toNat = 2 ^ 9 ∧ s.cfg.w < 9) ∧
      (1 ≤ 3 ∧ (setUpTable c88 0x07 [] 8 []).tableLen.toNat = 2 ^ 3 ∧ 3 ≤ s.cfg.w ∧ s.cfg.w % 3 ≠ 0) ∧
      (1 ≤ 4 ∧ s.tableLen.toNat = 2 ^ 4 ∧ 4 ≤ s.cfg.w ∧ s.cfg.w % 4 = 0) ∧ 0 = 0 ∧ s.cfg.gw < 9 ∧
      (1 ≤ 7 ∧ 7 ≤ s.cfg.gw ∧ 7 < s.cfg.w) := by decide +kernel

/-- At B = W with degree B, and at B = 2W = degree = GW. -/
theorem witness_DivmultiCompletes :
    let s := setUpTable c168 0x07 [0x01] 256 []
    let s' := setUpTable c168 0x07 [0x01, 0x02, 0x03] 65536 []
    (1 ≤ 8 ∧ s.tableLen.toNat = 2 ^ 8 ∧ 8 % s.cfg.w = 0 ∧ 8 ≤ 8 ∧ 8 ≤ s.cfg.gw) ∧
      (1 ≤ 16 ∧ s'.tableLen.toNat = 2 ^ 16 ∧ 16 % s'.cfg.w = 0 ∧ 16 ≤ 16 ∧ 16 ≤ s'.cfg.gw) := by decide +kernel

/-- Each clause: no width (`witness_noWidth`); B = 4 at W = 8; B = 16 with degree 15; B = 8 with degree GW + 1. -/
theorem witness_DivmultiFails :
    let s := setUpTable c88 0x07 [] 256 []
    (1 ≤ 4 ∧ (setUpTable c88 0x07 [] 16 []).tableLen.toNat = 2 ^ 4 ∧ 4 % s.cfg.w ≠ 0) ∧
      (1 ≤ 16 ∧ (setUpTable c88 0x07 [] 65536 []).tableLen.toNat = 2 ^ 16 ∧ 16 % s.cfg.w = 0 ∧ 15 < 16) ∧
      (1 ≤ 8 ∧ s.tableLen.toNat = 2 ^ 8 ∧ 8 % s.cfg.w = 0 ∧ 8 ≤ 9 ∧ s.cfg.gw < 9) := by decide +kernel

/-- The table of width 2 = W. -/
theorem witness_WordTableDividerEqualsReference :
    let s := setUp c82 0x07 [1, 2, 3] table2
    s.MatchingTable s.cfg.w 8 ∧ ∃ v, remainderOf (exec (.divref 8) s) = some v := by
  unfold State.MatchingTable
  exact ⟨by decide +kernel, _, rfl⟩

/-- The tables of width 1 and 2 = W. -/
theorem witness_SmallTableDividerEqualsReference :
    let s := setUp c82 0x07 [1, 2, 3] table1
    let s' := setUp c82 0x07 [1, 2, 3] table2
    (1 ≤ 1 ∧ s.cfg.w % 1 = 0 ∧ s.MatchingTable 1 8 ∧ ∃ v, remainderOf (exec (.divref 8) s) = some v) ∧
      (1 ≤ 2 ∧ s'.cfg.w % 2 = 0 ∧ s'.MatchingTable 2 8 ∧ ∃ v, remainderOf (exec (.divref 8) s') = some v) := by
  unfold State.MatchingTable
  exact ⟨⟨by decide, by decide, by decide +kernel, _, rfl⟩, by decide, by decide, by decide +kernel, _, rfl⟩

/-- The table of width 4 at W = 2, with a partial trailing group. -/
theorem witness_BigTableDividerEqualsReference :
    let s := setUp c82 0x07 [1, 2, 3] table4
    1 ≤ 4 ∧ 4 % s.cfg.w = 0 ∧ 4 ≤ 8 ∧ s.MatchingTable 4 8 ∧ ∃ v, remainderOf (exec (.divref 8) s) = some v := by
  unfold State.MatchingTable
  exact ⟨by decide, by decide, by decide, by decide +kernel, _, rfl⟩

/-- For each of the three. -/
theorem witness_TableDividersSucceedOnlyWithReference :
    let s := setUp c82 0x07 [1, 2, 3] table2
    (remainderOf (exec (.divword 8) s)).isSome = true ∧ (remainderOf (exec (.divsub 8) s)).isSome = true ∧
      (remainderOf (exec (.divmulti 8) s)).isSome = true := by decide +kernel

/-- DIVSUB with the table of width 1, DIVMULTI with the table of width 4. -/
theorem witness_ResultIsIndependentOfTableWidth :
    let s := setUp c82 0x07 [1, 2, 3] table1
    let m := listed 8 0 table4
    (s.cfg.w % 1 = 0 ∧ 1 ≤ 1 ∧ 4 % s.cfg.w = 0 ∧ 4 ≤ 8 ∧ 1 ≤ 4) ∧ s.MatchingTable 1 8 ∧
      State.MatchingTable { s with table := m, tableLen := 16#33 } 4 8 := by
  unfold State.MatchingTable
  exact ⟨by decide, by decide +kernel, by decide +kernel⟩

/-- For each of the four. -/
theorem witness_RemainderIsMaskedToDegree :
    let s := setUp c162 0x0107 [1, 2, 3] table2
    (∃ t, exec (.divref 8) s = .next t ∧ t.status.state = .done) ∧
      (∃ t, exec (.divword 8) s = .next t ∧ t.status.state = .done) ∧
      (∃ t, exec (.divsub 8) s = .next t ∧ t.status.state = .done) ∧
      ∃ t, exec (.divmulti 8) s = .next t ∧ t.status.state = .done :=
  ⟨⟨_, rfl, by decide +kernel⟩, ⟨_, rfl, by decide +kernel⟩, ⟨_, rfl, by decide +kernel⟩, _, rfl, by decide +kernel⟩

/-- For each of the four. -/
theorem witness_EmptyStreamGivesZero :
    let s := setUp c82 0x07 [] table2
    s.dataLen = 0#32 ∧ remainderOf (exec (.divref 8) s) = some 0 ∧ remainderOf (exec (.divword 8) s) = some 0 ∧
      remainderOf (exec (.divsub 8) s) = some 0 ∧ remainderOf (exec (.divmulti 8) s) = some 0 := by decide +kernel

/-- A success and a failure. -/
theorem witness_DividersFrame :
    (∃ t, exec (.divsub 8) (setUp c82 0x07 [1, 2] table2) = .next t ∧ t.status.state = .done) ∧
      ∃ t, exec (.divsub 9) (setUp c82 0x07 [1, 2] table2) = .next t ∧ t.status.state = .error :=
  ⟨⟨_, rfl, by decide +kernel⟩, _, rfl, by decide +kernel⟩

/-- NORM, MKTBL, and a MKTBL that fails. -/
theorem witness_NormAndMktblFrame :
    (∃ t, exec (.norm 8 2) (setUp c82 0x07 [1] table4) = .next t) ∧
      (∃ t, exec (.mktbl 8 2) (setUp c82 0x07 [1] table4) = .next t) ∧
      ∃ t, exec (.mktbl 8 33) (setUp c82 0x07 [1] table4) = .next t ∧ t.status.state = .error :=
  ⟨⟨_, rfl⟩, ⟨_, rfl⟩, _, rfl, by decide +kernel⟩

/-- Stores that differ only above the two lengths. -/
theorem witness_DividersReadOnlyStreamAndTable :
    let s := setUp c82 0x07 [1, 2] table2
    let s' : State := { s with data := listed 2 0 [1, 2, 3], table := listed 8 0 table4 }
    (∀ j, j < s.dataLen.toNat → s'.dataAt j = s.dataAt j) ∧ (∀ j, j < s.tableLen.toNat → s'.tableAt j = s.tableAt j) ∧
      (s'.dataAt 2).toNat = 3 := by decide +kernel

/-- A NORM that succeeds, one that fails, a MKTBL. -/
theorem witness_NormResultsAreNotOperands :
    let s := setUp c88 0x07 [1] table2
    (∃ t, exec (.norm 8 8) s = .next t ∧ t.status.state = .done) ∧
      (∃ t, exec (.norm 8 9) s = .next t ∧ t.status.state = .error) ∧ ∃ t, exec (.mktbl 8 2) s = .next t :=
  ⟨⟨_, rfl, by decide +kernel⟩, ⟨_, rfl, by decide +kernel⟩, _, rfl⟩

/-- A state in the middle of an operation meets the invariant, and steps. -/
theorem running_inv : (running (setUp c88 0x07 [0x01] table2)).Inv where
  dataWf := by decide
  tableWf := by decide
  dataRange := by decide +kernel
  tableRange := by decide +kernel
  tableLenLegal := by decide +kernel
  seqIdle := by simp [running]
  statusConsistent := ⟨fun _ => rfl, fun h => (by cases h), fun h => (by cases h)⟩
  lastopOfCmd := by decide
  seqBounded := ⟨.divref 8, by decide, rfl⟩

theorem witness_StepKeepsInvariant :
    let s := running (setUp c88 0x07 [0x01] table2)
    s.Inv ∧ ∃ t, step s = .next t := ⟨running_inv, _, rfl⟩

theorem witness_SequencerReachesTheAtomicResult : (setUp c82 0x07 [1, 2, 3] table4).status.state ≠ .busy := by decide

theorem witness_RunningOperationEnds :
    let s := running (setUp c88 0x07 [0x01] table2)
    s.Inv ∧ s.pending = [] ∧ s.status.state = .busy := ⟨running_inv, rfl, rfl⟩

/-- A reset in the middle of an operation. -/
theorem witness_ResetGivesTheResetValues :
    (hostDoes [.reset] (running (setUp c88 0x07 [0x01] table2))).pending = .reset :: [] := rfl

/-- The invariant of an idle state with any host action to come. -/
theorem idle_inv (es : List Event) : (hostDoes es (setUp c88 0x07 [0x01] table2)).Inv where
  dataWf := by show Memory.wf (listed 8 0 [0x01]); decide
  tableWf := by show Memory.wf (listed 8 0 table2); decide
  dataRange := by show ∀ e ∈ listed 8 0 [0x01], e.1 < 2 ^ 32 - 1; decide +kernel
  tableRange := by show ∀ e ∈ listed 8 0 table2, e.1 < 2 ^ 32; decide +kernel
  tableLenLegal := by show (4#33).toNat ≤ 2 ^ 32; decide +kernel
  seqIdle := by simp [hostDoes, setUp, State.resetAt]
  statusConsistent := ⟨fun _ => rfl, fun h => (by cases h), fun _ => rfl⟩
  lastopOfCmd := by show (0#3) = cmdOp 0#32; decide
  seqBounded := trivial

/-- Each clause: an idle state left alone, a legal and an illegal word started, a word written, STATUS changed. -/
theorem witness_StateTransitions :
    let s := fun es => hostDoes es (setUp c88 0x07 [0x01] table2)
    (∀ es, (s es).Inv) ∧ (∃ t, step (s [.tick]) = .next t ∧ t.status.state = .idle) ∧
      (∃ t, step (s [.startCmd (0x00000802#32).toNat]) = .next t ∧ decode 0x00000802#32 = .ok (.divref 8)) ∧
      (∃ t, step (s [.startCmd (0x00000007#32).toNat]) = .next t ∧ decode 0x00000007#32 = .illegal .reservedOp) ∧
      ∃ t, step (s [.writeReg 0 (0x00000802#32).toNat]) = .next t ∧ t.status ≠ (s []).status :=
  ⟨idle_inv, ⟨_, rfl, by decide⟩, ⟨_, rfl, by decide⟩, ⟨_, rfl, by decide⟩, _, rfl, by decide +kernel⟩

/-- A read of a result register, of an operand register while BUSY, of a result register while BUSY; of the last TABLE
entry, idle and BUSY. -/
theorem witness_HostReadHasNoSideEffect :
    let s := setUp c88 0x07 [0x01] table2
    (hostDoes [.readReg 5] s).pending = .readReg Reg.rem.number :: [] ∧
      (hostDoes [.readReg 2] (running s)).pending = .readReg Reg.gen.number :: [] ∧
      (hostDoes [.readReg 4] (running s)).pending = .readReg Reg.tableLen.number :: [] ∧
      (s.status.state ≠ .busy) ∧ (Reg.gen ∈ [Reg.cmd, .status, .gen, .dataLen]) ∧
      (hostDoes [.readTable (2 ^ 32 - 1)] s).pending = .readTable (2 ^ 32 - 1) :: [] ∧ 2 ^ 32 - 1 < 2 ^ 32 ∧
      (hostDoes [.readTable 3] (running s)).pending = .readTable 3 :: [] := by decide +kernel

/-- Each clause, with the largest value. -/
theorem witness_HostWritesOperandRegisters :
    let s := fun es => hostDoes es (setUp c88 0x07 [0x01] table2)
    (∀ es, (s es).status.state ≠ .busy) ∧
      (s [.writeReg 2 0xFF]).pending = .writeReg 2 (0xFF#8).toNat :: [] ∧
      (s [.writeReg 3 (2 ^ 32 - 1)]).pending = .writeReg 3 (0xFFFFFFFF#32).toNat :: [] ∧
      (0x100000000#33).toNat ≤ 2 ^ 32 ∧ (s [.writeReg 4 (2 ^ 32)]).pending = .writeReg 4 (0x100000000#33).toNat :: [] :=
  ⟨fun _ => by simp [hostDoes, setUp, State.resetAt], rfl, rfl, by decide, rfl⟩

/-- Each clause. -/
theorem witness_IgnoredHostWrites :
    let s := setUp c88 0x07 [0x01] table2
    (1 ∈ [1, 5, 6, 7, 8, 9] ∧ (hostDoes [.writeReg 1 0] s).pending = .writeReg 1 0 :: []) ∧
      (9 ∈ [1, 5, 6, 7, 8, 9] ∧ (hostDoes [.writeReg 9 3] (running s)).pending = .writeReg 9 3 :: []) ∧
      (running s).status.state = .busy ∧
      (hostDoes [.writeReg 0 (0x802#32).toNat] (running s)).pending = .writeReg 0 (0x802#32).toNat :: [] ∧
      (hostDoes [.startCmd (0x802#32).toNat] (running s)).pending = .startCmd (0x802#32).toNat :: [] := by decide

/-- Each clause, at its boundary. -/
theorem witness_RefusedHostAccesses :
    let s := fun es => hostDoes es (setUp c88 0x07 [0x01] table2)
    let b := fun es => hostDoes es (running (setUp c88 0x07 [0x01] table2))
    (9 < 10 ∧ (s [.writeReg 10 0]).pending = .writeReg 10 0 :: []) ∧ (s [.readReg 10]).pending = .readReg 10 :: [] ∧
      ((s []).status.state ≠ .busy ∧ 2 ^ 32 < 2 ^ 32 + 1 ∧
        (s [.writeReg 4 (2 ^ 32 + 1)]).pending = .writeReg 4 (2 ^ 32 + 1) :: []) ∧
      ((b []).status.state = .busy ∧ 4 ∈ [2, 3, 4] ∧ (b [.writeReg 4 0]).pending = .writeReg 4 0 :: []) ∧
      2 ^ 32 - 2 < 2 ^ 32 - 1 ∧ (b [.writeData (2 ^ 32 - 2) 0]).pending = .writeData (2 ^ 32 - 2) 0 :: [] ∧
      (2 ^ 32 - 1 < 2 ^ 32 ∧ (b [.writeTable (2 ^ 32 - 1) 0]).pending = .writeTable (2 ^ 32 - 1) 0 :: []) ∧
      ((s [.writeReg 2 256]).pending = .writeReg 2 256 :: [] ∧ 2 ^ (s []).cfg.gw ≤ 256) ∧
      ((s [.writeReg 3 (2 ^ 32)]).pending = .writeReg 3 (2 ^ 32) :: [] ∧ 2 ^ 32 ≤ 2 ^ 32) ∧
      ((s [.writeData 0 256]).pending = .writeData 0 256 :: [] ∧ 0 < 2 ^ 32 - 1 ∧ 2 ^ (s []).cfg.w ≤ 256) ∧
      ((s [.writeTable 0 256]).pending = .writeTable 0 256 :: [] ∧ 2 ^ (s []).cfg.gw ≤ 256) ∧
      (s [.writeReg 0 (2 ^ 32)]).pending = .writeReg 0 (2 ^ 32) :: [] ∧
      (s [.startCmd (2 ^ 32)]).pending = .startCmd (2 ^ 32) :: [] ∧
      ((s [.writeData (2 ^ 32 - 1) 0]).pending = .writeData (2 ^ 32 - 1) 0 :: [] ∧ 2 ^ 32 - 1 ≤ 2 ^ 32 - 1) ∧
      (s [.writeTable (2 ^ 32) 0]).pending = .writeTable (2 ^ 32) 0 :: [] ∧
      (b [.readTable (2 ^ 32)]).pending = .readTable (2 ^ 32) :: [] := by decide +kernel

/-- Each clause, at the last index of the store. -/
theorem witness_HostWritesOneElement :
    let s := fun es => hostDoes es (setUp c88 0x07 [0x01] table2)
    (s []).status.state ≠ .busy ∧ 2 ^ 32 - 2 < 2 ^ 32 - 1 ∧
      (s [.writeData (2 ^ 32 - 2) (0xAB#8).toNat]).pending = .writeData (2 ^ 32 - 2) (0xAB#8).toNat :: [] ∧
      2 ^ 32 - 1 < 2 ^ 32 ∧
      (s [.writeTable (2 ^ 32 - 1) (0xAB#8).toNat]).pending = .writeTable (2 ^ 32 - 1) (0xAB#8).toNat :: [] := by
  decide +kernel

/-- Each clause, at its boundary. -/
theorem witness_SourceCallsPresentOnlyWhatFits :
    256 ≤ (SourceCall.divideNoTable 256 0x07 [1]).command.degree ∧
      (SourceCall.divideNoTable 255 0x07 [1]).command.wf = true ∧
      (SourceCall.buildTable 255 0x07 255).command.wf = true ∧
      (SourceCall.normalize 255 0x07 256).command.wf = false ∧ (SourceCall.buildTable 255 0x07 256).command.wf = false ∧
      255 < 256 ∧ 256 ≤ 256 := by decide

end Sys2Proof.Tests
end

section
/-! PROOFS. DIVREF read over GF(2) (00_scope.md R12): the low `degree` bits of the running remainder, as a residue modulo
the generator polynomial. A bit step multiplies the residue by x, absorbing a word adds `word * x^(degree - W)`; the bits at
and above `degree` are never looked at (41_reference_divider.md R73). -/

namespace Sys2Proof.Machine

open Polynomial

/-! ### The low bits of a vector as a polynomial -/

/-- The low `d` bits of a vector as a polynomial over GF(2). -/
noncomputable def lowPoly {n : Nat} (d : Nat) (v : BitVec n) : (ZMod 2)[X] :=
  ∑ i ∈ Finset.range d, if v.getLsbD i then X ^ i else 0

theorem polyOf_eq_lowPoly {n : Nat} (v : BitVec n) : polyOf v = lowPoly n v := rfl

theorem generatorPoly_eq {n : Nat} (d : Nat) (gen : BitVec n) : generatorPoly d gen = X ^ d + lowPoly d gen := rfl

@[simp] theorem coeff_lowPoly {n : Nat} (d : Nat) (v : BitVec n) (i : Nat) :
    (lowPoly d v).coeff i = if i < d ∧ v.getLsbD i then 1 else 0 := by
  have hterm : ∀ j, (if v.getLsbD j then (X ^ j : (ZMod 2)[X]) else 0).coeff i =
      if i = j then (if v.getLsbD j then 1 else 0) else 0 := by
    intro j; by_cases hv : v.getLsbD j <;> simp [hv, coeff_X_pow]
  simp only [lowPoly, finsetSum_coeff, hterm, Finset.sum_ite_eq, Finset.mem_range, ite_and]

@[simp] theorem lowPoly_zero {n : Nat} (d : Nat) : lowPoly d 0#n = 0 := by simp [lowPoly]

/-- XOR is polynomial addition (R12). -/
@[simp] theorem lowPoly_xor {n : Nat} (d : Nat) (a b : BitVec n) :
    lowPoly d (a ^^^ b) = lowPoly d a + lowPoly d b := by
  ext i
  by_cases hi : i < d
  · cases ha : a.getLsbD i <;> cases hb : b.getLsbD i <;> simp [hi, ha, hb, CharTwo.add_self_eq_zero]
  · simp [hi]

theorem getLsbD_maskOf (n d i : Nat) : (maskOf n d).getLsbD i = (decide (i < n) && decide (i < d)) := by
  simp [maskOf, BitVec.getLsbD_ofNat, Nat.testBit_two_pow_sub_one]

/-- Masking does not touch the bits below the degree. -/
theorem lowPoly_and_maskOf {n d : Nat} (v : BitVec n) (hd : d ≤ n) : lowPoly d (v &&& maskOf n d) = lowPoly d v := by
  ext i
  by_cases hi : i < d
  · simp [hi, getLsbD_maskOf, show i < n by omega]
  · simp [hi]

/-- A masked vector has nothing but its low bits. -/
theorem polyOf_and_maskOf {n d : Nat} (v : BitVec n) (hd : d ≤ n) : polyOf (v &&& maskOf n d) = lowPoly d v := by
  rw [polyOf_eq_lowPoly]
  ext i
  by_cases hi : i < d
  · simp [hi, getLsbD_maskOf, show i < n by omega]
  · simp [hi, getLsbD_maskOf]

/-- Multiplication by x is a shift by one whose bit `d - 1` leaves the low bits (R12). -/
theorem X_mul_lowPoly {n d : Nat} (v : BitVec n) (h1 : 1 ≤ d) (hd : d ≤ n) :
    X * lowPoly d v = lowPoly d (v <<< 1) + if v.getLsbD (d - 1) then X ^ d else 0 := by
  have htop : ∀ i, (if v.getLsbD (d - 1) then (X ^ d : (ZMod 2)[X]) else 0).coeff i =
      if i = d ∧ v.getLsbD (d - 1) then 1 else 0 := by
    intro i; by_cases hv : v.getLsbD (d - 1) <;> simp [hv, coeff_X_pow]
  ext i
  rw [coeff_add, htop, coeff_lowPoly]
  cases i with
  | zero => simp; omega
  | succ i =>
    rw [coeff_X_mul, coeff_lowPoly]
    rcases Nat.lt_trichotomy (i + 1) d with hi | hi | hi
    · simp [hi, show i < d by omega, show i + 1 < n by omega, show i + 1 ≠ d by omega, -BitVec.getLsbD_eq_getElem]
    · subst hi; simp
    · simp [show ¬ i < d by omega, show ¬ i + 1 < d by omega, show i + 1 ≠ d by omega]

/-- A word shifted to the top of the low `d` bits is the word's polynomial times `x^(d - W)`. -/
theorem lowPoly_shl_zext {gw w d : Nat} (word : BitVec w) (hw : w ≤ d) (hd : d ≤ gw) :
    lowPoly d (shl (zext gw word) (d - w)) = X ^ (d - w) * polyOf word := by
  ext i
  rw [coeff_X_pow_mul', polyOf_eq_lowPoly, coeff_lowPoly, coeff_lowPoly, getLsbD_shl, zext, BitVec.getLsbD_setWidth]
  by_cases hlo : i < d - w
  · simp [hlo, show ¬ d - w ≤ i by omega]
  by_cases hi : i < d
  · simp [hlo, hi, show i < gw by omega, show d - w ≤ i by omega, show i - (d - w) < gw by omega,
      show i - (d - w) < w by omega]
  · simp [hi, show d - w ≤ i by omega, show ¬ i - (d - w) < w by omega]

/-! ### The generator polynomial -/

theorem degree_lowPoly_lt {n : Nat} (d : Nat) (v : BitVec n) : (lowPoly d v).degree < d := by
  rw [degree_lt_iff_coeff_zero]
  intro i hi
  simp [show ¬ i < d by omega]

theorem generatorPoly_monic {n : Nat} (d : Nat) (gen : BitVec n) : (generatorPoly d gen).Monic :=
  monic_X_pow_add (degree_lowPoly_lt d gen)

theorem degree_generatorPoly {n : Nat} (d : Nat) (gen : BitVec n) : (generatorPoly d gen).degree = d := by
  rw [generatorPoly_eq, degree_add_eq_left_of_degree_lt] <;> rw [degree_X_pow]
  exact degree_lowPoly_lt d gen

/-! ### Residues modulo the generator polynomial -/

/-- The low `d` bits of a running remainder modulo the generator polynomial. -/
noncomputable def residue {gw : Nat} (d : Nat) (gen r : BitVec gw) : AdjoinRoot (generatorPoly d gen) :=
  AdjoinRoot.mk (generatorPoly d gen) (lowPoly d r)

/-- The test of the bit step (41_reference_divider.md R72) looks at bit `d - 1`. -/
theorem and_carryOf_eq_zero_iff {gw d : Nat} (r : BitVec gw) (h1 : 1 ≤ d) (hd : d ≤ gw) :
    r &&& carryOf gw d = 0#gw ↔ r.getLsbD (d - 1) = false := by
  have hbit : ∀ i, (carryOf gw d).getLsbD i = decide (i = d - 1) := by
    intro i
    simp only [carryOf, BitVec.getLsbD_ofNat, Nat.testBit_two_pow, eq_comm (a := d - 1)]
    by_cases hi : i = d - 1 <;> simp [hi]; omega
  constructor
  · intro h
    simpa [hbit] using congrArg (·.getLsbD (d - 1)) h
  · intro h
    apply BitVec.eq_of_getLsbD_eq
    intro i _
    by_cases hi : i = d - 1 <;> simp [hbit, hi, h]

/-- A bit step multiplies by x and, when x^d appears, takes the generator polynomial off again. -/
theorem lowPoly_bitStep {gw d : Nat} (gen r : BitVec gw) (h1 : 1 ≤ d) (hd : d ≤ gw) :
    lowPoly d (bitStep (gen &&& maskOf gw d) (carryOf gw d) r) =
      X * lowPoly d r + if r.getLsbD (d - 1) then generatorPoly d gen else 0 := by
  rw [X_mul_lowPoly r h1 hd, bitStep_eq]
  have htest := and_carryOf_eq_zero_iff r h1 hd
  cases hb : r.getLsbD (d - 1) with
  | false => simp [htest.2 hb]
  | true =>
    have hcancel : (X ^ d + X ^ d : (ZMod 2)[X]) = 0 := CharTwo.add_self_eq_zero _
    rw [if_neg (by simp [htest, hb]), lowPoly_xor, lowPoly_and_maskOf gen hd, generatorPoly_eq, if_pos rfl, if_pos rfl]
    linear_combination -hcancel

theorem residue_bitStep {gw d : Nat} (gen r : BitVec gw) (h1 : 1 ≤ d) (hd : d ≤ gw) :
    residue d gen (bitStep (gen &&& maskOf gw d) (carryOf gw d) r) = AdjoinRoot.root _ * residue d gen r := by
  rw [residue, lowPoly_bitStep gen r h1 hd]
  split <;> simp [residue]

theorem residue_repeat_bitStep {gw d : Nat} (gen r : BitVec gw) (h1 : 1 ≤ d) (hd : d ≤ gw) (n : Nat) :
    residue d gen (repeatTimes n (bitStep (gen &&& maskOf gw d) (carryOf gw d)) r) =
      AdjoinRoot.root _ ^ n * residue d gen r := by
  induction n with
  | zero => simp [repeatTimes]
  | succ n ih => rw [repeatTimes, residue_bitStep gen _ h1 hd, ih, pow_succ', mul_assoc]

/-- Absorbing a word adds it at the top of the low `d` bits (41_reference_divider.md R75). -/
theorem residue_absorb {gw w d : Nat} (gen r : BitVec gw) (word : BitVec w) (hw : w ≤ d) (hd : d ≤ gw) :
    residue d gen (absorb r word (d - w)) =
      residue d gen r + AdjoinRoot.root _ ^ (d - w) * AdjoinRoot.mk _ (polyOf word) := by
  simp [residue, absorb, lowPoly_shl_zext word hw hd]

/-! ### DIVREF -/

section Divref

variable {gw w d : Nat} {gen : BitVec gw} {p : Params gw}

/-- One word of DIVREF, on residues: `r * x^W + word * x^degree`. -/
theorem residue_divrefWord (hp : normalize d gen w = .passes p) (r : BitVec gw) (word : BitVec w) :
    residue d gen (divrefWord p r word) =
      AdjoinRoot.root _ ^ w * residue d gen r + AdjoinRoot.root _ ^ d * AdjoinRoot.mk _ (polyOf word) := by
  obtain ⟨⟨h1, hd, hw⟩, rfl⟩ := normalize_passes_iff.1 hp
  rw [divrefWord, residue_repeat_bitStep gen _ h1 hd, residue_absorb gen r word hw hd, mul_add, ← mul_assoc,
    ← pow_add, show w + (d - w) = d by omega]

/-- DIVREF's running remainder over a list of words is the message polynomial times `x^degree`, on residues. -/
theorem residue_foldl_divrefWord (hp : normalize d gen w = .passes p) (ws : List (BitVec w)) :
    residue d gen (ws.foldl (divrefWord p) 0#gw) = AdjoinRoot.mk _ (messagePoly ws * X ^ d) := by
  induction ws using List.reverseRecOn with
  | nil => simp [residue, messagePoly]
  | append_singleton ws x ih =>
    have hmsg : messagePoly (ws ++ [x]) = messagePoly ws * X ^ w + polyOf x := by simp [messagePoly]
    rw [List.foldl_append, List.foldl_cons, List.foldl_nil, residue_divrefWord hp, ih, hmsg]
    simp only [map_mul, map_add, map_pow, AdjoinRoot.mk_X]
    ring

end Divref

/-- The low bits are the remainder of every polynomial with the same residue: their degree is below that of the
generator polynomial. -/
theorem lowPoly_eq_modByMonic {gw d : Nat} {gen r : BitVec gw} {M : (ZMod 2)[X]}
    (h : residue d gen r = AdjoinRoot.mk _ M) : lowPoly d r = M %ₘ generatorPoly d gen := by
  have hmonic := generatorPoly_monic d gen
  have hlt : (lowPoly d r).degree < (generatorPoly d gen).degree :=
    degree_generatorPoly d gen ▸ degree_lowPoly_lt d r
  rw [← (modByMonic_eq_self_iff hmonic).2 hlt]
  exact modByMonic_eq_of_dvd_sub hmonic (AdjoinRoot.mk_eq_mk.1 h)

/-- The machine's loop is a fold over the data stream (20_memory.md R34). -/
theorem divrefLoop_eq_foldl_stream (s : State) (p : Params s.cfg.gw) :
    divrefLoop p s.dataAt s.dataLen.toNat = s.stream.foldl (divrefWord p) 0#s.cfg.gw := by
  rw [divrefLoop, loopUpTo_eq_foldl, State.stream, List.foldl_map]

/-- DIVREF ends in DONE only when its checks pass, and then with the masked running remainder in REM. -/
theorem execDivref_done {s t : State} {d : Nat} (h : exec (.divref d) s = .next t) (hdone : t.status.state = .done) :
    ∃ p, normalize d s.gen s.cfg.w = .passes p ∧
      t = finish { s with rem := s.stream.foldl (divrefWord p) 0#s.cfg.gw &&& p.mask } := by
  rw [exec] at h
  rcases hc : divrefChecks s d with f | p
  · rw [execDivref_fails hc] at h
    cases h
    cases hdone
  · rw [execDivref_passes hc, divrefLoop_eq_foldl_stream] at h
    cases h
    exact ⟨p, hc, rfl⟩

/-- Settles O15: on residues modulo the generator polynomial a word is `r * x^W + word * x^degree`, and the masked
remainder has degree below the generator's. -/
theorem divrefIsThePolynomialRemainder : Obligations.DivrefIsThePolynomialRemainder := by
  intro s t d h hdone
  obtain ⟨p, hp, rfl⟩ := execDivref_done h hdone
  have hd : d ≤ s.cfg.gw := (normalize_passes_iff.1 hp).1.2.1
  have hmask : p.mask = maskOf s.cfg.gw d := by rw [(normalize_passes_iff.1 hp).2]
  calc polyOf (s.stream.foldl (divrefWord p) 0#s.cfg.gw &&& p.mask)
      = lowPoly d (s.stream.foldl (divrefWord p) 0#s.cfg.gw) := by rw [hmask, polyOf_and_maskOf _ hd]
    _ = (messagePoly s.stream * X ^ d) %ₘ generatorPoly d s.gen :=
        lowPoly_eq_modByMonic (residue_foldl_divrefWord hp s.stream)

end Sys2Proof.Machine
end

section
/-! PROOFS. The command word's fields, read off the decoder, and the fields of STATUS (30_encoding.md R51, R58;
10_state.md R22). -/

namespace Sys2Proof.Machine

/-- A divider's word decodes only with SIZE 0 (30_encoding.md R57). -/
theorem decodeDivider_ok {c : Command} {mk : Nat → Instr} {i : Instr} (h : decodeDivider c mk = .ok i) :
    cmdSize c = 0#8 ∧ i = mk (cmdDegree c).toNat := by
  unfold decodeDivider at h
  split at h
  · cases h
  · rename_i hsize
    cases h
    exact ⟨by simpa using hsize, rfl⟩

/-- A decoded command's operands are the word's fields, for every operation (30_encoding.md R53, R54). -/
theorem decode_ok_operands {c : Command} {i : Instr} (h : decode c = .ok i) :
    i.degree = (cmdDegree c).toNat ∧ i.size = (cmdSize c).toNat := by
  have divider : ∀ mk : Nat → Instr, (∀ d, (mk d).degree = d ∧ (mk d).size = 0) → decodeDivider c mk = .ok i →
      i.degree = (cmdDegree c).toNat ∧ i.size = (cmdSize c).toNat := by
    intro mk hmk hi
    obtain ⟨hsize, rfl⟩ := decodeDivider_ok hi
    simp [hmk, hsize]
  unfold decode at h
  split at h
  · cases h
  split at h
  · cases h; exact ⟨rfl, rfl⟩
  split at h
  · exact divider .divref (fun _ => ⟨rfl, rfl⟩) h
  split at h
  · cases h; exact ⟨rfl, rfl⟩
  split at h
  · exact divider .divword (fun _ => ⟨rfl, rfl⟩) h
  split at h
  · exact divider .divsub (fun _ => ⟨rfl, rfl⟩) h
  split at h
  · exact divider .divmulti (fun _ => ⟨rfl, rfl⟩) h
  · cases h

/-- The bits of the STATUS register: the field each one belongs to (10_state.md R22). -/
theorem Status.getLsbD_word (st : Status) (i : Nat) :
    st.word.getLsbD i =
      if i < 2 then st.state.code.getLsbD i
      else if i < 8 then false
      else if i < 16 then st.err.getLsbD (i - 8)
      else st.lastop.getLsbD (i - 16) := by
  have happ : st.word.getLsbD i =
      BitVec.getLsbD (w := 13 + 3 + 8 + 6 + 2) (0#13 ++ st.lastop ++ st.err ++ 0#6 ++ st.state.code) i := rfl
  simp only [happ, BitVec.getLsbD_append, Nat.sub_sub]
  grind

/-- Settles O45: each field is the range of bits that `Status.word` gives it. -/
theorem statusWordLayout : Obligations.StatusWordLayout := by
  refine ⟨fun st => ⟨?_, ?_, ?_, ?_, ?_⟩, rfl, rfl, rfl, rfl⟩ <;>
  · apply BitVec.eq_of_getLsbD_eq
    intro i hi
    simp only [BitVec.getLsbD_extractLsb', Status.getLsbD_word, hi]
    grind

end Sys2Proof.Machine
end

section
/-! PROOFS. How an operation ends and what it leaves alone (10_state.md R23, R27), from the inversion of `exec`. -/

namespace Sys2Proof.Machine

/-- An operation always answers a next state (60_exceptions.md R125, R136): a failed check ends it in `raise`, passed
checks in `finish`. -/
theorem exec_next (i : Instr) (s : State) : ∃ t, exec i s = .next t := by
  cases i with
  | norm d c =>
    rcases hc : normChecks s d c with f | p
    · exact ⟨_, execNorm_fails hc⟩
    · exact ⟨_, execNorm_passes hc⟩
  | divref d =>
    rcases hc : divrefChecks s d with f | p
    · exact ⟨_, execDivref_fails hc⟩
    · exact ⟨_, execDivref_passes hc⟩
  | mktbl d n =>
    rcases hc : mktblChecks s d n with f | p
    · exact ⟨_, execMktbl_fails hc⟩
    · exact ⟨_, execMktbl_passes hc⟩
  | divword d =>
    rcases hc : divwordChecks s d with f | p
    · exact ⟨_, execDivword_fails hc⟩
    · exact ⟨_, execDivword_passes hc⟩
  | divsub d =>
    rcases hc : divsubChecks s d with f | ⟨B, p⟩
    · exact ⟨_, execDivsub_fails hc⟩
    · exact ⟨_, execDivsub_passes hc⟩
  | divmulti d =>
    rcases hc : divmultiChecks s d with f | ⟨B, p⟩
    · exact ⟨_, execDivmulti_fails hc⟩
    · exact ⟨_, execDivmulti_passes hc⟩

/-- The two ends of an operation that is running with STATUS `st` (10_state.md R23, 60_exceptions.md R136). -/
def Status.Ends (st st' : Status) : Prop := st' = st.finished ∨ ∃ f, st' = st.failed f

theorem Status.Ends.state {st st' : Status} (h : st.Ends st') : st'.state = .done ∨ st'.state = .error := by
  obtain rfl | ⟨f, rfl⟩ := h
  · exact .inl rfl
  · exact .inr rfl

theorem Status.Ends.not_idle {st st' : Status} (h : st.Ends st') : st'.state ≠ .idle := by
  rcases h.state with h | h <;> rw [h] <;> nofun

theorem Status.Ends.lastop {st st' : Status} (h : st.Ends st') : st'.lastop = st.lastop := by
  obtain rfl | ⟨f, rfl⟩ := h <;> rfl

theorem Status.Ends.err_of_done {st st' : Status} (h : st.Ends st') (hdone : st'.state = .done) :
    st'.err = st.err := by
  obtain rfl | ⟨f, rfl⟩ := h
  · rfl
  · cases hdone

/-- An operation ends STATUS and leaves the sequencer Idle. -/
theorem exec_ends {i : Instr} {s t : State} (h : exec i s = .next t) : t.seq = .idle ∧ s.status.Ends t.status := by
  obtain ⟨f, rfl⟩ | ⟨d, c, p, -, rfl⟩ | ⟨d, n, p, -, -, rfl⟩ | ⟨-, v, rfl⟩ := exec_cases h
  · exact ⟨rfl, .inr ⟨f, rfl⟩⟩
  all_goals exact ⟨rfl, .inl rfl⟩

/-- Settles O8: an operation ends by `finish` or by `raise`. -/
theorem everyOperationEnds : Obligations.EveryOperationEnds := by
  intro i s
  obtain ⟨t, ht⟩ := exec_next i s
  obtain ⟨hseq, hends⟩ := exec_ends ht
  exact ⟨t, ht, hends.state, hseq, hends.lastop, hends.err_of_done⟩

theorem sameRegsExcept_raise (rs : List Reg) (f : Failure) (s : State) :
    sameRegsExcept (.status :: rs) s (raise f s) := by
  intro r hr
  cases r
  case status => simp at hr
  all_goals rfl

/-- A failure leaves everything but STATUS and seq alone (60_exceptions.md R136). -/
theorem raise_frame (rs : List Reg) (f : Failure) (s : State) :
    sameRegsExcept (.status :: rs) s (raise f s) ∧ sameData s (raise f s) ∧ sameTableFrom 0 s (raise f s) ∧
      sameEnvelope s (raise f s) :=
  ⟨sameRegsExcept_raise rs f s, fun _ => rfl, fun _ _ => rfl, rfl, rfl, rfl, rfl, rfl⟩

/-- Settles O40: a divider fails, or writes REM and finishes. -/
theorem dividersFrame : Obligations.DividersFrame := by
  intro s t d i hi h
  obtain ⟨f, rfl⟩ | ⟨_, _, _, hn, -⟩ | ⟨_, _, _, hm, -, -⟩ | ⟨-, v, rfl⟩ := exec_cases h
  · obtain ⟨hregs, hdata, htable, henv⟩ := raise_frame [.rem] f s
    exact ⟨hregs, hdata, htable, henv, fun _ => rfl⟩
  · simp [hn] at hi
  · simp [hm] at hi
  · refine ⟨fun r hr => ?_, fun _ => rfl, fun _ _ => rfl, ⟨rfl, rfl, rfl, rfl, rfl⟩, fun herr => by cases herr⟩
    cases r
    case status => simp at hr
    case rem => simp at hr
    all_goals rfl

theorem execNorm_frame {s t : State} {d n : Nat} (h : exec (.norm d n) s = .next t) :
    sameRegsExcept [.status, .ngen, .nshift, .ncarry, .nmask] s t ∧ sameData s t ∧ sameTableFrom 0 s t ∧
      sameEnvelope s t := by
  obtain ⟨f, rfl⟩ | ⟨_, _, p, -, rfl⟩ | ⟨_, _, _, hm, -, -⟩ | ⟨⟨d', hd⟩, -⟩ := exec_cases h
  · exact raise_frame [.ngen, .nshift, .ncarry, .nmask] f s
  · refine ⟨fun r hr => ?_, fun _ => rfl, fun _ _ => rfl, rfl, rfl, rfl, rfl, rfl⟩
    simp only [List.mem_cons, not_or] at hr
    cases r
    case cmd | gen | dataLen | tableLen | rem => rfl
    all_goals simp at hr
  · cases hm
  · simp at hd

theorem execMktbl_frame {s t : State} {d n : Nat} (h : exec (.mktbl d n) s = .next t) :
    sameRegsExcept [.status, .tableLen] s t ∧ sameData s t ∧ sameTableFrom (2 ^ n) s t ∧ sameEnvelope s t ∧
      (t.status.state = .error → sameTableFrom 0 s t ∧ t.tableLen = s.tableLen) := by
  obtain ⟨f, rfl⟩ | ⟨_, _, _, hn, -⟩ | ⟨_, _, p, hm, -, rfl⟩ | ⟨⟨d', hd⟩, -⟩ := exec_cases h
  · obtain ⟨hregs, hdata, htable, henv⟩ := raise_frame [.tableLen] f s
    exact ⟨hregs, hdata, fun _ _ => rfl, henv, fun _ => ⟨htable, rfl⟩⟩
  · cases hn
  · cases hm
    refine ⟨fun r hr => ?_, fun _ => rfl, fun j hj => ?_, ⟨rfl, rfl, rfl, rfl, rfl⟩, fun herr => by cases herr⟩
    · cases r
      case status => simp at hr
      case tableLen => simp at hr
      all_goals rfl
    · simp [State.tableAt, find_buildTable_of_le p n s.table hj]
  · simp at hd

/-- Settles O41: NORM and MKTBL fail, or write what 10_state.md R27 lists for them. -/
theorem normAndMktblFrame : Obligations.NormAndMktblFrame :=
  fun _ _ _ _ => ⟨execNorm_frame, execMktbl_frame⟩

end Sys2Proof.Machine
end

section
/-! PROOFS. The host port (10_state.md R14, R30; 70_reset_and_hazards.md R150, R151, R153): which event a step takes,
what each event does in each case, and, said once, all that an event can do. -/

namespace Sys2Proof.Machine

/-! ### A step takes the host's next event -/

theorem step_of_pending {s : State} {e : Event} {rest : List Event} (h : s.pending = e :: rest) :
    step s = deliver e { s with pending := rest } := by
  simp only [step, h]

theorem step_of_pending_nil {s : State} (h : s.pending = []) : step s = .next (tick s) := by
  simp only [step, h]

@[simp] theorem State.busy_iff (s : State) : s.busy = true ↔ s.status.state = .busy := by
  simp [State.busy]

/-! ### Writes to registers -/

theorem hostWriteReg_ofNumber_none {n v : Nat} {s : State} (h : Reg.ofNumber n = none) :
    hostWriteReg n v s = .refused .noSuchRegister := by
  simp only [hostWriteReg, h]

theorem hostWriteReg_cmd {v : Nat} {s : State} (h : v < 2 ^ 32) :
    hostWriteReg 0 v s = commandWrite (BitVec.ofNat 32 v) s := if_pos h

theorem hostWriteReg_cmd_tooWide {v : Nat} {s : State} (h : 2 ^ 32 ≤ v) :
    hostWriteReg 0 v s = .refused .valueTooWide := if_neg (by omega)

theorem hostWriteReg_cmd_toNat (c : Command) (s : State) : hostWriteReg 0 c.toNat s = commandWrite c s := by
  rw [hostWriteReg_cmd c.isLt, BitVec.ofNat_toNat, BitVec.setWidth_eq]

theorem hostWriteReg_operand (r : Reg) {v : Nat} {s : State} (hr : r.isOperand = true)
    (hs : s.status.state ≠ .busy) : hostWriteReg r.number v s = writeOperand r v s := by
  cases r <;> simp_all [hostWriteReg, Reg.isOperand]

theorem hostWriteReg_operand_busy (r : Reg) {v : Nat} {s : State} (hr : r.isOperand = true)
    (hs : s.status.state = .busy) : hostWriteReg r.number v s = .refused .writeWhileBusy := by
  cases r <;> simp_all [hostWriteReg, Reg.isOperand]

theorem hostWriteReg_readOnly (r : Reg) (v : Nat) {s : State} (hr : r.isOperand = false) (hcmd : r ≠ .cmd) :
    hostWriteReg r.number v s = .next s := by
  cases r <;> simp_all [hostWriteReg, Reg.isOperand]

section Operands

variable {s : State} (hs : s.status.state ≠ .busy)

include hs

theorem hostWriteReg_gen (v : BitVec s.cfg.gw) : hostWriteReg 2 v.toNat s = .next { s with gen := v } := by
  rw [show 2 = Reg.gen.number from rfl, hostWriteReg_operand .gen rfl hs, writeOperand, if_pos v.isLt,
    BitVec.ofNat_toNat, BitVec.setWidth_eq]

theorem hostWriteReg_gen_tooWide {v : Nat} (hv : 2 ^ s.cfg.gw ≤ v) : hostWriteReg 2 v s = .refused .valueTooWide :=
  (hostWriteReg_operand .gen rfl hs).trans (if_neg (Nat.not_lt.2 hv))

theorem hostWriteReg_dataLen (v : BitVec 32) : hostWriteReg 3 v.toNat s = .next { s with dataLen := v } := by
  rw [show 3 = Reg.dataLen.number from rfl, hostWriteReg_operand .dataLen rfl hs, writeOperand, if_pos v.isLt,
    BitVec.ofNat_toNat, BitVec.setWidth_eq]

theorem hostWriteReg_dataLen_tooWide {v : Nat} (hv : 2 ^ 32 ≤ v) : hostWriteReg 3 v s = .refused .valueTooWide :=
  (hostWriteReg_operand .dataLen rfl hs).trans (if_neg (Nat.not_lt.2 hv))

theorem hostWriteReg_tableLen {v : BitVec 33} (hv : v.toNat ≤ 2 ^ 32) :
    hostWriteReg 4 v.toNat s = .next { s with tableLen := v } := by
  rw [show 4 = Reg.tableLen.number from rfl, hostWriteReg_operand .tableLen rfl hs, writeOperand, if_pos hv,
    BitVec.ofNat_toNat, BitVec.setWidth_eq]

theorem hostWriteReg_tableLen_tooLarge {v : Nat} (hv : 2 ^ 32 < v) :
    hostWriteReg 4 v s = .refused .tableLenTooLarge :=
  (hostWriteReg_operand .tableLen rfl hs).trans (if_neg (Nat.not_le.2 hv))

end Operands

/-! ### Commands -/

theorem commandWrite_busy {c : Command} {s : State} (h : s.status.state = .busy) : commandWrite c s = .next s :=
  if_pos (s.busy_iff.2 h)

theorem commandWrite_illegal {c : Command} {s : State} {why : Illegal} (hs : s.status.state ≠ .busy)
    (hc : decode c = .illegal why) : commandWrite c s = .next (raise .illegalCommand (takeCommand c s)) := by
  rw [commandWrite, if_neg (mt s.busy_iff.1 hs), hc]

theorem commandWrite_ok {c : Command} {s : State} {i : Instr} (hs : s.status.state ≠ .busy)
    (hc : decode c = .ok i) : commandWrite c s = exec i (takeCommand c s) := by
  rw [commandWrite, if_neg (mt s.busy_iff.1 hs), hc]

theorem commandStart_busy {c : Command} {s : State} (h : s.status.state = .busy) : commandStart c s = s :=
  if_pos (s.busy_iff.2 h)

theorem commandStart_illegal {c : Command} {s : State} {why : Illegal} (hs : s.status.state ≠ .busy)
    (hc : decode c = .illegal why) : commandStart c s = raise .illegalCommand (takeCommand c s) := by
  rw [commandStart, if_neg (mt s.busy_iff.1 hs), hc]

theorem commandStart_ok {c : Command} {s : State} {i : Instr} (hs : s.status.state ≠ .busy)
    (hc : decode c = .ok i) : commandStart c s = { takeCommand c s with seq := .check i.op } := by
  rw [commandStart, if_neg (mt s.busy_iff.1 hs), hc]

theorem deliver_startCmd {v : Nat} {s : State} (h : v < 2 ^ 32) :
    deliver (.startCmd v) s = .next (commandStart (BitVec.ofNat 32 v) s) := if_pos h

theorem deliver_startCmd_tooWide {v : Nat} {s : State} (h : 2 ^ 32 ≤ v) :
    deliver (.startCmd v) s = .refused .valueTooWide := if_neg (by omega)

theorem deliver_startCmd_toNat (c : Command) (s : State) :
    deliver (.startCmd c.toNat) s = .next (commandStart c s) := by
  rw [deliver_startCmd c.isLt, BitVec.ofNat_toNat, BitVec.setWidth_eq]

/-! ### The stores -/

theorem hostWriteData_outside {i v : Nat} {s : State} (h : 2 ^ 32 - 1 ≤ i) :
    hostWriteData i v s = .fault .noSuchElement := if_pos h

theorem hostWriteData_busy {i v : Nat} {s : State} (hi : i < 2 ^ 32 - 1) (hs : s.status.state = .busy) :
    hostWriteData i v s = .refused .writeWhileBusy := by
  rw [hostWriteData, if_neg (by omega), if_pos (s.busy_iff.2 hs)]

theorem hostWriteData_tooWide {i v : Nat} {s : State} (hi : i < 2 ^ 32 - 1) (hs : s.status.state ≠ .busy)
    (hv : 2 ^ s.cfg.w ≤ v) : hostWriteData i v s = .refused .valueTooWide := by
  rw [hostWriteData, if_neg (by omega), if_neg (mt s.busy_iff.1 hs), if_neg (by omega)]

theorem hostWriteTable_outside {i v : Nat} {s : State} (h : 2 ^ 32 ≤ i) :
    hostWriteTable i v s = .fault .noSuchElement := if_pos h

theorem hostWriteTable_busy {i v : Nat} {s : State} (hi : i < 2 ^ 32) (hs : s.status.state = .busy) :
    hostWriteTable i v s = .refused .writeWhileBusy := by
  rw [hostWriteTable, if_neg (by omega), if_pos (s.busy_iff.2 hs)]

theorem hostWriteTable_tooWide {i v : Nat} {s : State} (hi : i < 2 ^ 32) (hs : s.status.state ≠ .busy)
    (hv : 2 ^ s.cfg.gw ≤ v) : hostWriteTable i v s = .refused .valueTooWide := by
  rw [hostWriteTable, if_neg (by omega), if_neg (mt s.busy_iff.1 hs), if_neg (by omega)]

theorem hostReadTable_outside {i : Nat} {s : State} (h : 2 ^ 32 ≤ i) :
    hostReadTable i s = .fault .noSuchElement := if_pos h

theorem hostReadTable_busy {i : Nat} {s : State} (hi : i < 2 ^ 32) (hs : s.status.state = .busy) :
    hostReadTable i s = .next (answerDraw s.cfg.gw s) := by
  rw [hostReadTable, if_neg (by omega), if_pos (s.busy_iff.2 hs)]

theorem hostReadTable_idle {i : Nat} {s : State} (hi : i < 2 ^ 32) (hs : s.status.state ≠ .busy) :
    hostReadTable i s = .next (answer (s.tableAt i).toNat s) := by
  rw [hostReadTable, if_neg (by omega), if_neg (mt s.busy_iff.1 hs)]

/-! ### Reads of registers -/

theorem hostReadReg_ofNumber_none {n : Nat} {s : State} (h : Reg.ofNumber n = none) :
    hostReadReg n s = .refused .noSuchRegister := by
  simp only [hostReadReg, h]

theorem hostReadReg_draw {r : Reg} {s : State} (h : s.status.state = .busy ∧ r.isResult = true) :
    hostReadReg r.number s = .next (answerDraw (r.width s.cfg) s) := by
  simp [hostReadReg, h]

theorem hostReadReg_holds {r : Reg} {s : State} (h : ¬ (s.status.state = .busy ∧ r.isResult = true)) :
    hostReadReg r.number s = .next (answer (s.readReg r) s) := by
  simp [hostReadReg, h]

/-- A register's number fits its width (10_state.md R14). -/
theorem State.readReg_lt (s : State) (r : Reg) : s.readReg r < 2 ^ r.width s.cfg := by
  cases r <;> exact BitVec.isLt _

/-! ### The obligations about single host actions -/

/-- Settles O52: a read answers what the register or entry holds, or, of a result while BUSY, a free value. -/
theorem hostReadHasNoSideEffect : Obligations.HostReadHasNoSideEffect := by
  constructor
  · intro s r rest h
    by_cases hdraw : s.status.state = .busy ∧ r.isResult = true
    · refine ⟨(Config.drawBusy (r.width s.cfg) s.draws).toNat, s.draws + 1, BitVec.isLt _,
        (step_of_pending h).trans (hostReadReg_draw hdraw), fun hheld => ?_⟩
      obtain ⟨hbusy, hresult⟩ := hdraw
      rcases hheld with hidle | hmem
      · exact absurd hbusy hidle
      · cases r <;> simp [Reg.isResult] at hresult hmem
    · exact ⟨s.readReg r, s.draws, s.readReg_lt r,
        (step_of_pending h).trans (hostReadReg_holds hdraw), fun _ => ⟨rfl, rfl⟩⟩
  · intro s i rest h hi
    by_cases hbusy : s.status.state = .busy
    · exact ⟨(Config.drawBusy s.cfg.gw s.draws).toNat, s.draws + 1, BitVec.isLt _,
        (step_of_pending h).trans (hostReadTable_busy hi hbusy), fun hidle => absurd hbusy hidle⟩
    · exact ⟨(s.tableAt i).toNat, s.draws, BitVec.isLt _,
        (step_of_pending h).trans (hostReadTable_idle hi hbusy), fun _ => ⟨rfl, rfl⟩⟩

/-- Settles O53: the three operand registers, each with a value of its width. -/
theorem hostWritesOperandRegisters : Obligations.HostWritesOperandRegisters := by
  intro s rest hs
  refine ⟨fun v h => ?_, fun v h => ?_, fun v hv h => ?_⟩ <;> refine (step_of_pending h).trans ?_
  · exact hostWriteReg_gen (s := { s with pending := rest }) hs v
  · exact hostWriteReg_dataLen (s := { s with pending := rest }) hs v
  · exact hostWriteReg_tableLen (s := { s with pending := rest }) hs hv

/-- Settles O54: six read-only registers, and CMD while BUSY. -/
theorem ignoredHostWrites : Obligations.IgnoredHostWrites := by
  intro s rest
  constructor
  · intro n v hn h
    refine (step_of_pending h).trans ?_
    simp only [List.mem_cons, List.not_mem_nil, or_false] at hn
    rcases hn with rfl | rfl | rfl | rfl | rfl | rfl
    · exact hostWriteReg_readOnly .status v rfl (by decide)
    · exact hostWriteReg_readOnly .rem v rfl (by decide)
    · exact hostWriteReg_readOnly .ngen v rfl (by decide)
    · exact hostWriteReg_readOnly .nshift v rfl (by decide)
    · exact hostWriteReg_readOnly .ncarry v rfl (by decide)
    · exact hostWriteReg_readOnly .nmask v rfl (by decide)
  · intro c hbusy h
    rcases h with h | h <;> refine (step_of_pending h).trans ?_
    · exact (hostWriteReg_cmd_toNat c _).trans (commandWrite_busy hbusy)
    · exact (deliver_startCmd_toNat c _).trans (congrArg _ (commandStart_busy hbusy))

/-- Settles O55: clause by clause, from what each event does. -/
theorem refusedHostAccesses : Obligations.RefusedHostAccesses := by
  intro s rest
  refine ⟨fun n v hn h => ?noRegisterToWrite, fun n hn h => ?noRegisterToRead, fun v hs hv h => ?tableLenTooLarge,
    fun n v hs hn h => ?operandWhileBusy, fun i v hs hi h => ?dataWhileBusy, fun i v hs hi h => ?tableWhileBusy,
    fun v hs hcase => ?operandTooWide, fun i v hs hcase => ?elementTooWide, fun v hv hcase => ?commandTooWide,
    fun i v hcase => ?outsideTheMap⟩
  case noRegisterToWrite =>
    exact (step_of_pending h).trans (hostWriteReg_ofNumber_none ((Reg.ofNumber_eq_none_iff n).2 hn))
  case noRegisterToRead =>
    exact (step_of_pending h).trans (hostReadReg_ofNumber_none ((Reg.ofNumber_eq_none_iff n).2 hn))
  case tableLenTooLarge =>
    exact (step_of_pending h).trans (hostWriteReg_tableLen_tooLarge (s := { s with pending := rest }) hs hv)
  case operandWhileBusy =>
    refine (step_of_pending h).trans ?_
    simp only [List.mem_cons, List.not_mem_nil, or_false] at hn
    rcases hn with rfl | rfl | rfl
    · exact hostWriteReg_operand_busy .gen rfl hs
    · exact hostWriteReg_operand_busy .dataLen rfl hs
    · exact hostWriteReg_operand_busy .tableLen rfl hs
  case dataWhileBusy => exact (step_of_pending h).trans (hostWriteData_busy hi hs)
  case tableWhileBusy => exact (step_of_pending h).trans (hostWriteTable_busy hi hs)
  case operandTooWide =>
    rcases hcase with ⟨h, hv⟩ | ⟨h, hv⟩ <;> refine (step_of_pending h).trans ?_
    · exact hostWriteReg_gen_tooWide (s := { s with pending := rest }) hs hv
    · exact hostWriteReg_dataLen_tooWide (s := { s with pending := rest }) hs hv
  case elementTooWide =>
    rcases hcase with ⟨h, hi, hv⟩ | ⟨h, hi, hv⟩ <;> refine (step_of_pending h).trans ?_
    · exact hostWriteData_tooWide hi hs hv
    · exact hostWriteTable_tooWide hi hs hv
  case commandTooWide =>
    rcases hcase with h | h <;> refine (step_of_pending h).trans ?_
    · exact hostWriteReg_cmd_tooWide hv
    · exact deliver_startCmd_tooWide hv
  case outsideTheMap =>
    rcases hcase with ⟨h, hi⟩ | ⟨h, hi⟩ | ⟨h, hi⟩ <;> refine (step_of_pending h).trans ?_
    · exact hostWriteData_outside hi
    · exact hostWriteTable_outside hi
    · exact hostReadTable_outside hi

/-! ### All that an event can do -/

/-- What the host, while no operation is running, can write into the operands and the stores (10_state.md R15 to R17;
20_memory.md R34, R43, R49). -/
inductive OperandWritten (s : State) : State → Prop
  | gen (g : BitVec s.cfg.gw) : OperandWritten s { s with gen := g }
  | dataLen (n : BitVec 32) : OperandWritten s { s with dataLen := n }
  | tableLen (n : BitVec 33) (hn : n.toNat ≤ 2 ^ 32) : OperandWritten s { s with tableLen := n }
  | data (i : Nat) (v : BitVec s.cfg.w) (hi : i < 2 ^ 32 - 1) : OperandWritten s (s.writeData i v)
  | table (i : Nat) (v : BitVec s.cfg.gw) (hi : i < 2 ^ 32) : OperandWritten s (s.writeTable i v)

/-- All that an event that is neither refused nor a fault can do. -/
inductive Delivered (s : State) : Event → State → Prop
  | reset : Delivered s .reset (resetEvent s)
  | command (c : Command) {t : State} (h : commandWrite c s = .next t) : Delivered s (.writeReg 0 c.toNat) t
  | started (c : Command) : Delivered s (.startCmd c.toNat) (commandStart c s)
  | hostSide (e : Event) (r : Option Nat) (k : Nat) : Delivered s e { s with reply := r, draws := k }
  | written {e : Event} {t : State} (hs : s.status.state ≠ .busy) (h : OperandWritten s t) : Delivered s e t
  | ticked : Delivered s .tick (tick s)

theorem writeOperand_written {r : Reg} {v : Nat} {s t : State} (hr : r.isOperand = true)
    (h : writeOperand r v s = .next t) : OperandWritten s t := by
  cases r <;> simp only [Reg.isOperand, Bool.false_eq_true] at hr <;> simp only [writeOperand] at h <;> split at h <;>
    cases h
  · exact .gen _
  · exact .dataLen _
  · exact .tableLen _ (le_trans (Nat.mod_le _ _) ‹_›)

theorem hostWriteReg_delivered {n v : Nat} {s t : State} (h : hostWriteReg n v s = .next t) :
    Delivered s (.writeReg n v) t := by
  rcases hn : Reg.ofNumber n with _ | r
  · rw [hostWriteReg_ofNumber_none hn] at h; cases h
  obtain rfl := Reg.number_of_ofNumber hn
  by_cases hcmd : r = .cmd
  · subst hcmd
    by_cases hv : v < 2 ^ 32
    · have hcommand := Delivered.command _ ((hostWriteReg_cmd hv).symm.trans h)
      rwa [BitVec.toNat_ofNat, Nat.mod_eq_of_lt hv] at hcommand
    · cases (hostWriteReg_cmd_tooWide (by omega)).symm.trans h
  by_cases hr : r.isOperand = true
  · by_cases hs : s.status.state = .busy
    · rw [hostWriteReg_operand_busy r hr hs] at h; cases h
    · exact .written hs (writeOperand_written hr ((hostWriteReg_operand r hr hs).symm.trans h))
  · rw [hostWriteReg_readOnly r v (by simpa using hr) hcmd] at h
    cases h
    exact .hostSide _ s.reply s.draws

theorem hostReadReg_delivered {n : Nat} {s t : State} (h : hostReadReg n s = .next t) :
    Delivered s (.readReg n) t := by
  rcases hn : Reg.ofNumber n with _ | r
  · rw [hostReadReg_ofNumber_none hn] at h; cases h
  obtain rfl := Reg.number_of_ofNumber hn
  by_cases hdraw : s.status.state = .busy ∧ r.isResult = true
  · rw [hostReadReg_draw hdraw] at h; cases h; exact .hostSide _ _ _
  · rw [hostReadReg_holds hdraw] at h; cases h; exact .hostSide _ _ s.draws

theorem hostWriteData_delivered {i v : Nat} {s t : State} (h : hostWriteData i v s = .next t) :
    Delivered s (.writeData i v) t := by
  simp only [hostWriteData] at h
  split at h
  · cases h
  split at h
  · cases h
  split at h <;> cases h
  exact .written (by simp_all) (.data i _ (by omega))

theorem hostWriteTable_delivered {i v : Nat} {s t : State} (h : hostWriteTable i v s = .next t) :
    Delivered s (.writeTable i v) t := by
  simp only [hostWriteTable] at h
  split at h
  · cases h
  split at h
  · cases h
  split at h <;> cases h
  exact .written (by simp_all) (.table i _ (by omega))

theorem hostReadTable_delivered {i : Nat} {s t : State} (h : hostReadTable i s = .next t) :
    Delivered s (.readTable i) t := by
  simp only [hostReadTable] at h
  split at h
  · cases h
  split at h <;> cases h
  · exact .hostSide _ _ _
  · exact .hostSide _ _ s.draws

theorem deliver_delivered {e : Event} {s t : State} (h : deliver e s = .next t) : Delivered s e t := by
  cases e with
  | reset => cases h; exact .reset
  | writeReg n v => exact hostWriteReg_delivered h
  | startCmd v =>
    by_cases hv : v < 2 ^ 32
    · rw [deliver_startCmd hv] at h
      cases h
      have hstarted := Delivered.started (s := s) (BitVec.ofNat 32 v)
      rwa [BitVec.toNat_ofNat, Nat.mod_eq_of_lt hv] at hstarted
    · rw [deliver_startCmd_tooWide (by omega)] at h; cases h
  | readReg n => exact hostReadReg_delivered h
  | writeData i v => exact hostWriteData_delivered h
  | writeTable i v => exact hostWriteTable_delivered h
  | readTable i => exact hostReadTable_delivered h
  | tick => cases h; exact .ticked

/-- All that a step can do: a micro-step when the host has nothing to do, or the host's next event. -/
theorem step_cases {s t : State} (h : step s = .next t) :
    (s.pending = [] ∧ t = tick s) ∨
      ∃ e rest, s.pending = e :: rest ∧ Delivered { s with pending := rest } e t := by
  rcases hp : s.pending with _ | ⟨e, rest⟩
  · rw [step_of_pending_nil hp] at h; cases h; exact .inl ⟨rfl, rfl⟩
  · rw [step_of_pending hp] at h; exact .inr ⟨e, rest, rfl, deliver_delivered h⟩

end Sys2Proof.Machine
end

section
/-! PROOFS. The micro-steps of the sequencer (10_state.md R21): what each does in each case, and, said once, all that
one can do within the bounds of R21. -/

namespace Sys2Proof.Machine

/-! ### What passed checks say -/

/-- DIVSUB's checks pass with a width B of 1 to W that divides W (44_small_table_divider.md R97). -/
theorem divsubChecks_passes {s : State} {d B : Nat} {p : Params s.cfg.gw} (h : divsubChecks s d = .passes (B, p)) :
    s.tableLen.toNat = 2 ^ B ∧ 1 ≤ B ∧ B ≤ s.cfg.w ∧ s.cfg.w % B = 0 ∧ normalize d s.gen s.cfg.w = .passes p := by
  obtain ⟨B', hB', h⟩ := Checked.andThen_passes_iff.1 h
  obtain ⟨hlen, hpos⟩ := tableWidth_passes hB'
  split at h
  · cases h
  split at h
  · cases h
  obtain ⟨p', hp', h⟩ := Checked.andThen_passes_iff.1 h
  cases h
  exact ⟨hlen, hpos, by omega, by omega, hp'⟩

/-- DIVMULTI's checks pass with a width B that is a multiple of W and at most the degree
(45_big_table_divider.md R105). -/
theorem divmultiChecks_passes {s : State} {d B : Nat} {p : Params s.cfg.gw}
    (h : divmultiChecks s d = .passes (B, p)) :
    s.tableLen.toNat = 2 ^ B ∧ 1 ≤ B ∧ B % s.cfg.w = 0 ∧ B ≤ d ∧ normalize d s.gen s.cfg.w = .passes p := by
  obtain ⟨B', hB', h⟩ := Checked.andThen_passes_iff.1 h
  obtain ⟨hlen, hpos⟩ := tableWidth_passes hB'
  split at h
  · cases h
  split at h
  · cases h
  obtain ⟨p', hp', h⟩ := Checked.andThen_passes_iff.1 h
  cases h
  exact ⟨hlen, hpos, by omega, by omega, hp'⟩

/-- A width B >= 1 that is a multiple of W holds at least one word. -/
theorem div_pos_of_mod_eq_zero {B w : Nat} (hw : 0 < w) (hB : 1 ≤ B) (h : B % w = 0) : 0 < B / w :=
  Nat.div_pos (Nat.le_of_dvd hB (Nat.dvd_of_mod_eq_zero h)) hw

/-! ### One micro-step of each operation in Run -/

section Ticks

variable {s : State} {i j t : Nat} {wk : Work s.cfg.gw s.cfg.w}

theorem divrefTick_bit {r : BitVec s.cfg.gw} (hi : i < s.dataLen.toNat) (ht : t + 1 < s.cfg.w)
    (hr : r = if t = 0 then absorb wk.r (s.dataAt i) wk.shift else wk.r) :
    divrefTick s i t wk = s.enterRun .divref i 0 (t + 1) { wk with r := bitStep wk.g wk.carry r } := by
  rw [divrefTick, if_pos hi, if_pos ht, hr]

theorem divrefTick_lastBit {r : BitVec s.cfg.gw} (hi : i < s.dataLen.toNat) (ht : s.cfg.w ≤ t + 1)
    (hr : r = if t = 0 then absorb wk.r (s.dataAt i) wk.shift else wk.r) :
    divrefTick s i t wk = s.enterRun .divref (i + 1) 0 0 { wk with r := bitStep wk.g wk.carry r } := by
  rw [divrefTick, if_pos hi, if_neg (Nat.not_lt.2 ht), hr]

theorem divrefTick_end (hi : s.dataLen.toNat ≤ i) : divrefTick s i t wk = s.finishRem (wk.r &&& wk.mask) :=
  if_neg (Nat.not_lt.2 hi)

theorem mktblTick_bit {r : BitVec s.cfg.gw} (hi : i < 2 ^ s.runSize) (ht : t < s.runSize)
    (hr : r = if t = 0 then entryStart wk.params i else wk.r) :
    mktblTick s i t wk = s.enterRun .mktbl i 0 (t + 1) { wk with r := bitStep wk.g wk.carry r } := by
  rw [mktblTick, if_pos hi, if_pos ht, hr]

theorem mktblTick_entry {r : BitVec s.cfg.gw} (hi : i < 2 ^ s.runSize) (ht : s.runSize ≤ t)
    (hr : r = if t = 0 then entryStart wk.params i else wk.r) :
    mktblTick s i t wk = (s.writeTable i r).enterRun .mktbl (i + 1) 0 0 { wk with r := r } := by
  rw [mktblTick, if_pos hi, if_neg (Nat.not_lt.2 ht), hr]

theorem mktblTick_end (hi : 2 ^ s.runSize ≤ i) :
    mktblTick s i t wk = finish { s with tableLen := BitVec.ofNat 33 (2 ^ s.runSize) } :=
  if_neg (Nat.not_lt.2 hi)

theorem divwordTick_word (hi : i < s.dataLen.toNat) :
    divwordTick s i wk = s.enterRun .divword (i + 1) 0 0
      { wk with
        r := divwordWord wk.params s.tableAt wk.r (s.dataAt i)
        idx := topIndex (absorb wk.r (s.dataAt i) wk.shift) wk.shift } :=
  if_pos hi

theorem divwordTick_end (hi : s.dataLen.toNat ≤ i) : divwordTick s i wk = s.finishRem wk.r :=
  if_neg (Nat.not_lt.2 hi)

/-- DIVSUB's working values after a block of the word buffer `buf` (44_small_table_divider.md R99). -/
def divsubAfter (s : State) (wk : Work s.cfg.gw s.cfg.w) (buf : BitVec s.cfg.w) : Work s.cfg.gw s.cfg.w :=
  { wk with
    r := (divsubBlock wk.params wk.B wk.bshift s.tableAt (wk.r, buf)).1
    buf := (divsubBlock wk.params wk.B wk.bshift s.tableAt (wk.r, buf)).2
    idx := topIndex (absorb wk.r (topBlock wk.B buf) wk.bshift) wk.bshift }

theorem divsubTick_block {buf : BitVec s.cfg.w} (hi : i < s.dataLen.toNat) (hj : j + 1 < wk.n)
    (hbuf : buf = if j = 0 then s.dataAt i else wk.buf) :
    divsubTick s i j wk = s.enterRun .divsub i (j + 1) 0 (divsubAfter s wk buf) := by
  rw [divsubTick, if_pos hi, if_pos hj, hbuf]; rfl

theorem divsubTick_lastBlock {buf : BitVec s.cfg.w} (hi : i < s.dataLen.toNat) (hj : wk.n ≤ j + 1)
    (hbuf : buf = if j = 0 then s.dataAt i else wk.buf) :
    divsubTick s i j wk = s.enterRun .divsub (i + 1) 0 0 (divsubAfter s wk buf) := by
  rw [divsubTick, if_pos hi, if_neg (Nat.not_lt.2 hj), hbuf]; rfl

theorem divsubTick_end (hi : s.dataLen.toNat ≤ i) : divsubTick s i j wk = s.finishRem wk.r :=
  if_neg (Nat.not_lt.2 hi)

theorem divmultiTick_word {m : Nat} (hi : i < s.dataLen.toNat)
    (hm : m = if j = 0 then min wk.k (s.dataLen.toNat - i) else wk.m) (hj : j + 1 < m) :
    divmultiTick s i j wk = s.enterRun .divmulti i (j + 1) 0
      { wk with r := divmultiAbsorb s.runDegree j wk.r (s.dataAt (i + j)), m := m } := by
  subst hm
  rw [divmultiTick, if_pos hi, if_pos hj]

theorem divmultiTick_lastWord {m : Nat} {r : BitVec s.cfg.gw} (hi : i < s.dataLen.toNat)
    (hm : m = if j = 0 then min wk.k (s.dataLen.toNat - i) else wk.m) (hj : m ≤ j + 1)
    (hr : r = divmultiAbsorb s.runDegree j wk.r (s.dataAt (i + j))) :
    divmultiTick s i j wk = s.enterRun .divmulti (i + m) 0 0
      { wk with
        r := divmultiCombine s.cfg.w s.runDegree m wk.mask s.tableAt r
        m := m
        lsh := m * s.cfg.w
        rsh := s.runDegree - m * s.cfg.w
        idx := topIndex r (s.runDegree - m * s.cfg.w) } := by
  subst hm hr
  rw [divmultiTick, if_pos hi, if_neg (Nat.not_lt.2 hj)]

theorem divmultiTick_end (hi : s.dataLen.toNat ≤ i) : divmultiTick s i j wk = s.finishRem wk.r :=
  if_neg (Nat.not_lt.2 hi)

end Ticks

/-! ### All that a micro-step can do -/

/-- All that a micro-step of a running operation can do while the sequencer is within the bounds of 10_state.md R21, each
move of the sequencer with the bounds it keeps. -/
inductive Ticked (s : State) : State → Prop
  | runs {op : Op} {i j t : Nat} {wk : Work s.cfg.gw s.cfg.w} (hb : Seq.Bounded s (.run op i j t wk)) :
      Ticked s (s.enterRun op i j t wk)
  | writesEntry {i : Nat} {v : BitVec s.cfg.gw} {i' j t : Nat} {wk : Work s.cfg.gw s.cfg.w} (hi : i < 2 ^ 32)
      (hb : Seq.Bounded s (.run .mktbl i' j t wk)) : Ticked s ((s.writeTable i v).enterRun .mktbl i' j t wk)
  | fails (f : Failure) : Ticked s (raise f s)
  | normalizes (p : Params s.cfg.gw) : Ticked s (finish (writeNormalized s p))
  | divides (r : BitVec s.cfg.gw) : Ticked s (s.finishRem r)
  | endsTable (n : BitVec 33) (hn : n.toNat ≤ 2 ^ 32) : Ticked s (finish { s with tableLen := n })

section TickedLemmas

variable {s : State} {i j t : Nat} {wk : Work s.cfg.gw s.cfg.w}

theorem enterChecked_ticked {op : Op} {c : Checked (Params s.cfg.gw)}
    (h : ∀ p, c = .passes p → Seq.Bounded s (.run op 0 0 0 (Work.ofParams s.cfg.w p))) :
    Ticked s (s.enterChecked op c) := by
  cases c with
  | fails f => exact .fails f
  | passes p => exact .runs (h p rfl)

theorem enterDivsub_ticked (hop : ∃ k, decode s.cmd = .ok k ∧ k.op = .divsub) :
    Ticked s (s.enterDivsub (divsubChecks s s.runDegree)) := by
  rcases hc : divsubChecks s s.runDegree with f | ⟨B, p⟩
  · exact .fails f
  · obtain ⟨-, hB, hBw, -, -⟩ := divsubChecks_passes hc
    exact .runs ⟨hop, Nat.zero_le _, rfl, Nat.div_pos hBw hB, Nat.div_le_self _ _⟩

theorem enterDivmulti_ticked (hop : ∃ k, decode s.cmd = .ok k ∧ k.op = .divmulti) (hlen : s.tableLen.toNat ≤ 2 ^ 32) :
    Ticked s (s.enterDivmulti (divmultiChecks s s.runDegree)) := by
  rcases hc : divmultiChecks s s.runDegree with f | ⟨B, p⟩
  · exact .fails f
  · obtain ⟨hpow, hB, hmod, -, -⟩ := divmultiChecks_passes hc
    have hB32 : B ≤ 32 := (Nat.pow_le_pow_iff_right (by norm_num)).1 (hpow ▸ hlen)
    exact .runs ⟨hop, rfl, div_pos_of_mod_eq_zero s.cfg.wPos hB hmod, (Nat.div_le_self _ _).trans hB32,
      Nat.zero_le _, fun h => absurd h (Nat.lt_irrefl 0)⟩

theorem checkTick_ticked {op : Op} (hop : ∃ k, decode s.cmd = .ok k ∧ k.op = op) (hlen : s.tableLen.toNat ≤ 2 ^ 32) :
    Ticked s (checkTick op s) := by
  cases op with
  | norm => exact enterChecked_ticked fun _ _ => ⟨hop, rfl, rfl, rfl⟩
  | divref => exact enterChecked_ticked fun _ _ => ⟨hop, Nat.zero_le _, rfl, s.cfg.wPos⟩
  | mktbl =>
    exact enterChecked_ticked fun _ hp =>
      ⟨hop, mktblChecks_passes_size hp, Nat.zero_le _, rfl, Nat.zero_le _⟩
  | divword => exact enterChecked_ticked fun _ _ => ⟨hop, Nat.zero_le _, rfl, rfl⟩
  | divsub => exact enterDivsub_ticked hop
  | divmulti => exact enterDivmulti_ticked hop hlen

theorem divrefTick_ticked (hb : Seq.Bounded s (.run .divref i j t wk)) : Ticked s (divrefTick s i t wk) := by
  obtain ⟨hop, -, -, -⟩ := hb
  by_cases hi : i < s.dataLen.toNat
  · by_cases ht : t + 1 < s.cfg.w
    · rw [divrefTick_bit hi ht rfl]
      exact .runs ⟨hop, hi.le, rfl, ht⟩
    · rw [divrefTick_lastBit hi (Nat.not_lt.1 ht) rfl]
      exact .runs ⟨hop, hi, rfl, s.cfg.wPos⟩
  · rw [divrefTick_end (Nat.not_lt.1 hi)]
    exact .divides _

theorem mktblTick_ticked (hb : Seq.Bounded s (.run .mktbl i j t wk)) : Ticked s (mktblTick s i t wk) := by
  obtain ⟨hop, hsize, -, -, -⟩ := hb
  have hpow : 2 ^ s.runSize ≤ 2 ^ 32 := Nat.pow_le_pow_right (by norm_num) hsize
  by_cases hi : i < 2 ^ s.runSize
  · by_cases ht : t < s.runSize
    · rw [mktblTick_bit hi ht rfl]
      exact .runs ⟨hop, hsize, hi.le, rfl, ht⟩
    · rw [mktblTick_entry hi (Nat.not_lt.1 ht) rfl]
      exact .writesEntry (hi.trans_le hpow) ⟨hop, hsize, hi, rfl, Nat.zero_le _⟩
  · rw [mktblTick_end (Nat.not_lt.1 hi)]
    exact .endsTable _ ((Nat.mod_le _ _).trans hpow)

theorem divwordTick_ticked (hb : Seq.Bounded s (.run .divword i j t wk)) : Ticked s (divwordTick s i wk) := by
  obtain ⟨hop, -, -, -⟩ := hb
  by_cases hi : i < s.dataLen.toNat
  · rw [divwordTick_word hi]
    exact .runs ⟨hop, hi, rfl, rfl⟩
  · rw [divwordTick_end (Nat.not_lt.1 hi)]
    exact .divides _

theorem divsubTick_ticked (hb : Seq.Bounded s (.run .divsub i j t wk)) : Ticked s (divsubTick s i j wk) := by
  obtain ⟨hop, -, -, hjn, hnw⟩ := hb
  by_cases hi : i < s.dataLen.toNat
  · by_cases hj : j + 1 < wk.n
    · rw [divsubTick_block hi hj rfl]
      exact .runs ⟨hop, hi.le, rfl, hj, hnw⟩
    · rw [divsubTick_lastBlock hi (Nat.not_lt.1 hj) rfl]
      exact .runs ⟨hop, hi, rfl, (Nat.zero_le j).trans_lt hjn, hnw⟩
  · rw [divsubTick_end (Nat.not_lt.1 hi)]
    exact .divides _

/-- The size m of the group in progress: at most k, and within the stream (45_big_table_divider.md R107, R108). -/
theorem divmulti_group_bounds (hb : Seq.Bounded s (.run .divmulti i j t wk)) (hi : i < s.dataLen.toNat) :
    (if j = 0 then min wk.k (s.dataLen.toNat - i) else wk.m) ≤ wk.k ∧
      i + (if j = 0 then min wk.k (s.dataLen.toNat - i) else wk.m) ≤ s.dataLen.toNat := by
  obtain ⟨-, -, -, -, -, hgroup⟩ := hb
  split
  · exact ⟨Nat.min_le_left _ _, by omega⟩
  · obtain ⟨-, hm, hsum⟩ := hgroup (by omega)
    exact ⟨hm, hsum⟩

theorem divmultiTick_ticked (hb : Seq.Bounded s (.run .divmulti i j t wk)) : Ticked s (divmultiTick s i j wk) := by
  by_cases hi : i < s.dataLen.toNat
  · obtain ⟨hmk, hmlen⟩ := divmulti_group_bounds hb hi
    obtain ⟨hop, -, hk, hk32, -, -⟩ := hb
    generalize hm : (if j = 0 then min wk.k (s.dataLen.toNat - i) else wk.m) = m at hmk hmlen
    by_cases hj : j + 1 < m
    · rw [divmultiTick_word hi hm.symm hj]
      exact .runs ⟨hop, rfl, hk, hk32, by omega, fun _ => ⟨hj, hmk, hmlen⟩⟩
    · rw [divmultiTick_lastWord hi hm.symm (Nat.not_lt.1 hj) rfl]
      exact .runs ⟨hop, rfl, hk, hk32, hmlen, fun h => absurd h (Nat.lt_irrefl 0)⟩
  · rw [divmultiTick_end (Nat.not_lt.1 hi)]
    exact .divides _

end TickedLemmas

theorem tick_of_idle {s : State} (h : s.seq = .idle) : tick s = s := by
  simp only [tick, h]

theorem tick_of_check {s : State} {op : Op} (h : s.seq = .check op) : tick s = checkTick op s := by
  simp only [tick, h]

/-- Idle, a micro-step holds the state; otherwise it is one of the cases of `Ticked`. -/
theorem tick_cases {s : State} (hb : s.seq.Bounded s) (hlen : s.tableLen.toNat ≤ 2 ^ 32) :
    (s.seq = .idle ∧ tick s = s) ∨ (s.seq ≠ .idle ∧ Ticked s (tick s)) := by
  rcases hseq : s.seq with _ | op | ⟨op, i, j, t, wk⟩
  · exact .inl ⟨rfl, tick_of_idle hseq⟩
  · rw [hseq] at hb
    rw [tick_of_check hseq]
    exact .inr ⟨nofun, checkTick_ticked hb hlen⟩
  · rw [hseq] at hb
    refine .inr ⟨nofun, ?_⟩
    cases op <;> simp only [tick, hseq]
    case norm => exact .normalizes _
    case divref => exact divrefTick_ticked hb
    case mktbl => exact mktblTick_ticked hb
    case divword => exact divwordTick_ticked hb
    case divsub => exact divsubTick_ticked hb
    case divmulti => exact divmultiTick_ticked hb

end Sys2Proof.Machine
end

section
/-! PROOFS. The invariant of every step (10_state.md R17, R21 to R23; 20_memory.md R43): how each update of the state
keeps it, then every event and every micro-step; and, along the same cases, what a step does to STATUS (R23). -/

namespace Sys2Proof.Machine

/-! ### The stores and TABLE_LEN -/

/-- The part of the invariant about the stores and TABLE_LEN. -/
def State.StoresLegal (s : State) : Prop :=
  s.data.wf ∧ s.table.wf ∧ (∀ e ∈ s.data, e.1 < 2 ^ 32 - 1) ∧ (∀ e ∈ s.table, e.1 < 2 ^ 32) ∧
    s.tableLen.toNat ≤ 2 ^ 32

theorem State.Inv.storesLegal {s : State} (h : s.Inv) : s.StoresLegal :=
  ⟨h.dataWf, h.tableWf, h.dataRange, h.tableRange, h.tableLenLegal⟩

theorem State.StoresLegal.writeData {s : State} {i : Nat} (v : BitVec s.cfg.w) (h : s.StoresLegal)
    (hi : i < 2 ^ 32 - 1) : (s.writeData i v).StoresLegal := by
  obtain ⟨hdata, htable, hdr, htr, hlen⟩ := h
  refine ⟨Memory.wf_write i v hdata, htable, fun e he => ?_, htr, hlen⟩
  rcases Memory.mem_write he with rfl | he
  · exact hi
  · exact hdr e he

theorem State.StoresLegal.writeTable {s : State} {i : Nat} (v : BitVec s.cfg.gw) (h : s.StoresLegal)
    (hi : i < 2 ^ 32) : (s.writeTable i v).StoresLegal := by
  obtain ⟨hdata, htable, hdr, htr, hlen⟩ := h
  refine ⟨hdata, Memory.wf_write i v htable, hdr, fun e he => ?_, hlen⟩
  rcases Memory.mem_write he with rfl | he
  · exact hi
  · exact htr e he

theorem State.StoresLegal.tableLen {s : State} {n : BitVec 33} (h : s.StoresLegal) (hn : n.toNat ≤ 2 ^ 32) :
    State.StoresLegal { s with tableLen := n } := by
  obtain ⟨hdata, htable, hdr, htr, -⟩ := h
  exact ⟨hdata, htable, hdr, htr, hn⟩

theorem State.StoresLegal.buildTable {s : State} {n : Nat} (p : Params s.cfg.gw) (h : s.StoresLegal) (hn : n ≤ 32) :
    State.StoresLegal
      { s with table := buildTable p n s.table, tableLen := BitVec.ofNat 33 (2 ^ n) } := by
  obtain ⟨hdata, htable, hdr, htr, -⟩ := h
  have hpow : 2 ^ n ≤ 2 ^ 32 := Nat.pow_le_pow_right (by norm_num) hn
  refine ⟨hdata, wf_buildTable p n htable, hdr, fun e he => ?_, (Nat.mod_le _ _).trans hpow⟩
  rcases mem_buildTable he with he | he
  · exact he.trans_le hpow
  · exact htr e he

/-! ### STATUS -/

theorem Status.consistent_taken (op : BitVec 3) : (Status.taken op).Consistent := ⟨fun _ => rfl, nofun, nofun⟩

theorem Status.consistent_failed (f : Failure) (st : Status) : (st.failed f).Consistent :=
  ⟨fun h => absurd rfl h, fun _ => ⟨f, rfl⟩, nofun⟩

theorem Status.consistent_finished {st : Status} (h : st.err = 0#8) : st.finished.Consistent :=
  ⟨fun _ => h, nofun, nofun⟩

/-- ERR is 0 while an operation is running. -/
theorem State.Inv.err_of_busy {s : State} (h : s.Inv) (hs : s.status.state = .busy) : s.status.err = 0#8 := by
  obtain ⟨herr, -, -⟩ := h.statusConsistent
  exact herr (by simp [hs])

theorem State.Inv.busy_of_seq {s : State} (h : s.Inv) (hseq : s.seq ≠ .idle) : s.status.state = .busy := by
  by_contra hs
  exact hseq (h.seqIdle.2 hs)

/-! ### How the updates keep the invariant -/

theorem inv_of_seq_idle {s : State} (hstores : s.StoresLegal) (hseq : s.seq = .idle) (hs : s.status.state ≠ .busy)
    (hst : s.status.Consistent) (hop : s.status.lastop = cmdOp s.cmd) : s.Inv := by
  obtain ⟨hdata, htable, hdr, htr, hlen⟩ := hstores
  exact ⟨hdata, htable, hdr, htr, hlen, by simp [hseq, hs], hst, hop, by rw [hseq]; trivial⟩

theorem raise_inv {s : State} (f : Failure) (hstores : s.StoresLegal) (hop : s.status.lastop = cmdOp s.cmd) :
    (raise f s).Inv :=
  inv_of_seq_idle hstores rfl nofun (Status.consistent_failed f _) hop

theorem finish_inv {s : State} (hstores : s.StoresLegal) (herr : s.status.err = 0#8)
    (hop : s.status.lastop = cmdOp s.cmd) : (finish s).Inv :=
  inv_of_seq_idle hstores rfl nofun (Status.consistent_finished herr) hop

theorem inv_of_running {s : State} (hstores : s.StoresLegal) (hseq : s.seq ≠ .idle) (hs : s.status.state = .busy)
    (hst : s.status.Consistent) (hop : s.status.lastop = cmdOp s.cmd) (hb : s.seq.Bounded s) : s.Inv := by
  obtain ⟨hdata, htable, hdr, htr, hlen⟩ := hstores
  exact ⟨hdata, htable, hdr, htr, hlen, by simp [hseq, hs], hst, hop, hb⟩

/-- The bounds of the sequencer do not speak of the host's side. -/
theorem Seq.bounded_hostSide (s : State) (rest : List Event) (r : Option Nat) (k : Nat)
    (q : Seq s.cfg.gw s.cfg.w) : Seq.Bounded { s with pending := rest, reply := r, draws := k } q ↔ q.Bounded s := by
  rcases q with _ | op | ⟨op, i, j, t, wk⟩
  case run => cases op <;> exact Iff.rfl
  all_goals exact Iff.rfl

/-- The invariant does not speak of the host's side. -/
theorem State.Inv.hostSide {s : State} (h : s.Inv) (rest : List Event) (r : Option Nat) (k : Nat) :
    State.Inv { s with pending := rest, reply := r, draws := k } :=
  ⟨h.dataWf, h.tableWf, h.dataRange, h.tableRange, h.tableLenLegal, h.seqIdle, h.statusConsistent, h.lastopOfCmd,
    (Seq.bounded_hostSide s rest r k s.seq).mpr h.seqBounded⟩

/-! ### How the events keep it -/

theorem resetAt_inv (cfg : Config) (epoch : Nat) : (State.resetAt cfg epoch).Inv :=
  inv_of_seq_idle ⟨Memory.wf_nil, Memory.wf_nil, nofun, nofun, Nat.zero_le _⟩ rfl nofun
    ⟨fun _ => rfl, nofun, fun _ => rfl⟩ rfl

/-- Settles O47: nothing is listed, and the control state is 0. -/
theorem resetMeetsInvariant : Obligations.ResetMeetsInvariant := resetAt_inv

theorem exec_inv {i : Instr} {s t : State} (hstores : s.StoresLegal) (herr : s.status.err = 0#8)
    (hop : s.status.lastop = cmdOp s.cmd) (h : exec i s = .next t) : t.Inv := by
  obtain ⟨f, rfl⟩ | ⟨d, c, p, -, rfl⟩ | ⟨d, n, p, -, hn, rfl⟩ | ⟨-, v, rfl⟩ := exec_cases h
  · exact raise_inv f hstores hop
  · exact finish_inv (s := writeNormalized s p) hstores herr hop
  · exact finish_inv (hstores.buildTable p hn) herr hop
  · exact finish_inv (s := { s with rem := v }) hstores herr hop

theorem commandWrite_inv {c : Command} {s t : State} (hinv : s.Inv) (h : commandWrite c s = .next t) : t.Inv := by
  by_cases hs : s.status.state = .busy
  · rw [commandWrite_busy hs] at h; cases h; exact hinv
  rcases hc : decode c with i | why
  · rw [commandWrite_ok hs hc] at h
    exact exec_inv (s := takeCommand c s) hinv.storesLegal rfl rfl h
  · rw [commandWrite_illegal hs hc] at h
    cases h
    exact raise_inv (s := takeCommand c s) _ hinv.storesLegal rfl

theorem commandStart_inv (c : Command) {s : State} (hinv : s.Inv) : (commandStart c s).Inv := by
  by_cases hs : s.status.state = .busy
  · rwa [commandStart_busy hs]
  rcases hc : decode c with i | why
  · rw [commandStart_ok hs hc]
    exact inv_of_running hinv.storesLegal nofun rfl (Status.consistent_taken _) rfl ⟨i, hc, rfl⟩
  · rw [commandStart_illegal hs hc]
    exact raise_inv (s := takeCommand c s) _ hinv.storesLegal rfl

theorem OperandWritten.status {s t : State} (h : OperandWritten s t) : t.status = s.status := by
  cases h <;> rfl

theorem OperandWritten.inv {s t : State} (h : OperandWritten s t) (hinv : s.Inv) (hs : s.status.state ≠ .busy) :
    t.Inv := by
  have idle := hinv.seqIdle.2 hs
  cases h with
  | gen g => exact inv_of_seq_idle hinv.storesLegal idle hs hinv.statusConsistent hinv.lastopOfCmd
  | dataLen n => exact inv_of_seq_idle hinv.storesLegal idle hs hinv.statusConsistent hinv.lastopOfCmd
  | tableLen n hn =>
    exact inv_of_seq_idle (hinv.storesLegal.tableLen hn) idle hs hinv.statusConsistent hinv.lastopOfCmd
  | data i v hi =>
    exact inv_of_seq_idle (hinv.storesLegal.writeData v hi) idle hs hinv.statusConsistent hinv.lastopOfCmd
  | table i v hi =>
    exact inv_of_seq_idle (hinv.storesLegal.writeTable v hi) idle hs hinv.statusConsistent hinv.lastopOfCmd

theorem Ticked.inv {s t : State} (h : Ticked s t) (hinv : s.Inv) (hs : s.status.state = .busy) : t.Inv := by
  have hstores := hinv.storesLegal
  have herr := hinv.err_of_busy hs
  have hop := hinv.lastopOfCmd
  cases h with
  | @runs op i j t wk hb =>
    refine inv_of_running hstores nofun hs hinv.statusConsistent hop ?_
    cases op <;> exact hb
  | writesEntry hi hb => exact inv_of_running (hstores.writeTable _ hi) nofun hs hinv.statusConsistent hop hb
  | fails f => exact raise_inv f hstores hop
  | normalizes p => exact finish_inv (s := writeNormalized s p) hstores herr hop
  | divides r => exact finish_inv (s := { s with rem := r }) hstores herr hop
  | endsTable n hn => exact finish_inv (hstores.tableLen hn) herr hop

theorem tick_inv {s : State} (hinv : s.Inv) : (tick s).Inv := by
  obtain ⟨-, htick⟩ | ⟨hseq, htick⟩ := tick_cases hinv.seqBounded hinv.tableLenLegal
  · rwa [htick]
  · exact htick.inv hinv (hinv.busy_of_seq hseq)

theorem Delivered.inv {e : Event} {s t : State} (h : Delivered s e t) (hinv : s.Inv) : t.Inv := by
  cases h with
  | reset => exact (resetAt_inv s.cfg (s.epoch + 1)).hostSide s.pending s.reply s.draws
  | command c hc => exact commandWrite_inv hinv hc
  | started c => exact commandStart_inv c hinv
  | hostSide e r k => exact hinv.hostSide s.pending r k
  | written hs hw => exact hw.inv hinv hs
  | ticked => exact tick_inv hinv

/-- Settles O46: a micro-step keeps the invariant, every event keeps it, and taking the event is the host's side. -/
theorem stepKeepsInvariant : Obligations.StepKeepsInvariant := by
  intro s t hinv h
  obtain ⟨-, rfl⟩ | ⟨e, rest, -, hd⟩ := step_cases h
  · exact tick_inv hinv
  · exact hd.inv (hinv.hostSide rest s.reply s.draws)

/-! ### What a step does to STATUS -/

theorem Ticked.status {s t : State} (h : Ticked s t) : t.status = s.status ∨ s.status.Ends t.status := by
  cases h with
  | runs => exact .inl rfl
  | writesEntry => exact .inl rfl
  | fails f => exact .inr (.inr ⟨f, rfl⟩)
  | normalizes => exact .inr (.inl rfl)
  | divides => exact .inr (.inl rfl)
  | endsTable => exact .inr (.inl rfl)

/-- A micro-step leaves STATUS alone or ends the running operation. -/
theorem tick_status {s : State} (hinv : s.Inv) :
    (tick s).status = s.status ∨ (s.status.state = .busy ∧ s.status.Ends (tick s).status) := by
  obtain ⟨-, htick⟩ | ⟨hseq, htick⟩ := tick_cases hinv.seqBounded hinv.tableLenLegal
  · exact .inl (by rw [htick])
  · exact htick.status.imp_right fun hends => ⟨hinv.busy_of_seq hseq, hends⟩

/-- The atomic write of CMD takes the command and ends it (92_eei_decisions.md D9). -/
theorem commandWrite_status {c : Command} {s t : State} (h : commandWrite c s = .next t)
    (hs : s.status.state ≠ .busy) : (Status.taken (cmdOp c)).Ends t.status := by
  rcases hc : decode c with i | why
  · rw [commandWrite_ok hs hc] at h
    exact (exec_ends h).2
  · rw [commandWrite_illegal hs hc] at h
    cases h
    exact .inr ⟨_, rfl⟩

/-- The write of CMD that starts an operation takes the command, or fails at once. -/
theorem commandStart_status (c : Command) {s : State} (hs : s.status.state ≠ .busy) :
    ((∃ i, decode c = .ok i) ∧ (commandStart c s).status = Status.taken (cmdOp c)) ∨
      ((∃ why, decode c = .illegal why) ∧
        (commandStart c s).status = (Status.taken (cmdOp c)).failed .illegalCommand) := by
  rcases hc : decode c with i | why
  · exact .inl ⟨⟨i, rfl⟩, by rw [commandStart_ok hs hc]; rfl⟩
  · exact .inr ⟨⟨why, rfl⟩, by rw [commandStart_illegal hs hc]; rfl⟩

/-- All that can change STATUS: a reset, a CMD write while no operation is running, the end of a running operation
(10_state.md R23). -/
theorem Delivered.status {e : Event} {s t : State} (h : Delivered s e t) (hinv : s.Inv) :
    t.status = s.status ∨ e = .reset ∨
      (s.status.state ≠ .busy ∧ ∃ c : Command,
        e = .startCmd c.toNat ∧ t = commandStart c s ∨ e = .writeReg 0 c.toNat ∧ commandWrite c s = .next t) ∨
      (s.status.state = .busy ∧ s.status.Ends t.status) := by
  cases h with
  | reset => exact .inr (.inl rfl)
  | command c hc =>
    by_cases hs : s.status.state = .busy
    · rw [commandWrite_busy hs] at hc
      cases hc
      exact .inl rfl
    · exact .inr (.inr (.inl ⟨hs, c, .inr ⟨rfl, hc⟩⟩))
  | started c =>
    by_cases hs : s.status.state = .busy
    · exact .inl (by rw [commandStart_busy hs])
    · exact .inr (.inr (.inl ⟨hs, c, .inl ⟨rfl, rfl⟩⟩))
  | hostSide => exact .inl rfl
  | written _ hw => exact .inl hw.status
  | ticked => exact (tick_status hinv).imp_right fun h => .inr (.inr h)

/-- The same of a step. -/
theorem step_status {s t : State} (hinv : s.Inv) (h : step s = .next t) :
    t.status = s.status ∨ (∃ rest, s.pending = .reset :: rest) ∨
      (s.status.state ≠ .busy ∧ ∃ (c : Command) (rest : List Event),
        s.pending = .startCmd c.toNat :: rest ∧ t = commandStart c { s with pending := rest } ∨
        s.pending = .writeReg 0 c.toNat :: rest ∧ commandWrite c { s with pending := rest } = .next t) ∨
      (s.status.state = .busy ∧ s.status.Ends t.status) := by
  obtain ⟨-, rfl⟩ | ⟨e, rest, hp, hd⟩ := step_cases h
  · exact (tick_status hinv).imp_right fun h => .inr (.inr h)
  · obtain hsame | rfl | ⟨hs, c, ⟨rfl, ht⟩ | ⟨rfl, ht⟩⟩ | hends := hd.status (hinv.hostSide rest s.reply s.draws)
    · exact .inl hsame
    · exact .inr (.inl ⟨rest, hp⟩)
    · exact .inr (.inr (.inl ⟨hs, c, rest, .inl ⟨hp, ht⟩⟩))
    · exact .inr (.inr (.inl ⟨hs, c, rest, .inr ⟨hp, ht⟩⟩))
    · exact .inr (.inr (.inr hends))

theorem commandStart_not_idle (c : Command) {s : State} (hs : s.status.state ≠ .busy) :
    (commandStart c s).status.state ≠ .idle := by
  obtain ⟨-, hst⟩ | ⟨-, hst⟩ := commandStart_status c hs <;> rw [hst] <;> nofun

/-- Settles O51: each clause is read off what a step can do to STATUS. -/
theorem stateTransitions : Obligations.StateTransitions := by
  intro s t hinv h
  refine ⟨fun hidle => ?_, fun c rest hp hs => ?_, fun c rest hp hs => ?_, fun hne => ?_⟩
  · obtain hsame | hreset | ⟨hs, c, rest, ⟨-, rfl⟩ | ⟨-, ht⟩⟩ | ⟨-, hends⟩ := step_status hinv h
    · exact .inl (hsame ▸ hidle)
    · exact .inr hreset
    · exact absurd hidle (commandStart_not_idle c hs)
    · exact absurd hidle (commandWrite_status ht hs).not_idle
    · exact absurd hidle hends.not_idle
  · cases ((step_of_pending hp).trans (deliver_startCmd_toNat c _)).symm.trans h
    obtain ⟨⟨i, hc⟩, hst⟩ | ⟨⟨why, hc⟩, hst⟩ := commandStart_status c (s := { s with pending := rest }) hs <;>
      rw [hst]
    · exact ⟨rfl, fun _ => ⟨rfl, rfl⟩, by simp [hc]⟩
    · exact ⟨rfl, by simp [hc], fun _ => ⟨rfl, rfl⟩⟩
  · have hw : commandWrite c { s with pending := rest } = .next t :=
      ((step_of_pending hp).trans (hostWriteReg_cmd_toNat c _)).symm.trans h
    have hends := commandWrite_status hw hs
    exact ⟨hends.lastop, hends.state.imp_left fun hdone => ⟨hdone, hends.err_of_done hdone⟩⟩
  · obtain hsame | hreset | ⟨hs, c, rest, ⟨hp, -⟩ | ⟨hp, -⟩⟩ | ⟨hs, hends⟩ := step_status hinv h
    · exact absurd hsame hne
    · exact .inl hreset
    · exact .inr (.inl ⟨hs, _, rest, .inl hp⟩)
    · exact .inr (.inl ⟨hs, _, rest, .inr hp⟩)
    · exact .inr (.inr ⟨hs, hends.state, hends.lastop⟩)

end Sys2Proof.Machine
end

section
/-! PROOFS. The small-step sequencer refines the atomic reading of a command (92_eei_decisions.md D9; 10_state.md R21):
for each operation, the micro-steps from its entry checks to its end, along the loops of its pseudocode. -/

namespace Sys2Proof.Machine

/-! ### Runs of micro-steps -/

theorem run_succ_of_pending_nil {s : State} (n : Nat) (hp : s.pending = []) :
    Host.Core.run core (n + 1) s = Host.Core.run core n (tick s) := by
  have hstep : core.step s = .next (tick s) := step_of_pending_nil hp
  simp only [Host.Core.run, hstep]

theorem run_add {m n : Nat} {s u : State} (h : Host.Core.run core m s = .next u) :
    Host.Core.run core (m + n) s = Host.Core.run core n u := by
  induction m generalizing s with
  | zero => cases h; rw [Nat.zero_add]
  | succ m ih =>
    rw [Nat.succ_add]
    rcases hstep : core.step s with s' | r | r <;> simp only [Host.Core.run, hstep] at h ⊢
    · exact ih h
    · cases h
    · cases h

/-- Enough steps lead from `s` to `t`. -/
def RunsTo (s t : State) : Prop := ∃ n, Host.Core.run core n s = .next t

theorem RunsTo.refl (s : State) : RunsTo s s := ⟨0, rfl⟩

theorem RunsTo.trans {s t u : State} (h : RunsTo s t) (h' : RunsTo t u) : RunsTo s u := by
  obtain ⟨m, hm⟩ := h
  obtain ⟨n, hn⟩ := h'
  exact ⟨m + n, (run_add hm).trans hn⟩

/-- With no host action coming, a micro-step is a step. -/
theorem RunsTo.tick {s : State} (hp : s.pending = []) : RunsTo s (tick s) := ⟨1, run_succ_of_pending_nil 0 hp⟩

/-! ### The entry checks do not look at the sequencer state they start from -/

section Checks

variable (s : State) (q : Seq s.cfg.gw s.cfg.w)

theorem enterChecked_seq (op : Op) (c : Checked (Params s.cfg.gw)) :
    State.enterChecked { s with seq := q } op c = s.enterChecked op c := by
  cases c <;> rfl

theorem enterDivsub_seq (c : Checked (Nat × Params s.cfg.gw)) :
    State.enterDivsub { s with seq := q } c = s.enterDivsub c := by
  cases c <;> rfl

theorem enterDivmulti_seq (c : Checked (Nat × Params s.cfg.gw)) :
    State.enterDivmulti { s with seq := q } c = s.enterDivmulti c := by
  cases c <;> rfl

theorem tick_check (op : Op) : tick { s with seq := .check op } = checkTick op s := by
  cases op
  case divsub => exact enterDivsub_seq s _ _
  case divmulti => exact enterDivmulti_seq s _ _
  all_goals exact enterChecked_seq s _ _ _

end Checks

/-! ### The loops of the operations -/

theorem repeatTimes_of_eq_succ {α : Type} {n m : Nat} (h : n = m + 1) (f : α → α) (a : α) :
    repeatTimes n f a = f (repeatTimes m f a) := by
  subst h; rfl

/-- DIVREF's remainder after `t` bit steps of a word (41_reference_divider.md R75); after W of them it is
`divrefWord`. -/
def divrefBits {gw w : Nat} (wk : Work gw w) (word : BitVec w) (t : Nat) : BitVec gw :=
  repeatTimes t (bitStep wk.g wk.carry) (absorb wk.r word wk.shift)

/-- DIVSUB's remainder and word buffer after `j` blocks of a word (44_small_table_divider.md R99); after `W / B` of them
the remainder is `divsubWord`. -/
def divsubBlocks (s : State) (wk : Work s.cfg.gw s.cfg.w) (word : BitVec s.cfg.w) (j : Nat) :
    BitVec s.cfg.gw × BitVec s.cfg.w :=
  repeatTimes j (divsubBlock wk.params wk.B wk.bshift s.tableAt) (wk.r, word)

section Loops

variable {s : State} (hp : s.pending = [])

include hp

theorem RunsTo.check {op : Op} {t : State} (h : RunsTo (checkTick op s) t) : RunsTo { s with seq := .check op } t :=
  (RunsTo.tick (s := { s with seq := .check op }) hp).trans (tick_check s op ▸ h)

theorem RunsTo.enterRun {op : Op} {i j t : Nat} {wk : Work s.cfg.gw s.cfg.w} {u : State}
    (h : Machine.tick (s.enterRun op i j t wk) = u) : RunsTo (s.enterRun op i j t wk) u :=
  h ▸ RunsTo.tick (s := s.enterRun op i j t wk) hp

/-! DIVREF (41_reference_divider.md R75) -/

/-- Word i is absorbed before its first bit step; W bit steps follow. -/
theorem divref_word_runsTo {i : Nat} (hi : i < s.dataLen.toNat) (wk : Work s.cfg.gw s.cfg.w) :
    RunsTo (s.enterRun .divref i 0 0 wk)
      (s.enterRun .divref (i + 1) 0 0 { wk with r := divrefWord wk.params wk.r (s.dataAt i) }) := by
  have bits : ∀ t, t < s.cfg.w → RunsTo (s.enterRun .divref i 0 0 wk) (s.enterRun .divref i 0 t
      { wk with r := if t = 0 then wk.r else divrefBits wk (s.dataAt i) t }) := by
    intro t
    induction t with
    | zero => exact fun _ => .refl _
    | succ t ih =>
      intro ht
      exact (ih (by omega)).trans (RunsTo.enterRun hp
        (divrefTick_bit (r := divrefBits wk (s.dataAt i) t) hi ht (by cases t <;> rfl)))
  obtain ⟨t, ht⟩ := Nat.exists_eq_add_one_of_ne_zero s.cfg.wPos.ne'
  rw [divrefWord, repeatTimes_of_eq_succ ht]
  exact (bits t (by omega)).trans (RunsTo.enterRun hp
    (divrefTick_lastBit (r := divrefBits wk (s.dataAt i) t) hi ht.le (by cases t <;> rfl)))

theorem divref_words_runsTo (wk : Work s.cfg.gw s.cfg.w) (n : Nat) (hn : n ≤ s.dataLen.toNat) :
    RunsTo (s.enterRun .divref 0 0 0 { wk with r := 0#s.cfg.gw })
      (s.enterRun .divref n 0 0 { wk with r := divrefLoop wk.params s.dataAt n }) := by
  induction n with
  | zero => exact .refl _
  | succ n ih => exact (ih (by omega)).trans (divref_word_runsTo hp (by omega) _)

theorem divref_runsTo {t : State} (h : exec (.divref s.runDegree) s = .next t) :
    RunsTo { s with seq := .check .divref } t := by
  refine RunsTo.check hp ?_
  rcases hc : divrefChecks s s.runDegree with f | p
  · cases (execDivref_fails hc).symm.trans h
    rw [checkTick, hc]
    exact .refl _
  · cases (execDivref_passes hc).symm.trans h
    rw [checkTick, hc]
    exact (divref_words_runsTo hp (Work.ofParams s.cfg.w p) _ le_rfl).trans
      (RunsTo.enterRun hp (divrefTick_end (s := s) le_rfl))

/-! MKTBL (42_table_builder.md R82) -/

/-- Entry i takes table_size bit steps from its start; then it is written. -/
theorem mktbl_entry_runsTo {i : Nat} (hi : i < 2 ^ s.runSize) (wk : Work s.cfg.gw s.cfg.w) :
    RunsTo (s.enterRun .mktbl i 0 0 wk)
      ((s.writeTable i (tableEntry wk.params s.runSize i)).enterRun .mktbl (i + 1) 0 0
        { wk with r := tableEntry wk.params s.runSize i }) := by
  have bits : ∀ t, t ≤ s.runSize → RunsTo (s.enterRun .mktbl i 0 0 wk) (s.enterRun .mktbl i 0 t
      { wk with r := if t = 0 then wk.r else tableEntry wk.params t i }) := by
    intro t
    induction t with
    | zero => exact fun _ => .refl _
    | succ t ih =>
      intro ht
      exact (ih (by omega)).trans (RunsTo.enterRun hp
        (mktblTick_bit (r := tableEntry wk.params t i) hi ht (by cases t <;> rfl)))
  exact (bits _ le_rfl).trans (RunsTo.enterRun hp
    (mktblTick_entry (r := tableEntry wk.params s.runSize i) hi le_rfl (by cases s.runSize <;> rfl)))

theorem mktbl_entries_runsTo (wk : Work s.cfg.gw s.cfg.w) (n : Nat) (hn : n ≤ 2 ^ s.runSize) :
    ∃ r, RunsTo (s.enterRun .mktbl 0 0 0 wk) (State.enterRun
      { s with table := loopUpTo n (fun i m => m.write i (tableEntry wk.params s.runSize i)) s.table }
      .mktbl n 0 0 { wk with r := r }) := by
  induction n with
  | zero => exact ⟨wk.r, .refl _⟩
  | succ n ih =>
    obtain ⟨r, h⟩ := ih (by omega)
    exact ⟨_, h.trans (mktbl_entry_runsTo (s := { s with
      table := loopUpTo n (fun i m => m.write i (tableEntry wk.params s.runSize i)) s.table }) hp hn
      { wk with r := r })⟩

theorem mktbl_runsTo {t : State} (h : exec (.mktbl s.runDegree s.runSize) s = .next t) :
    RunsTo { s with seq := .check .mktbl } t := by
  refine RunsTo.check hp ?_
  rcases hc : mktblChecks s s.runDegree s.runSize with f | p
  · cases (execMktbl_fails hc).symm.trans h
    rw [checkTick, hc]
    exact .refl _
  · cases (execMktbl_passes hc).symm.trans h
    rw [checkTick, hc]
    obtain ⟨r, hrun⟩ := mktbl_entries_runsTo hp (Work.ofParams s.cfg.w p) _ le_rfl
    exact hrun.trans (RunsTo.enterRun (s := { s with table := buildTable p s.runSize s.table }) hp
      (mktblTick_end le_rfl))

/-! DIVWORD (43_word_table_divider.md R90) -/

theorem divword_words_runsTo (wk : Work s.cfg.gw s.cfg.w) (n : Nat) (hn : n ≤ s.dataLen.toNat) :
    ∃ idx, RunsTo (s.enterRun .divword 0 0 0 { wk with r := 0#s.cfg.gw })
      (s.enterRun .divword n 0 0 { wk with r := divwordLoop wk.params s.tableAt s.dataAt n, idx := idx }) := by
  induction n with
  | zero => exact ⟨wk.idx, .refl _⟩
  | succ n ih =>
    obtain ⟨idx, h⟩ := ih (by omega)
    exact ⟨_, h.trans (RunsTo.enterRun hp (divwordTick_word (s := s) hn))⟩

theorem divword_runsTo {t : State} (h : exec (.divword s.runDegree) s = .next t) :
    RunsTo { s with seq := .check .divword } t := by
  refine RunsTo.check hp ?_
  rcases hc : divwordChecks s s.runDegree with f | p
  · cases (execDivword_fails hc).symm.trans h
    rw [checkTick, hc]
    exact .refl _
  · cases (execDivword_passes hc).symm.trans h
    rw [checkTick, hc]
    obtain ⟨idx, hrun⟩ := divword_words_runsTo hp (Work.ofParams s.cfg.w p) _ le_rfl
    exact RunsTo.trans hrun (RunsTo.enterRun hp (divwordTick_end (s := s) le_rfl))

/-! DIVSUB (44_small_table_divider.md R99) -/

/-- Word i is loaded into the word buffer before its first block; n blocks of it follow. -/
theorem divsub_word_runsTo {i : Nat} (hi : i < s.dataLen.toNat) (wk : Work s.cfg.gw s.cfg.w)
    (hn : wk.n = s.cfg.w / wk.B) (hpos : 0 < wk.n) :
    ∃ buf idx, RunsTo (s.enterRun .divsub i 0 0 wk) (s.enterRun .divsub (i + 1) 0 0
      { wk with
        r := divsubWord wk.params wk.B wk.bshift s.tableAt wk.r (s.dataAt i)
        buf := buf
        idx := idx }) := by
  have blocks : ∀ j, j < wk.n → ∃ idx, RunsTo (s.enterRun .divsub i 0 0 wk) (s.enterRun .divsub i j 0
      { wk with
        r := (divsubBlocks s wk (s.dataAt i) j).1
        buf := if j = 0 then wk.buf else (divsubBlocks s wk (s.dataAt i) j).2
        idx := idx }) := by
    intro j
    induction j with
    | zero => exact fun _ => ⟨wk.idx, .refl _⟩
    | succ j ih =>
      intro hj
      obtain ⟨idx, h⟩ := ih (by omega)
      exact ⟨_, h.trans (RunsTo.enterRun hp
        (divsubTick_block (s := s) (buf := (divsubBlocks s wk (s.dataAt i) j).2) hi hj (by cases j <;> rfl)))⟩
  obtain ⟨j, hj⟩ := Nat.exists_eq_add_one_of_ne_zero hpos.ne'
  obtain ⟨idx, h⟩ := blocks j (by omega)
  rw [divsubWord, ← hn, repeatTimes_of_eq_succ hj]
  exact ⟨_, _, h.trans (RunsTo.enterRun hp
    (divsubTick_lastBlock (s := s) (buf := (divsubBlocks s wk (s.dataAt i) j).2) hi hj.le (by cases j <;> rfl)))⟩

theorem divsub_words_runsTo (wk : Work s.cfg.gw s.cfg.w) (hn : wk.n = s.cfg.w / wk.B) (hpos : 0 < wk.n) (n : Nat)
    (hlen : n ≤ s.dataLen.toNat) :
    ∃ buf idx, RunsTo (s.enterRun .divsub 0 0 0 { wk with r := 0#s.cfg.gw }) (s.enterRun .divsub n 0 0
      { wk with r := divsubLoop wk.params wk.B wk.bshift s.tableAt s.dataAt n, buf := buf, idx := idx }) := by
  induction n with
  | zero => exact ⟨wk.buf, wk.idx, .refl _⟩
  | succ n ih =>
    obtain ⟨buf, idx, h⟩ := ih (by omega)
    obtain ⟨buf', idx', h'⟩ := divsub_word_runsTo hp hlen
      { wk with r := divsubLoop wk.params wk.B wk.bshift s.tableAt s.dataAt n, buf := buf, idx := idx } hn hpos
    exact ⟨buf', idx', h.trans h'⟩

theorem divsub_runsTo {t : State} (h : exec (.divsub s.runDegree) s = .next t) :
    RunsTo { s with seq := .check .divsub } t := by
  refine RunsTo.check hp ?_
  rcases hc : divsubChecks s s.runDegree with f | ⟨B, p⟩
  · cases (execDivsub_fails hc).symm.trans h
    rw [checkTick, hc]
    exact .refl _
  · cases (execDivsub_passes hc).symm.trans h
    rw [checkTick, hc]
    obtain ⟨-, hB, hBw, -, -⟩ := divsubChecks_passes hc
    obtain ⟨buf, idx, hrun⟩ := divsub_words_runsTo hp
      { Work.ofParams s.cfg.w p with B := B, n := s.cfg.w / B, bshift := s.runDegree - B } rfl
      (Nat.div_pos hBw hB) _ le_rfl
    exact RunsTo.trans hrun (RunsTo.enterRun hp (divsubTick_end (s := s) le_rfl))

/-! DIVMULTI (45_big_table_divider.md R107, R108) -/

/-- The group of m words from index i: its words, then its table step. -/
theorem divmulti_group_runsTo {i m : Nat} (hi : i < s.dataLen.toNat) (wk : Work s.cfg.gw s.cfg.w)
    (hm : m = min wk.k (s.dataLen.toNat - i)) (hpos : 0 < m) :
    ∃ wk', wk'.k = wk.k ∧ wk'.mask = wk.mask ∧
      wk'.r = divmultiGroup s.runDegree m i wk.mask s.tableAt s.dataAt wk.r ∧
      RunsTo (s.enterRun .divmulti i 0 0 wk) (s.enterRun .divmulti (i + m) 0 0 wk') := by
  have words : ∀ j, j < m → RunsTo (s.enterRun .divmulti i 0 0 wk) (s.enterRun .divmulti i j 0
      { wk with
        r := loopUpTo j (fun j r => divmultiAbsorb s.runDegree j r (s.dataAt (i + j))) wk.r
        m := if j = 0 then wk.m else m }) := by
    intro j
    induction j with
    | zero => exact fun _ => .refl _
    | succ j ih =>
      intro hj
      exact (ih (by omega)).trans (RunsTo.enterRun hp
        (divmultiTick_word (s := s) hi (by cases j <;> simp [hm]) hj))
  obtain ⟨j, rfl⟩ := Nat.exists_eq_add_one_of_ne_zero hpos.ne'
  refine ⟨_, ?_, ?_, ?_, (words j (by omega)).trans (RunsTo.enterRun hp
    (divmultiTick_lastWord (s := s) hi (by cases j <;> simp [hm]) le_rfl rfl))⟩ <;> rfl

/-- From a group's start to the end: each turn takes at least one word. -/
theorem divmulti_groups_runsTo (fuel : Nat) {i : Nat} (wk : Work s.cfg.gw s.cfg.w) (hk : 0 < wk.k)
    (hfuel : s.dataLen.toNat ≤ i + fuel) :
    RunsTo (s.enterRun .divmulti i 0 0 wk)
      (s.finishRem (divmultiLoop s.runDegree wk.k wk.mask s.tableAt s.dataAt s.dataLen.toNat fuel i wk.r)) := by
  induction fuel generalizing i wk with
  | zero => exact RunsTo.enterRun hp (divmultiTick_end hfuel)
  | succ fuel ih =>
    rw [divmultiLoop]
    split
    · rename_i hi
      obtain ⟨wk', hk', hmask', hr', hrun⟩ := divmulti_group_runsTo hp hi wk rfl (by omega)
      have hrest := ih wk' (hk'.symm ▸ hk) (i := i + min wk.k (s.dataLen.toNat - i)) (by omega)
      rw [hk', hmask', hr'] at hrest
      exact hrun.trans hrest
    · exact RunsTo.enterRun hp (divmultiTick_end (s := s) (by omega))

theorem divmulti_runsTo {t : State} (h : exec (.divmulti s.runDegree) s = .next t) :
    RunsTo { s with seq := .check .divmulti } t := by
  refine RunsTo.check hp ?_
  rcases hc : divmultiChecks s s.runDegree with f | ⟨B, p⟩
  · cases (execDivmulti_fails hc).symm.trans h
    rw [checkTick, hc]
    exact .refl _
  · cases (execDivmulti_passes hc).symm.trans h
    rw [checkTick, hc]
    obtain ⟨-, hB, hmod, -, -⟩ := divmultiChecks_passes hc
    exact divmulti_groups_runsTo hp _ { Work.ofParams s.cfg.w p with B := B, k := B / s.cfg.w }
      (div_pos_of_mod_eq_zero s.cfg.wPos hB hmod) (by omega)

/-! NORM (40_normalizer.md R68) -/

theorem norm_runsTo {t : State} (h : exec (.norm s.runDegree s.runSize) s = .next t) :
    RunsTo { s with seq := .check .norm } t := by
  refine RunsTo.check hp ?_
  rcases hc : normChecks s s.runDegree s.runSize with f | p
  · cases (execNorm_fails hc).symm.trans h
    rw [checkTick, hc]
    exact .refl _
  · cases (execNorm_passes hc).symm.trans h
    rw [checkTick, hc]
    exact RunsTo.enterRun hp rfl

/-- The micro-steps of the command in CMD, from its entry checks on, reach what `exec` gives. -/
theorem check_runsTo_exec {t : State} {i : Instr} (hc : decode s.cmd = .ok i) (h : exec i s = .next t) :
    RunsTo { s with seq := .check i.op } t := by
  obtain ⟨hdegree, hsize⟩ := decode_ok_operands hc
  cases i with
  | norm d c =>
    cases hdegree
    cases hsize
    exact norm_runsTo hp h
  | divref d => cases hdegree; exact divref_runsTo hp h
  | mktbl d n =>
    cases hdegree
    cases hsize
    exact mktbl_runsTo hp h
  | divword d => cases hdegree; exact divword_runsTo hp h
  | divsub d => cases hdegree; exact divsub_runsTo hp h
  | divmulti d => cases hdegree; exact divmulti_runsTo hp h

end Loops

/-- Settles O48: an illegal word fails at once in both readings; a command's micro-steps follow its pseudocode. -/
theorem sequencerReachesTheAtomicResult : Obligations.SequencerReachesTheAtomicResult := by
  intro s c hs
  have hstart := (step_of_pending (s := { s with pending := [.startCmd c.toNat] }) rfl).trans
    (deliver_startCmd_toNat c _)
  have hwrite := (step_of_pending (s := { s with pending := [.writeReg 0 c.toNat] }) rfl).trans
    (hostWriteReg_cmd_toNat c _)
  rcases hc : decode c with i | why
  · obtain ⟨t, ht⟩ := exec_next i (takeCommand c { s with pending := [] })
    obtain ⟨n, hrun⟩ := check_runsTo_exec (s := takeCommand c { s with pending := [] }) rfl hc ht
    exact ⟨n, _, t, hstart.trans (congrArg _ (commandStart_ok hs hc)),
      hwrite.trans ((commandWrite_ok (s := { s with pending := [] }) hs hc).trans ht), hrun⟩
  · exact ⟨0, _, _, hstart.trans (congrArg _ (commandStart_illegal hs hc)),
      hwrite.trans (commandWrite_illegal hs hc), rfl⟩

end Sys2Proof.Machine
end

section
/-! PROOFS. What the accesses of an operation and of the host reach (20_memory.md R34, R36, R44, R49): the dividers read
DATA below DATA_LEN and TABLE below TABLE_LEN only, since the running remainder stays below 2^degree and a lookup takes
its top bits; a host write of a store element changes that element alone. -/

namespace Sys2Proof.Machine

/-! ### Loops whose bodies agree on what they visit -/

theorem repeatTimes_eq_loopUpTo {α : Type} (n : Nat) (f : α → α) (a : α) :
    repeatTimes n f a = loopUpTo n (fun _ => f) a := by
  induction n with
  | zero => rfl
  | succ n ih => rw [repeatTimes, ih, loopUpTo_succ]

/-- Two loops agree when, on values that an invariant admits, their bodies agree and keep the invariant. -/
theorem loopUpTo_congr_of_invariant {α : Type} (P : α → Prop) {n : Nat} {f g : Nat → α → α} {a : α} (h0 : P a)
    (h : ∀ i, i < n → ∀ x, P x → f i x = g i x ∧ P (g i x)) :
    loopUpTo n f a = loopUpTo n g a := by
  induction n with
  | zero => rfl
  | succ n ih =>
    have hP : P (loopUpTo n g a) := loopUpTo_induct P h0 fun i hi x hx => (h i (by omega) x hx).2
    rw [loopUpTo_succ, loopUpTo_succ, ih fun i hi => h i (by omega), (h n (by omega) _ hP).1]

/-! ### The running remainder stays below 2^degree, and an index below the table's length -/

section Bounds

variable {gw w d : Nat} {r : BitVec gw}

theorem toNat_and_maskOf_lt (d : Nat) (r : BitVec gw) : (maskOf gw d &&& r).toNat < 2 ^ d := by
  have hmask : (maskOf gw d).toNat ≤ 2 ^ d - 1 := by
    rw [maskOf, BitVec.toNat_ofNat]
    exact Nat.mod_le _ _
  have hpos := Nat.two_pow_pos d
  calc (maskOf gw d &&& r).toNat ≤ (maskOf gw d).toNat := by
        rw [BitVec.toNat_and]
        exact Nat.and_le_left
    _ < 2 ^ d := by omega

theorem toNat_combine_lt (d : Nat) (r : BitVec gw) (n : Nat) (entry : BitVec gw) :
    (combine (maskOf gw d) r n entry).toNat < 2 ^ d :=
  toNat_and_maskOf_lt d _

/-- `n` bits that come in at a shift of at most `d - n` stay below bit `d`. -/
theorem toNat_absorb_lt {word : BitVec w} {n shift : Nat} (hr : r.toNat < 2 ^ d) (hword : word.toNat < 2 ^ n)
    (h : n + shift ≤ d) : (absorb r word shift).toNat < 2 ^ d := by
  rw [absorb, BitVec.toNat_xor]
  refine Nat.xor_lt_two_pow hr ?_
  calc (shl (zext gw word) shift).toNat ≤ word.toNat * 2 ^ shift := by
        rw [toNat_shl, zext, BitVec.toNat_setWidth]
        exact (Nat.mod_le _ _).trans (Nat.mul_le_mul_right _ (Nat.mod_le _ _))
    _ < 2 ^ n * 2 ^ shift := Nat.mul_lt_mul_of_pos_right hword (Nat.two_pow_pos _)
    _ = 2 ^ (n + shift) := (Nat.pow_add ..).symm
    _ ≤ 2 ^ d := Nat.pow_le_pow_right (by norm_num) h

/-- The top `n` of `d` bits are an index below `2^n`. -/
theorem topIndex_lt {n : Nat} (hr : r.toNat < 2 ^ d) (hn : n ≤ d) : topIndex r (d - n) < 2 ^ n := by
  rw [topIndex, toNat_shr]
  refine Nat.div_lt_of_lt_mul ?_
  rwa [← Nat.pow_add, Nat.sub_add_cancel hn]

theorem toNat_topBlock_lt {B : Nat} (hB : B ≤ w) (buf : BitVec w) : (topBlock B buf).toNat < 2 ^ B :=
  topIndex_lt buf.isLt hB

end Bounds

/-! ### The dividers' loops over two tables and two streams that agree where they are read -/

/-- DIVREF reads the stream alone (41_reference_divider.md R75). -/
theorem divrefLoop_congr {gw w len : Nat} {p : Params gw} {data data' : Nat → BitVec w}
    (hdata : ∀ i, i < len → data i = data' i) : divrefLoop p data len = divrefLoop p data' len :=
  loopUpTo_congr _ fun i hi r => by rw [hdata i hi]

section TableDividers

variable {gw w d : Nat} {gen : BitVec gw} {p : Params gw} {table table' : Nat → BitVec gw} {data data' : Nat → BitVec w}

/-- A word of DIVWORD looks up an index below 2^W (43_word_table_divider.md R91). -/
theorem divwordWord_congr (hp : normalize d gen w = .passes p) (htable : ∀ j, j < 2 ^ w → table j = table' j)
    {r : BitVec gw} (hr : r.toNat < 2 ^ d) (word : BitVec w) :
    divwordWord p table r word = divwordWord p table' r word ∧ (divwordWord p table' r word).toNat < 2 ^ d := by
  obtain ⟨⟨-, -, hw⟩, rfl⟩ := normalize_passes_iff.1 hp
  have habsorb := toNat_absorb_lt hr word.isLt (Nat.add_sub_cancel' hw).le
  refine ⟨?_, toNat_combine_lt d _ _ _⟩
  rw [divwordWord, divwordWord, htable _ (topIndex_lt habsorb hw)]

theorem divwordLoop_congr {len : Nat} (hp : normalize d gen w = .passes p)
    (htable : ∀ j, j < 2 ^ w → table j = table' j) (hdata : ∀ i, i < len → data i = data' i) :
    divwordLoop p table data len = divwordLoop p table' data' len := by
  refine loopUpTo_congr_of_invariant (fun r => r.toNat < 2 ^ d) (by simp) fun i hi r hr => ?_
  rw [hdata i hi]
  exact divwordWord_congr hp htable hr _

/-- A block of DIVSUB looks up an index below 2^B (44_small_table_divider.md R100). -/
theorem divsubBlock_congr {B : Nat} (hp : normalize d gen w = .passes p) (hB : B ≤ w)
    (htable : ∀ j, j < 2 ^ B → table j = table' j) {x : BitVec gw × BitVec w} (hx : x.1.toNat < 2 ^ d) :
    divsubBlock p B (d - B) table x = divsubBlock p B (d - B) table' x ∧
      (divsubBlock p B (d - B) table' x).1.toNat < 2 ^ d := by
  obtain ⟨⟨-, -, hw⟩, rfl⟩ := normalize_passes_iff.1 hp
  have hBd : B ≤ d := hB.trans hw
  have habsorb := toNat_absorb_lt hx (toNat_topBlock_lt hB x.2) (Nat.add_sub_cancel' hBd).le
  refine ⟨?_, toNat_combine_lt d _ _ _⟩
  rw [divsubBlock, divsubBlock, divsubCombine, divsubCombine, htable _ (topIndex_lt habsorb hBd)]

theorem divsubWord_congr {B : Nat} (hp : normalize d gen w = .passes p) (hB : B ≤ w)
    (htable : ∀ j, j < 2 ^ B → table j = table' j) {r : BitVec gw} (hr : r.toNat < 2 ^ d) (word : BitVec w) :
    divsubWord p B (d - B) table r word = divsubWord p B (d - B) table' r word ∧
      (divsubWord p B (d - B) table' r word).toNat < 2 ^ d := by
  have hblock := fun (x : BitVec gw × BitVec w) => divsubBlock_congr hp hB htable (x := x)
  rw [divsubWord, divsubWord, repeatTimes_eq_loopUpTo, repeatTimes_eq_loopUpTo]
  exact ⟨congrArg Prod.fst (loopUpTo_congr_of_invariant (fun x => x.1.toNat < 2 ^ d) hr fun _ _ => hblock),
    loopUpTo_induct (fun x => x.1.toNat < 2 ^ d) hr fun _ _ x hx => (hblock x hx).2⟩

theorem divsubLoop_congr {B len : Nat} (hp : normalize d gen w = .passes p) (hB : B ≤ w)
    (htable : ∀ j, j < 2 ^ B → table j = table' j) (hdata : ∀ i, i < len → data i = data' i) :
    divsubLoop p B (d - B) table data len = divsubLoop p B (d - B) table' data' len := by
  refine loopUpTo_congr_of_invariant (fun r => r.toNat < 2 ^ d) (by simp) fun i hi r hr => ?_
  rw [hdata i hi]
  exact divsubWord_congr hp hB htable hr _

/-- A group of m words of DIVMULTI looks up an index below 2^(m*W), also the shorter last group
(45_big_table_divider.md R108, R109). -/
theorem divmultiGroup_congr {m i : Nat} (hm : m * w ≤ d) (htable : ∀ j, j < 2 ^ (m * w) → table j = table' j)
    (hdata : ∀ j, j < m → data (i + j) = data' (i + j)) {r : BitVec gw} (hr : r.toNat < 2 ^ d) :
    divmultiGroup d m i (maskOf gw d) table data r = divmultiGroup d m i (maskOf gw d) table' data' r ∧
      (divmultiGroup d m i (maskOf gw d) table' data' r).toNat < 2 ^ d := by
  have hwords : ∀ j, j < m → ∀ x : BitVec gw, x.toNat < 2 ^ d →
      (divmultiAbsorb d j x (data' (i + j))).toNat < 2 ^ d := by
    intro j hj x hx
    have hjw : (j + 1) * w ≤ m * w := Nat.mul_le_mul_right w hj
    exact toNat_absorb_lt hx (data' (i + j)).isLt (by rw [Nat.add_one_mul] at hjw ⊢; omega)
  have hgroup := loopUpTo_induct (fun x : BitVec gw => x.toNat < 2 ^ d) hr hwords
  refine ⟨?_, toNat_combine_lt d _ _ _⟩
  rw [divmultiGroup, divmultiGroup, loopUpTo_congr r fun j hj x => by rw [hdata j hj], divmultiCombine,
    divmultiCombine, htable _ (topIndex_lt hgroup hm)]

theorem divmultiLoop_congr {k len : Nat} (hk : k * w ≤ d) (htable : ∀ j, j < 2 ^ (k * w) → table j = table' j)
    (hdata : ∀ i, i < len → data i = data' i) (fuel i : Nat) {r : BitVec gw} (hr : r.toNat < 2 ^ d) :
    divmultiLoop d k (maskOf gw d) table data len fuel i r =
      divmultiLoop d k (maskOf gw d) table' data' len fuel i r := by
  induction fuel generalizing i r with
  | zero => rfl
  | succ fuel ih =>
    have hmk : min k (len - i) * w ≤ k * w := Nat.mul_le_mul_right w (Nat.min_le_left _ _)
    have hpow := Nat.pow_le_pow_right (n := 2) (by norm_num) hmk
    obtain ⟨hgroup, hlt⟩ := divmultiGroup_congr (hmk.trans hk) (fun j hj => htable j (hj.trans_le hpow))
      (fun j hj => hdata (i + j) (by omega)) hr
    rw [divmultiLoop, divmultiLoop, hgroup, ih _ hlt]

end TableDividers

/-! ### The dividers' results -/

/-- DIVWORD's checks pass with a table of 2^W entries (43_word_table_divider.md R89). -/
theorem divwordChecks_passes {s : State} {d : Nat} {p : Params s.cfg.gw} (h : divwordChecks s d = .passes p) :
    s.tableLen.toNat = 2 ^ s.cfg.w ∧ normalize d s.gen s.cfg.w = .passes p := by
  rw [divwordChecks] at h
  split at h
  · cases h
  · exact ⟨not_not.1 ‹_›, h⟩

section OtherStores

variable {s : State} {m : Memory s.cfg.w} {m' : Memory s.cfg.gw}
  (hdata : ∀ j, j < s.dataLen.toNat → State.dataAt { s with data := m, table := m' } j = s.dataAt j)
  (htable : ∀ j, j < s.tableLen.toNat → State.tableAt { s with data := m, table := m' } j = s.tableAt j)

include hdata

theorem remainderOf_divref_congr (d : Nat) :
    remainderOf (exec (.divref d) { s with data := m, table := m' }) = remainderOf (exec (.divref d) s) := by
  rw [exec, exec]
  rcases hc : divrefChecks s d with f | p
  · rw [execDivref_fails hc, execDivref_fails (s := { s with data := m, table := m' }) hc]
    rfl
  · rw [execDivref_passes hc, execDivref_passes (s := { s with data := m, table := m' }) hc]
    exact congrArg (fun r => some (r &&& p.mask).toNat) (divrefLoop_congr hdata)

include htable

theorem remainderOf_divword_congr (d : Nat) :
    remainderOf (exec (.divword d) { s with data := m, table := m' }) = remainderOf (exec (.divword d) s) := by
  rw [exec, exec]
  rcases hc : divwordChecks s d with f | p
  · rw [execDivword_fails hc, execDivword_fails (s := { s with data := m, table := m' }) hc]
    rfl
  · obtain ⟨hlen, hp⟩ := divwordChecks_passes hc
    rw [execDivword_passes hc, execDivword_passes (s := { s with data := m, table := m' }) hc]
    exact congrArg (fun r => some r.toNat) (divwordLoop_congr hp (hlen ▸ htable) hdata)

theorem remainderOf_divsub_congr (d : Nat) :
    remainderOf (exec (.divsub d) { s with data := m, table := m' }) = remainderOf (exec (.divsub d) s) := by
  rw [exec, exec]
  rcases hc : divsubChecks s d with f | ⟨B, p⟩
  · rw [execDivsub_fails hc, execDivsub_fails (s := { s with data := m, table := m' }) hc]
    rfl
  · obtain ⟨hlen, -, hB, -, hp⟩ := divsubChecks_passes hc
    rw [execDivsub_passes hc, execDivsub_passes (s := { s with data := m, table := m' }) hc]
    exact congrArg (fun r => some r.toNat) (divsubLoop_congr hp hB (hlen ▸ htable) hdata)

theorem remainderOf_divmulti_congr (d : Nat) :
    remainderOf (exec (.divmulti d) { s with data := m, table := m' }) = remainderOf (exec (.divmulti d) s) := by
  rw [exec, exec]
  rcases hc : divmultiChecks s d with f | ⟨B, p⟩
  · rw [execDivmulti_fails hc, execDivmulti_fails (s := { s with data := m, table := m' }) hc]
    rfl
  · obtain ⟨hlen, -, hmod, hBd, hp⟩ := divmultiChecks_passes hc
    have hB : B / s.cfg.w * s.cfg.w = B := Nat.div_mul_cancel (Nat.dvd_of_mod_eq_zero hmod)
    obtain ⟨-, rfl⟩ := normalize_passes_iff.1 hp
    rw [execDivmulti_passes hc, execDivmulti_passes (s := { s with data := m, table := m' }) hc]
    exact congrArg (fun r => some r.toNat) (divmultiLoop_congr (hB.trans_le hBd)
      (by rw [hB, ← hlen]; exact htable) hdata _ 0 (r := 0#s.cfg.gw) (by simp))

end OtherStores

/-- Settles O42: each divider's loop reads the stream's words and indices below the table's length. -/
theorem dividersReadOnlyStreamAndTable : Obligations.DividersReadOnlyStreamAndTable := by
  intro s m m' d i hi hdata htable
  rcases hi with rfl | rfl | rfl | rfl
  · exact remainderOf_divref_congr hdata d
  · exact remainderOf_divword_congr hdata htable d
  · exact remainderOf_divsub_congr hdata htable d
  · exact remainderOf_divmulti_congr hdata htable d

/-! ### Host writes of store elements -/

theorem hostWriteData_toNat {i : Nat} {s : State} (hi : i < 2 ^ 32 - 1) (hs : s.status.state ≠ .busy)
    (v : BitVec s.cfg.w) : hostWriteData i v.toNat s = .next (s.writeData i v) := by
  rw [hostWriteData, if_neg (by omega), if_neg (mt s.busy_iff.1 hs), if_pos v.isLt, BitVec.ofNat_toNat,
    BitVec.setWidth_eq]

theorem hostWriteTable_toNat {i : Nat} {s : State} (hi : i < 2 ^ 32) (hs : s.status.state ≠ .busy)
    (v : BitVec s.cfg.gw) : hostWriteTable i v.toNat s = .next (s.writeTable i v) := by
  rw [hostWriteTable, if_neg (by omega), if_neg (mt s.busy_iff.1 hs), if_pos v.isLt, BitVec.ofNat_toNat,
    BitVec.setWidth_eq]

/-- Settles O56: the step is the store's write, and the store's laws say what reads then answer. -/
theorem hostWritesOneElement : Obligations.HostWritesOneElement := by
  intro s rest i hs
  constructor
  · intro v hi h
    exact ⟨s.data.write i v, (step_of_pending h).trans (hostWriteData_toNat (s := { s with pending := rest }) hi hs v),
      dataAt_writeData_same s i v, fun j hj => dataAt_writeData_other s v hj⟩
  · intro v hi h
    exact ⟨s.table.write i v,
      (step_of_pending h).trans (hostWriteTable_toNat (s := { s with pending := rest }) hi hs v),
      tableAt_writeTable_same s i v, fun j hj => tableAt_writeTable_other s v hj⟩

end Sys2Proof.Machine
end

section
/-! PROOFS. The encoding of commands (30_encoding.md R51 to R63): a word is determined by its five fields, the decoder
answers a command exactly when the fields spell it, and what follows for the encoder, for the masks of R59, for a CMD write
and for the source's calls. -/

namespace Sys2Proof.Machine

/-! ### A word is its fields -/

/-- The five fields of R51 cover all 32 bits of a word. -/
theorem command_eq_iff_fields (c c' : Command) :
    c = c' ↔ cmdOp c = cmdOp c' ∧ cmdRsv0 c = cmdRsv0 c' ∧ cmdDegree c = cmdDegree c' ∧ cmdSize c = cmdSize c' ∧
      cmdRsv1 c = cmdRsv1 c' := by
  have word_of_fields : ∀ x : Command, cmdRsv1 x ++ (cmdSize x ++ (cmdDegree x ++ (cmdRsv0 x ++ cmdOp x))) = x := by
    intro x
    have join : ∀ a len, x.extractLsb' a len ++ x.extractLsb' 0 a = x.extractLsb' 0 (len + a) := fun a _ =>
      BitVec.extractLsb'_append_extractLsb'_eq_extractLsb' (Nat.zero_add a).symm
    rw [cmdOp, cmdRsv0, cmdDegree, cmdSize, cmdRsv1, join, join, join, join, BitVec.extractLsb'_eq_self]
  constructor
  · rintro rfl
    exact ⟨rfl, rfl, rfl, rfl, rfl⟩
  · rintro ⟨hop, hrsv0, hdegree, hsize, hrsv1⟩
    rw [← word_of_fields c, ← word_of_fields c', hop, hrsv0, hdegree, hsize, hrsv1]

/-- Masking a word masks each of its fields. -/
theorem fields_and (c m : Command) :
    cmdOp (c &&& m) = cmdOp c &&& cmdOp m ∧ cmdRsv0 (c &&& m) = cmdRsv0 c &&& cmdRsv0 m ∧
      cmdDegree (c &&& m) = cmdDegree c &&& cmdDegree m ∧ cmdSize (c &&& m) = cmdSize c &&& cmdSize m ∧
      cmdRsv1 (c &&& m) = cmdRsv1 c &&& cmdRsv1 m :=
  ⟨BitVec.extractLsb'_and, BitVec.extractLsb'_and, BitVec.extractLsb'_and, BitVec.extractLsb'_and,
    BitVec.extractLsb'_and⟩

/-- A word that is an opcode alone, as the matches of R59 are. -/
theorem fields_of_opcode (op : BitVec 3) :
    cmdOp (op.setWidth 32) = op ∧ cmdRsv0 (op.setWidth 32) = 0#5 ∧ cmdDegree (op.setWidth 32) = 0#8 ∧
      cmdSize (op.setWidth 32) = 0#8 ∧ cmdRsv1 (op.setWidth 32) = 0#8 := by
  revert op
  decide

/-- The mask of an operation with two operands (R59) tests OP and both reserved fields. -/
theorem and_sizedMask_eq_iff (c : Command) (op : BitVec 3) :
    c &&& 0xFF0000FF#32 = op.setWidth 32 ↔ cmdOp c = op ∧ cmdRsv0 c = 0#5 ∧ cmdRsv1 c = 0#8 := by
  have hmask : cmdOp 0xFF0000FF#32 = BitVec.allOnes 3 ∧ cmdRsv0 0xFF0000FF#32 = BitVec.allOnes 5 ∧
      cmdDegree 0xFF0000FF#32 = 0#8 ∧ cmdSize 0xFF0000FF#32 = 0#8 ∧ cmdRsv1 0xFF0000FF#32 = BitVec.allOnes 8 := by
    decide
  simp only [command_eq_iff_fields, fields_and, fields_of_opcode, hmask, BitVec.and_allOnes, BitVec.and_zero, true_and]

/-- The mask of a divider (R59) tests SIZE too. -/
theorem and_dividerMask_eq_iff (c : Command) (op : BitVec 3) :
    c &&& 0xFFFF00FF#32 = op.setWidth 32 ↔ cmdOp c = op ∧ cmdRsv0 c = 0#5 ∧ cmdSize c = 0#8 ∧ cmdRsv1 c = 0#8 := by
  have hmask : cmdOp 0xFFFF00FF#32 = BitVec.allOnes 3 ∧ cmdRsv0 0xFFFF00FF#32 = BitVec.allOnes 5 ∧
      cmdDegree 0xFFFF00FF#32 = 0#8 ∧ cmdSize 0xFFFF00FF#32 = BitVec.allOnes 8 ∧
      cmdRsv1 0xFFFF00FF#32 = BitVec.allOnes 8 := by decide
  simp only [command_eq_iff_fields, fields_and, fields_of_opcode, hmask, BitVec.and_allOnes, BitVec.and_zero, true_and]

/-! ### What the decoder answers -/

/-- A word that decodes has its reserved fields 0 and the OP of the command (R52, R57). -/
theorem decode_ok_op {c : Command} {i : Instr} (h : decode c = .ok i) :
    cmdOp c = i.op.code ∧ cmdRsv0 c = 0#5 ∧ cmdRsv1 c = 0#8 := by
  unfold decode at h
  split at h
  case isTrue => cases h
  case isFalse hrsv =>
  refine ⟨?_, by simpa using hrsv⟩
  split at h
  case isTrue hop => cases h; exact eq_of_beq hop
  split at h
  case isTrue hop => obtain ⟨-, rfl⟩ := decodeDivider_ok h; exact eq_of_beq hop
  split at h
  case isTrue hop => cases h; exact eq_of_beq hop
  split at h
  case isTrue hop => obtain ⟨-, rfl⟩ := decodeDivider_ok h; exact eq_of_beq hop
  split at h
  case isTrue hop => obtain ⟨-, rfl⟩ := decodeDivider_ok h; exact eq_of_beq hop
  split at h
  case isTrue hop => obtain ⟨-, rfl⟩ := decodeDivider_ok h; exact eq_of_beq hop
  case isFalse => cases h

/-- The decoder's whole meaning (R51 to R60): a word decodes to a command exactly when its fields spell it, the dividers
spelling SIZE 0 (`Instr.size`). -/
theorem decode_eq_ok_iff (c : Command) (i : Instr) :
    decode c = .ok i ↔ (cmdOp c = i.op.code ∧ cmdRsv0 c = 0#5 ∧ cmdRsv1 c = 0#8) ∧
      i.degree = (cmdDegree c).toNat ∧ i.size = (cmdSize c).toNat := by
  constructor
  · exact fun h => ⟨decode_ok_op h, decode_ok_operands h⟩
  · rintro ⟨⟨hop, hrsv0, hrsv1⟩, hdegree, hsize⟩
    have divider : ∀ mk : Nat → Instr, (cmdSize c).toNat = 0 →
        decodeDivider c mk = .ok (mk (cmdDegree c).toNat) := fun mk h =>
      if_neg (by simp [BitVec.eq_of_toNat_eq (y := 0#8) h])
    cases i with
    | norm d n | mktbl d n =>
      obtain rfl : d = _ := hdegree
      obtain rfl : n = _ := hsize
      simp [decode, hrsv0, hrsv1, hop, Instr.op, Op.code]
    | divref d | divword d | divsub d | divmulti d =>
      obtain rfl : d = _ := hdegree
      simp [decode, hrsv0, hrsv1, hop, Instr.op, Op.code, divider _ hsize.symm]

/-- A word is illegal exactly when it is the word of no command: the decoder is total (R58). -/
theorem exists_decode_eq_illegal_iff (c : Command) : (∃ why, decode c = .illegal why) ↔ ∀ i, decode c ≠ .ok i := by
  cases decode c <;> simp

/-! ### Decoder and encoder -/

theorem decode_encode {i : Instr} (h : i.wf = true) : decode (encode i) = .ok i := by
  obtain ⟨hop, hrsv0, hrsv1, hdegree, hsize⟩ := Laws.EncodedFields.all i h
  obtain ⟨hs, hd⟩ := Laws.EncodedFields.bounds h
  refine (decode_eq_ok_iff _ i).2 ⟨⟨hop, hrsv0, hrsv1⟩, ?_, ?_⟩
  · rw [hdegree, BitVec.toNat_ofNat, Nat.mod_eq_of_lt hd]
  · rw [hsize, BitVec.toNat_ofNat, Nat.mod_eq_of_lt hs]

theorem decodeTableWord_toNat (c : Command) : decodeTableWord 32 c.toNat = (decode c).toOption := by
  rw [decodeTableWord, Nat.mod_eq_of_lt c.isLt, if_pos c.isLt, BitVec.ofNat_toNat, BitVec.setWidth_eq]

/-- Settles O1: the encoded word's fields spell the command, whose operands fit them. -/
theorem decodeOfEncodeIsIdentity : Obligations.DecodeOfEncodeIsIdentity := fun i h =>
  ⟨decode_encode h, by rw [decodeTableWord_toNat, decode_encode h, Decoded.toOption]⟩

/-- A decoded command is well-formed: its operands are 8-bit fields (R53, R54). -/
theorem wf_of_decode {c : Command} {i : Instr} (h : decode c = .ok i) : i.wf = true := by
  obtain ⟨hdegree, hsize⟩ := decode_ok_operands h
  have hd : i.degree < 256 := hdegree ▸ (cmdDegree c).isLt
  have hs : i.size < 256 := hsize ▸ (cmdSize c).isLt
  simp [Instr.wf, Instr.degreeFits, Instr.sizeFits, hd, hs]

/-- Settles O2: the word and the word of its command have the same five fields. -/
theorem encodeOfDecodeIsIdentity : Obligations.EncodeOfDecodeIsIdentity := by
  intro c i h
  have hwf := wf_of_decode h
  obtain ⟨hop, hrsv0, hrsv1, hdegree, hsize⟩ := Laws.EncodedFields.all i hwf
  obtain ⟨⟨hop', hrsv0', hrsv1'⟩, hdegree', hsize'⟩ := (decode_eq_ok_iff c i).1 h
  refine ⟨hwf, (command_eq_iff_fields _ c).2 ⟨?_, ?_, ?_, ?_, ?_⟩⟩
  · rw [hop, hop']
  · rw [hrsv0, hrsv0']
  · rw [hdegree, hdegree', BitVec.ofNat_toNat, BitVec.setWidth_eq]
  · rw [hsize, hsize', BitVec.ofNat_toNat, BitVec.setWidth_eq]
  · rw [hrsv1, hrsv1']

/-- Settles O4: the six words' fields spell their commands; bit 4 of the last word lies in RSV0. -/
theorem specWordsDecode : Obligations.SpecWordsDecode := by
  unfold Obligations.SpecWordsDecode
  decide

/-! ### Masks and matches (R59) -/

section Rows

variable {c : Command} {i : Instr} (hdegree : i.degree = (cmdDegree c).toNat)

include hdegree

/-- A row with two free fields. -/
theorem and_sizedMask_eq_iff_decode (hsize : i.size = (cmdSize c).toNat) :
    c &&& 0xFF0000FF#32 = i.op.code.setWidth 32 ↔ decode c = .ok i := by
  rw [and_sizedMask_eq_iff, decode_eq_ok_iff, and_iff_left (And.intro hdegree hsize)]

/-- A divider's row, whose match asks for SIZE 0. -/
theorem and_dividerMask_eq_iff_decode (hsize : i.size = 0) :
    c &&& 0xFFFF00FF#32 = i.op.code.setWidth 32 ↔ decode c = .ok i := by
  have hzero : cmdSize c = 0#8 ↔ i.size = (cmdSize c).toNat := by
    rw [hsize, eq_comm, ← BitVec.toNat_inj, BitVec.toNat_ofNat, Nat.zero_mod]
  rw [and_dividerMask_eq_iff, decode_eq_ok_iff, hzero]
  tauto

end Rows

/-- Settles O3: row by row from the two masks' laws; a command that decodes has the operands its row gives, so a word that
no row selects is illegal. -/
theorem maskAndMatchSelectTheOperation : Obligations.MaskAndMatchSelectTheOperation := by
  intro c
  have norm := and_sizedMask_eq_iff_decode (c := c) (i := .norm (cmdDegree c).toNat (cmdSize c).toNat) rfl rfl
  have divref := and_dividerMask_eq_iff_decode (c := c) (i := .divref (cmdDegree c).toNat) rfl rfl
  have mktbl := and_sizedMask_eq_iff_decode (c := c) (i := .mktbl (cmdDegree c).toNat (cmdSize c).toNat) rfl rfl
  have divword := and_dividerMask_eq_iff_decode (c := c) (i := .divword (cmdDegree c).toNat) rfl rfl
  have divsub := and_dividerMask_eq_iff_decode (c := c) (i := .divsub (cmdDegree c).toNat) rfl rfl
  have divmulti := and_dividerMask_eq_iff_decode (c := c) (i := .divmulti (cmdDegree c).toNat) rfl rfl
  refine ⟨norm, divref, mktbl, divword, divsub, divmulti, (exists_decode_eq_illegal_iff c).trans ⟨fun h => ?_, ?_⟩⟩
  · exact ⟨mt norm.1 (h _), mt divref.1 (h _), mt mktbl.1 (h _), mt divword.1 (h _), mt divsub.1 (h _),
      mt divmulti.1 (h _)⟩
  · rintro ⟨hnorm, hdivref, hmktbl, hdivword, hdivsub, hdivmulti⟩ i hi
    obtain ⟨hdegree, hsize⟩ := decode_ok_operands hi
    cases i with
    | norm d n => cases hdegree; cases hsize; exact hnorm (norm.2 hi)
    | divref d => cases hdegree; exact hdivref (divref.2 hi)
    | mktbl d n => cases hdegree; cases hsize; exact hmktbl (mktbl.2 hi)
    | divword d => cases hdegree; exact hdivword (divword.2 hi)
    | divsub d => cases hdegree; exact hdivsub (divsub.2 hi)
    | divmulti d => cases hdegree; exact hdivmulti (divmulti.2 hi)

/-! ### A CMD write (R56, R57, R60) -/

theorem step_of_cmdWrite {s : State} {c : Command} {rest : List Event}
    (h : s.pending = .writeReg 0 c.toNat :: rest) : step s = commandWrite c { s with pending := rest } :=
  (step_of_pending h).trans (hostWriteReg_cmd_toNat c _)

/-- Settles O5: taking the command leaves the state the statement names. -/
theorem stepRunsTheDecodedCommand : Obligations.StepRunsTheDecodedCommand := fun s _ _ rest h hs hc =>
  (step_of_cmdWrite h).trans (commandWrite_ok (s := { s with pending := rest }) hs hc)

/-- Every reason of R56 and R57 keeps a word from decoding. -/
theorem decode_ne_ok_of_fields {c : Command}
    (h : cmdRsv0 c ≠ 0#5 ∨ cmdRsv1 c ≠ 0#8 ∨ cmdOp c = 0#3 ∨ cmdOp c = 7#3 ∨
      (cmdOp c ∈ [2#3, 4#3, 5#3, 6#3] ∧ cmdSize c ≠ 0#8)) (i : Instr) : decode c ≠ .ok i := by
  intro hi
  obtain ⟨⟨hop, hrsv0, hrsv1⟩, -, hsize⟩ := (decode_eq_ok_iff c i).1 hi
  rcases h with h | h | h | h | ⟨hdivider, h⟩
  · exact h hrsv0
  · exact h hrsv1
  · exact absurd (hop.symm.trans h) (by cases i.op <;> decide)
  · exact absurd (hop.symm.trans h) (by cases i.op <;> decide)
  · have hzero : i.size = 0 := by
      cases i with
      | norm d n | mktbl d n => simp [hop, Instr.op, Op.code] at hdivider
      | divref d | divword d | divsub d | divmulti d => rfl
    exact h (BitVec.eq_of_toNat_eq (hsize.symm.trans hzero))

/-- Settles O6: the word decodes to no command, so the write ends in the failure entry of R136. -/
theorem illegalCommandChangesOnlyStatus : Obligations.IllegalCommandChangesOnlyStatus := by
  intro s c rest h hs hfields
  obtain ⟨why, hc⟩ := (exists_decode_eq_illegal_iff c).2 (decode_ne_ok_of_fields hfields)
  exact (step_of_cmdWrite h).trans (commandWrite_illegal (s := { s with pending := rest }) hs hc)

/-! ### The source's calls (R53, R63) -/

/-- A call that the wrapper answers by itself performs no host action and reports the wrapper's failure. -/
theorem SourceCall.events_result_of_wrapperFailure {c : SourceCall} {f : Failure} (h : c.wrapperFailure = some f) :
    c.events = [] ∧ ∀ s, c.result s = .failure f.code.toNat := by
  simp [SourceCall.events, SourceCall.result, h]

theorem SourceCall.wrapperFailure_of_size {c : SourceCall} (hd : c.command.degree < 256) (hs : 256 ≤ c.command.size) :
    c.wrapperFailure = some c.sizeFailure := by
  have hdegree : c.command.degreeFits = true := decide_eq_true hd
  have hsize : c.command.sizeFits = false := decide_eq_false (by omega)
  simp [SourceCall.wrapperFailure, hdegree, hsize]

/-- An event that is no write of CMD, in neither reading of D9. -/
def Event.LeavesCmd (e : Event) : Prop := ∀ v, e ≠ .writeReg 0 v ∧ e ≠ .startCmd v

theorem leavesCmd_writeReg {n : Nat} (h : n ≠ 0) (v : Nat) : (Event.writeReg n v).LeavesCmd :=
  fun _ => ⟨by simp [h], nofun⟩

theorem leavesCmd_elementWrites {mk : Nat → Nat → Event} (hmk : ∀ i v, (mk i v).LeavesCmd) (vs : List Nat) (i : Nat) :
    ∀ e ∈ elementWrites mk i vs, e.LeavesCmd := by
  induction vs generalizing i with
  | nil => simp [elementWrites]
  | cons v rest ih => exact List.forall_mem_cons.2 ⟨hmk i v, ih (i + 1)⟩

theorem leavesCmd_hostData (ws : List Nat) : ∀ e ∈ hostData ws, e.LeavesCmd :=
  List.forall_mem_append.2 ⟨leavesCmd_elementWrites (mk := .writeData) (fun _ _ _ => ⟨nofun, nofun⟩) ws 0,
    List.forall_mem_singleton.2 (leavesCmd_writeReg (by decide) _)⟩

theorem leavesCmd_hostTableChoice (es : Option (List Nat)) : ∀ e ∈ hostTableChoice es, e.LeavesCmd := by
  cases es with
  | none => simp [hostTableChoice]
  | some es =>
    exact List.forall_mem_append.2 ⟨leavesCmd_elementWrites (mk := .writeTable) (fun _ _ _ => ⟨nofun, nofun⟩) es 0,
      List.forall_mem_singleton.2 (leavesCmd_writeReg (by decide) _)⟩

theorem SourceCall.leavesCmd_operands (c : SourceCall) : ∀ e ∈ c.operands, e.LeavesCmd := by
  have hgen : ∀ g, (hostGen g).LeavesCmd := leavesCmd_writeReg (by decide)
  cases c with
  | normalize d g n | buildTable d g n => exact List.forall_mem_singleton.2 (hgen g)
  | divideNoTable d g ws => exact List.forall_mem_cons.2 ⟨hgen g, leavesCmd_hostData ws⟩
  | divideWordTable d g ws es | divideSmallTable d g ws es | divideBigTable d g ws es =>
    exact List.forall_mem_cons.2 ⟨hgen g, List.forall_mem_append.2 ⟨leavesCmd_hostData ws, leavesCmd_hostTableChoice es⟩⟩

/-- Settles O57: the wrapper answers by itself exactly the calls whose command is not well-formed; the others write CMD
once, at the end, with the encoded command. -/
theorem sourceCallsPresentOnlyWhatFits : Obligations.SourceCallsPresentOnlyWhatFits := by
  intro c
  refine ⟨fun hd => ?_, fun hwf => ?_, fun hwf => ?_, fun d g n hd hn => ⟨?_, ?_⟩⟩
  · have hfits : c.command.degreeFits = false := decide_eq_false (by omega)
    obtain ⟨hevents, hresult⟩ := SourceCall.events_result_of_wrapperFailure (SourceCall.wrapperFailure_of_degree hfits)
    exact ⟨hevents, .degreeAboveGw, by decide, hresult⟩
  · exact ⟨c.operands, encode c.command, SourceCall.events_of_wf hwf, decode_encode hwf, c.leavesCmd_operands,
      SourceCall.result_of_wf hwf⟩
  · cases hfail : c.wrapperFailure with
    | none => simp [(c.wrapperFailure_eq_none_iff).1 hfail] at hwf
    | some f => exact (SourceCall.events_result_of_wrapperFailure hfail).1
  · rintro rfl
    exact (SourceCall.events_result_of_wrapperFailure (SourceCall.wrapperFailure_of_size (c := .normalize d g n) hd hn)).2
  · rintro rfl
    exact (SourceCall.events_result_of_wrapperFailure (SourceCall.wrapperFailure_of_size (c := .buildTable d g n) hd hn)).2

end Sys2Proof.Machine
end

section
/-! PROOFS. The normalizer (40_normalizer.md): `normalize` on each of its failures (R66), the numbers in its 4-tuple
(R65), NORM's writes (R68), and that no operation reads the four registers NORM writes (R69). -/

namespace Sys2Proof.Machine

/-! ### The failures of `normalize` (R66) -/

section Normalize

variable {gw d c : Nat} (gen : BitVec gw)

theorem normalize_degree_zero : normalize 0 gen c = .fails .degreeZero := if_pos Nat.zero_lt_one

theorem normalize_degree_above_gw (hgw : gw < d) : normalize d gen c = .fails .degreeAboveGw := by
  rw [normalize, if_neg (by omega), if_pos hgw]

theorem normalize_chunk_above_degree (h0 : d ≠ 0) (hgw : ¬gw < d) (hc : d < c) :
    normalize d gen c = .fails .chunkAboveDegree := by
  rw [normalize, if_neg (by omega), if_neg hgw, if_pos hc]

/-- Masking is idempotent, so `normalize` sees the low `degree` bits of the generator alone (R67). -/
theorem normalize_and_maskOf (d c : Nat) : normalize d (gen &&& maskOf gw d) c = normalize d gen c := by
  rw [normalize, normalize, BitVec.and_assoc, BitVec.and_self]

end Normalize

/-- Settles O11: the generator is used masked only. -/
theorem normalizeMasksTheGenerator : Obligations.NormalizeMasksTheGenerator :=
  fun _ d c gen => (normalize_and_maskOf gen d c).symm

@[simp] theorem failureOf_raise (f : Failure) (s : State) : failureOf (.next (raise f s)) = some f.code := rfl

@[simp] theorem failureOf_finish (s : State) : failureOf (.next (finish s)) = none := rfl

theorem failureOf_norm_fails {s : State} {d c : Nat} {f : Failure} (h : normChecks s d c = .fails f) :
    failureOf (exec (.norm d c) s) = some f.code := by
  rw [exec, execNorm_fails h, failureOf_raise]

theorem failureOf_norm_passes {s : State} {d c : Nat} {p : Params s.cfg.gw} (h : normChecks s d c = .passes p) :
    failureOf (exec (.norm d c) s) = none := by
  rw [exec, execNorm_passes h, failureOf_finish]

/-- Settles O10: NORM fails as `normalize` does, one condition at a time. -/
theorem normalizeFailsInOrder : Obligations.NormalizeFailsInOrder := by
  intro s d c
  split_ifs with h0 hgw hc
  · subst h0
    exact failureOf_norm_fails (normalize_degree_zero s.gen)
  · exact failureOf_norm_fails (normalize_degree_above_gw s.gen hgw)
  · exact failureOf_norm_fails (normalize_chunk_above_degree s.gen h0 hgw hc)
  · exact failureOf_norm_passes (normalize_passes_iff.2 ⟨by omega, rfl⟩)

/-! ### The numbers in the 4-tuple (R65) -/

theorem toNat_maskOf {gw d : Nat} (hd : d ≤ gw) : (maskOf gw d).toNat = 2 ^ d - 1 := by
  have hpos : 0 < 2 ^ d := Nat.two_pow_pos d
  have hpow : 2 ^ d ≤ 2 ^ gw := Nat.pow_le_pow_right Nat.two_pos hd
  rw [maskOf, BitVec.toNat_ofNat, Nat.mod_eq_of_lt (by omega)]

theorem toNat_carryOf {gw d : Nat} (h1 : 1 ≤ d) (hd : d ≤ gw) : (carryOf gw d).toNat = 2 ^ (d - 1) := by
  rw [carryOf, BitVec.toNat_ofNat, Nat.mod_eq_of_lt (Nat.pow_lt_pow_right Nat.one_lt_two (by omega))]

theorem toNat_and_maskOf {gw d : Nat} (v : BitVec gw) (hd : d ≤ gw) : (v &&& maskOf gw d).toNat = v.toNat % 2 ^ d := by
  rw [BitVec.toNat_and, toNat_maskOf hd, Nat.and_two_pow_sub_one_eq_mod]

/-! ### NORM (R68) -/

/-- Settles O9: passed checks write the 4-tuple, failed checks end in the failure entry. -/
theorem normWritesTheNormalizedTuple : Obligations.NormWritesTheNormalizedTuple := by
  intro s d c
  refine ⟨fun hvalid => ?_, fun hinvalid => ?_⟩
  · have hexec := execNorm_passes (s := s) (normalize_passes_iff.2 ⟨hvalid, rfl⟩)
    obtain ⟨h1, hd, -⟩ := hvalid
    have hshift : d - c < 2 ^ 8 := by have := s.cfg.gwLe; omega
    exact ⟨_, hexec, toNat_and_maskOf s.gen hd, Nat.mod_eq_of_lt hshift, toNat_carryOf h1 hd, toNat_maskOf hd, rfl, rfl,
      execNorm_frame hexec⟩
  · rcases hc : normChecks s d c with f | p
    · exact ⟨f.code, execNorm_fails hc⟩
    · exact absurd (normalize_passes_iff.1 hc).1 hinvalid

/-! ### The four registers NORM writes are no operands (R69) -/

/-- The state with these numbers in NGEN, NSHIFT, NCARRY and NMASK. -/
def State.withNormResults (a n b e : Nat) (s : State) : State :=
  { s with
    ngen := BitVec.ofNat s.cfg.gw a
    nshift := BitVec.ofNat 8 n
    ncarry := BitVec.ofNat s.cfg.gw b
    nmask := BitVec.ofNat s.cfg.gw e }

section OtherResults

variable (a n b e : Nat) (s : State)

/-- NORM overwrites all four registers. -/
theorem writeNormalized_withNormResults (p : Params s.cfg.gw) :
    writeNormalized (s.withNormResults a n b e) p = writeNormalized s p := rfl

theorem raise_withNormResults (f : Failure) :
    raise f (s.withNormResults a n b e) = (raise f s).withNormResults a n b e := rfl

/-- MKTBL and the dividers carry the four registers through. -/
theorem exec_withNormResults {i : Instr} (hi : i.op ≠ .norm) :
    ∃ t, exec i s = .next t ∧ exec i (s.withNormResults a n b e) = .next (t.withNormResults a n b e) := by
  cases i with
  | norm => exact absurd rfl hi
  | divref d =>
    rcases hc : divrefChecks s d with f | p
    · exact ⟨_, execDivref_fails hc, execDivref_fails (s := s.withNormResults a n b e) hc⟩
    · exact ⟨_, execDivref_passes hc, execDivref_passes (s := s.withNormResults a n b e) hc⟩
  | mktbl d T =>
    rcases hc : mktblChecks s d T with f | p
    · exact ⟨_, execMktbl_fails hc, execMktbl_fails (s := s.withNormResults a n b e) hc⟩
    · exact ⟨_, execMktbl_passes hc, execMktbl_passes (s := s.withNormResults a n b e) hc⟩
  | divword d =>
    rcases hc : divwordChecks s d with f | p
    · exact ⟨_, execDivword_fails hc, execDivword_fails (s := s.withNormResults a n b e) hc⟩
    · exact ⟨_, execDivword_passes hc, execDivword_passes (s := s.withNormResults a n b e) hc⟩
  | divsub d =>
    rcases hc : divsubChecks s d with f | ⟨B, p⟩
    · exact ⟨_, execDivsub_fails hc, execDivsub_fails (s := s.withNormResults a n b e) hc⟩
    · exact ⟨_, execDivsub_passes hc, execDivsub_passes (s := s.withNormResults a n b e) hc⟩
  | divmulti d =>
    rcases hc : divmultiChecks s d with f | ⟨B, p⟩
    · exact ⟨_, execDivmulti_fails hc, execDivmulti_fails (s := s.withNormResults a n b e) hc⟩
    · exact ⟨_, execDivmulti_passes hc, execDivmulti_passes (s := s.withNormResults a n b e) hc⟩

/-- NORM overwrites the four registers when it ends in DONE and carries them through when it fails. -/
theorem exec_norm_withNormResults {t : State} {d c : Nat} (h : exec (.norm d c) s = .next t) :
    exec (.norm d c) (s.withNormResults a n b e) =
      .next (if t.status.state = .done then t else t.withNormResults a n b e) := by
  rw [exec] at h ⊢
  rcases hc : normChecks s d c with f | p
  · rw [execNorm_fails hc] at h
    cases h
    rw [execNorm_fails (s := s.withNormResults a n b e) hc, raise_withNormResults, if_neg nofun]
  · rw [execNorm_passes hc] at h
    cases h
    rw [execNorm_passes (s := s.withNormResults a n b e) hc, writeNormalized_withNormResults, finish_status]
    exact congrArg _ (if_pos rfl).symm

end OtherResults

/-- Settles O43: by whether the operation is NORM. -/
theorem normResultsAreNotOperands : Obligations.NormResultsAreNotOperands := by
  intro s t a n b e i h
  change exec i (s.withNormResults a n b e) =
    .next (if i.op = .norm ∧ t.status.state = .done then t else t.withNormResults a n b e)
  by_cases hi : i.op = .norm
  · obtain ⟨d, c, rfl⟩ : ∃ d c, i = .norm d c := by cases i <;> simp [Instr.op] at hi ⊢
    simpa only [hi, true_and] using exec_norm_withNormResults a n b e s h
  · obtain ⟨t', ht', hother⟩ := exec_withNormResults a n b e s hi
    obtain rfl : t' = t := by simpa [ht'] using h
    rw [hother, if_neg fun hnorm => hi hnorm.1]

end Sys2Proof.Machine
end

section
/-! PROOFS. The bit step and DIVREF (41_reference_divider.md). The bit step tests bit degree-1 (R72), so DIVREF's loop
is the fold of R75. What depends on the low `degree` bits alone (R73) is read off the polynomial remainder that
those bits are (00_scope.md R12). -/

namespace Sys2Proof.Machine

open Polynomial

/-! ### DIVREF's failures (R76) -/

theorem exec_divref_fails {s : State} {d : Nat} {f : Failure} (h : normalize d s.gen s.cfg.w = .fails f) :
    exec (.divref d) s = .next (failedWith f.code s) :=
  execDivref_fails h

/-- DIVREF's checks pass exactly for W <= degree <= GW: W is at least 1, so degree 0 is shut out (00_scope.md R6). -/
theorem divref_passes_iff {s : State} {d : Nat} {p : Params s.cfg.gw} :
    normalize d s.gen s.cfg.w = .passes p ↔ (s.cfg.w ≤ d ∧ d ≤ s.cfg.gw) ∧
      p = { g := s.maskedGen d, shift := d - s.cfg.w, carry := carryOf s.cfg.gw d, mask := maskOf s.cfg.gw d } := by
  have hpos := s.cfg.wPos
  rw [normalize_passes_iff]
  exact and_congr_left fun _ => ⟨fun ⟨_, hd, hw⟩ => ⟨hw, hd⟩, fun ⟨hw, hd⟩ => ⟨by omega, hd, hw⟩⟩

/-- Settles O14: one failure of `normalize` for each code, and none when its checks pass. -/
theorem divrefFails : Obligations.DivrefFails := by
  intro s d
  refine ⟨fun h0 => ?_, fun hgw => ?_, fun h1 hd hw => ?_, fun hw hd => ?_⟩
  · subst h0
    exact exec_divref_fails (normalize_degree_zero s.gen)
  · exact exec_divref_fails (normalize_degree_above_gw s.gen hgw)
  · exact exec_divref_fails (normalize_chunk_above_degree s.gen (by omega) (by omega) hw)
  · rw [exec, execDivref_passes (divref_passes_iff.2 ⟨⟨hw, hd⟩, rfl⟩), failureOf_finish]

/-! ### DIVREF's result (R72, R75) -/

/-- The bit step looks at bit degree-1 of the remainder (R72). -/
theorem bitStep_carryOf {gw d : Nat} (g : BitVec gw) (h1 : 1 ≤ d) (hd : d ≤ gw) :
    bitStep g (carryOf gw d) = stepOnTopBit d g := by
  funext r
  rw [bitStep_eq, stepOnTopBit]
  cases hb : r.getLsbD (d - 1) with
  | false => rw [if_pos ((and_carryOf_eq_zero_iff r h1 hd).2 hb), if_neg Bool.false_ne_true]
  | true => rw [if_neg (by simp [and_carryOf_eq_zero_iff r h1 hd, hb]), if_pos rfl]

/-- The machine's loop over a list of words, masked once, is the remainder of R75. -/
theorem foldl_divrefWord_and_mask {gw w d : Nat} {gen : BitVec gw} {p : Params gw}
    (hp : normalize d gen w = .passes p) (ws : List (BitVec w)) :
    ws.foldl (divrefWord p) 0#gw &&& p.mask = divrefOver d (gen &&& maskOf gw d) ws := by
  obtain ⟨⟨h1, hd, -⟩, rfl⟩ := normalize_passes_iff.1 hp
  have hword : divrefWord { g := gen &&& maskOf gw d, shift := d - w, carry := carryOf gw d, mask := maskOf gw d } =
      fun r (x : BitVec w) => (stepOnTopBit d (gen &&& maskOf gw d))^[w] (r ^^^ (x.setWidth gw <<< (d - w))) := by
    funext r x
    rw [divrefWord, repeatTimes_eq_iterate, bitStep_carryOf _ h1 hd]
    rfl
  rw [hword, BitVec.and_comm]
  rfl

/-- Settles O13: passed checks write the remainder of R75, failed checks end in the failure entry. -/
theorem divrefCompletes : Obligations.DivrefCompletes := by
  intro s d
  refine ⟨fun hvalid => ?_, fun hinvalid => ?_⟩
  · have hp := divref_passes_iff.2 ⟨hvalid, rfl⟩
    rw [exec, execDivref_passes hp, divrefLoop_eq_foldl_stream, foldl_divrefWord_and_mask hp]
    rfl
  · rcases hc : divrefChecks s d with f | p
    · exact ⟨f.code, exec_divref_fails hc⟩
    · exact absurd (divref_passes_iff.1 hc).1 hinvalid

/-! ### What depends on the low `degree` bits alone (R73) -/

/-- The bits of `v mod 2^d` are the coefficients of the low bits' polynomial. -/
theorem coeff_lowPoly_eq_testBit {n : Nat} (d : Nat) (v : BitVec n) (i : Nat) :
    (lowPoly d v).coeff i = if (v.toNat % 2 ^ d).testBit i then 1 else 0 := by
  simp [Nat.testBit_mod_two_pow, BitVec.testBit_toNat]

/-- Two vectors, of any widths, have the same low bits when these are the same polynomial. -/
theorem lowPoly_eq_iff {n n' d : Nat} {v : BitVec n} {v' : BitVec n'} :
    lowPoly d v = lowPoly d v' ↔ v.toNat % 2 ^ d = v'.toNat % 2 ^ d := by
  constructor
  · intro h
    have hone : ∀ {m : Nat} (x : BitVec m) i, (x.toNat % 2 ^ d).testBit i = true ↔ (lowPoly d x).coeff i = 1 := by
      intro m x i
      rw [coeff_lowPoly_eq_testBit, ite_eq_left_iff, Bool.not_eq_true, imp_iff_not zero_ne_one, Bool.not_eq_false]
    exact Nat.eq_of_testBit_eq fun i => Bool.eq_iff_iff.2 (by rw [hone, hone, h])
  · intro h
    ext i
    rw [coeff_lowPoly_eq_testBit, coeff_lowPoly_eq_testBit, h]

theorem lowPoly_ofNat_mod {gw : Nat} (d : Nat) (r : BitVec gw) :
    lowPoly d (BitVec.ofNat gw (r.toNat % 2 ^ d)) = lowPoly d r := by
  have hlt : r.toNat % 2 ^ d < 2 ^ gw := (Nat.mod_le _ _).trans_lt r.isLt
  rw [lowPoly_eq_iff, BitVec.toNat_ofNat, Nat.mod_eq_of_lt hlt, Nat.mod_mod]

/-- A residue has one representative of degree below the generator polynomial's. -/
theorem residue_eq_iff {gw d : Nat} {gen r r' : BitVec gw} :
    residue d gen r = residue d gen r' ↔ lowPoly d r = lowPoly d r' :=
  ⟨fun h => (lowPoly_eq_modByMonic h).trans (lowPoly_eq_modByMonic rfl).symm, congrArg _⟩

/-- `n` bit steps multiply the residue by `x^n`, for a generator that is masked already. -/
theorem residue_iterate_bitStep {gw d : Nat} {g : BitVec gw} (r : BitVec gw) (h1 : 1 ≤ d) (hd : d ≤ gw)
    (hg : g.toNat < 2 ^ d) (n : Nat) :
    residue d g ((bitStep g (carryOf gw d))^[n] r) = AdjoinRoot.root _ ^ n * residue d g r := by
  have hmasked : g &&& maskOf gw d = g :=
    BitVec.eq_of_toNat_eq ((toNat_and_maskOf g hd).trans (Nat.mod_eq_of_lt hg))
  have hsteps := residue_repeat_bitStep g r h1 hd n
  rwa [hmasked, repeatTimes_eq_iterate] at hsteps

theorem lowPoly_iterate_bitStep_congr {gw d : Nat} {g r r' : BitVec gw} (h1 : 1 ≤ d) (hd : d ≤ gw)
    (hg : g.toNat < 2 ^ d) (n : Nat) (h : lowPoly d r = lowPoly d r') :
    lowPoly d ((bitStep g (carryOf gw d))^[n] r) = lowPoly d ((bitStep g (carryOf gw d))^[n] r') := by
  rw [← residue_eq_iff (gen := g), residue_iterate_bitStep r h1 hd hg, residue_iterate_bitStep r' h1 hd hg,
    residue_eq_iff.2 h]

/-- Settles O12: `n` bit steps act on the residue of the low bits, and XOR is addition of the low bits. -/
theorem lowBitsIgnoreHighBits : Obligations.LowBitsIgnoreHighBits := by
  intro gw d n g r v h1 hd hg _
  have hlow : lowPoly d r = lowPoly d (BitVec.ofNat gw (r.toNat % 2 ^ d)) := (lowPoly_ofNat_mod d r).symm
  have hxor : lowPoly d (r ^^^ v) = lowPoly d (BitVec.ofNat gw (r.toNat % 2 ^ d) ^^^ v) := by
    rw [lowPoly_xor, lowPoly_xor, hlow]
  exact ⟨lowPoly_eq_iff.1 (lowPoly_iterate_bitStep_congr h1 hd hg n hlow), lowPoly_eq_iff.1 hxor⟩

/-! ### The message polynomial of a stream (R12) -/

theorem polyOf_of_toNat_zero {w : Nat} {x : BitVec w} (h : x.toNat = 0) : polyOf x = 0 := by
  rw [show x = 0#w from BitVec.eq_of_toNat_eq (by simpa using h), polyOf_eq_lowPoly, lowPoly_zero]

theorem messagePoly_of_zero {w : Nat} {ws : List (BitVec w)} (h : ∀ x ∈ ws, x.toNat = 0) : messagePoly ws = 0 := by
  induction ws with
  | nil => rfl
  | cons x xs ih =>
    have hstart : (0 : (ZMod 2)[X]) * X ^ w + polyOf x = 0 := by
      rw [polyOf_of_toNat_zero (h x List.mem_cons_self), zero_mul, zero_add]
    rw [messagePoly, List.foldl_cons, hstart]
    exact ih fun y hy => h y (List.mem_cons_of_mem x hy)

theorem messagePoly_map_congr {w w' : Nat} (hw : w = w') {data : Nat → BitVec w} {data' : Nat → BitVec w'}
    {l : List Nat} (h : ∀ i ∈ l, (data i).toNat = (data' i).toNat) :
    messagePoly (l.map data) = messagePoly (l.map data') := by
  subst hw
  rw [List.map_congr_left fun i hi => BitVec.eq_of_toNat_eq (h i hi)]

theorem generatorPoly_congr {n n' d : Nat} {gen : BitVec n} {gen' : BitVec n'}
    (h : gen.toNat % 2 ^ d = gen'.toNat % 2 ^ d) : generatorPoly d gen = generatorPoly d gen' := by
  rw [generatorPoly_eq, generatorPoly_eq, lowPoly_eq_iff.2 h]

/-! ### What follows for REM (R73, R78) -/

/-- A DIVREF that completes leaves in REM the number whose bits are the polynomial remainder. -/
theorem remainderOf_divref_passes {s : State} {d : Nat} (hvalid : s.cfg.w ≤ d ∧ d ≤ s.cfg.gw) :
    ∃ r : BitVec s.cfg.gw, remainderOf (exec (.divref d) s) = some (r.toNat % 2 ^ d) ∧
      lowPoly d r = (messagePoly s.stream * X ^ d) %ₘ generatorPoly d s.gen := by
  have hp := divref_passes_iff.2 ⟨hvalid, rfl⟩
  refine ⟨_, ?_, lowPoly_eq_modByMonic (residue_foldl_divrefWord hp s.stream)⟩
  rw [exec, execDivref_passes hp, divrefLoop_eq_foldl_stream, ← toNat_and_maskOf _ hvalid.2]
  rfl

theorem remainderOf_divref_fails {s : State} {d : Nat} (hinvalid : ¬(s.cfg.w ≤ d ∧ d ≤ s.cfg.gw)) :
    remainderOf (exec (.divref d) s) = none := by
  obtain ⟨code, hexec⟩ := (divrefCompletes s d).2 hinvalid
  rw [hexec]
  rfl

/-- Settles O16: the polynomial remainder is that of the same message and the same generator polynomial. -/
theorem divrefIndependentOfGeneratorWidth : Obligations.DivrefIndependentOfGeneratorWidth := by
  intro s s' d hw hd hd' hgen hlen hdata
  by_cases hwd : s.cfg.w ≤ d
  · obtain ⟨r, hrem, hr⟩ := remainderOf_divref_passes ⟨hwd, hd⟩
    obtain ⟨r', hrem', hr'⟩ := remainderOf_divref_passes ⟨hw ▸ hwd, hd'⟩
    have hmsg : messagePoly s.stream = messagePoly s'.stream := by
      rw [State.stream, State.stream, ← hlen]
      exact messagePoly_map_congr hw fun i hi => hdata i (List.mem_range.1 hi)
    rw [hmsg, generatorPoly_congr hgen, ← hr'] at hr
    rw [hrem, hrem', lowPoly_eq_iff.1 hr]
  · rw [remainderOf_divref_fails fun h => hwd h.1, remainderOf_divref_fails fun h => hwd (hw ▸ h.1)]

/-- Settles O17: `M * x^degree` is divisible by the generator polynomial, when that is `x^degree` and when `M` is 0. -/
theorem zeroGeneratorOrStreamGivesZero : Obligations.ZeroGeneratorOrStreamGivesZero := by
  intro s d v h
  by_cases hvalid : s.cfg.w ≤ d ∧ d ≤ s.cfg.gw
  · obtain ⟨r, hrem, hr⟩ := remainderOf_divref_passes hvalid
    have hv : r.toNat % 2 ^ d = v := Option.some.inj (hrem.symm.trans h)
    have hzero : generatorPoly d s.gen ∣ messagePoly s.stream * X ^ d → v = 0 := by
      intro hdvd
      rw [(modByMonic_eq_zero_iff_dvd (generatorPoly_monic d s.gen)).2 hdvd, ← lowPoly_zero (n := s.cfg.gw) d,
        lowPoly_eq_iff] at hr
      rw [← hv, hr, BitVec.toNat_ofNat, Nat.zero_mod, Nat.zero_mod]
    refine ⟨fun hgen => hzero ?_, fun hstream => hzero ?_⟩
    · have hlow : lowPoly d s.gen = lowPoly d 0#s.cfg.gw := lowPoly_eq_iff.2 (by simpa using hgen)
      rw [generatorPoly_eq, hlow, lowPoly_zero, add_zero]
      exact dvd_mul_left _ _
    · have hmsg : messagePoly s.stream = 0 :=
        messagePoly_of_zero (List.forall_mem_map.2 fun i hi => hstream i (List.mem_range.1 hi))
      rw [hmsg, zero_mul]
      exact dvd_zero _
  · rw [remainderOf_divref_fails hvalid] at h
    cases h

end Sys2Proof.Machine
end

section
/-! PROOFS. The table builder (42_table_builder.md): MKTBL's failures (R81), the state it leaves (R82, R84, R87), the bits
of an entry at and above `degree` (R83), and the low bits of an entry, read as residues modulo the generator polynomial
(R85, R86). -/

namespace Sys2Proof.Machine

/-! ### MKTBL's checks (R81) -/

section Checks

variable {s : State} {d T : Nat}

theorem mktblChecks_of_size_le (hT : T ≤ 32) : mktblChecks s d T = normalize d s.gen T := if_neg (by omega)

theorem mktblChecks_passes_iff {p : Params s.cfg.gw} :
    mktblChecks s d T = .passes p ↔ T ≤ 32 ∧ normalize d s.gen T = .passes p := by
  constructor
  · intro h
    have hT := mktblChecks_passes_size h
    exact ⟨hT, mktblChecks_of_size_le hT ▸ h⟩
  · rintro ⟨hT, h⟩
    rw [mktblChecks_of_size_le hT, h]

theorem exec_mktbl_fails {f : Failure} (h : mktblChecks s d T = .fails f) :
    exec (.mktbl d T) s = .next (failedWith f.code s) :=
  execMktbl_fails h

theorem exec_mktbl_normalize_fails {f : Failure} (hT : T < 33) (h : normalize d s.gen T = .fails f) :
    exec (.mktbl d T) s = .next (failedWith f.code s) :=
  exec_mktbl_fails ((mktblChecks_of_size_le (by omega)).trans h)

end Checks

/-- Settles O20: the size check comes first, then one failure of `normalize` for each code. -/
theorem mktblFails : Obligations.MktblFails := by
  intro s d T
  refine ⟨fun hT => ?_, fun hT h0 => ?_, fun hT hgw => ?_, fun hT h1 hd hc => ?_⟩
  · exact exec_mktbl_fails (f := .tableTooLarge) (if_pos hT)
  · subst h0
    exact exec_mktbl_normalize_fails hT (normalize_degree_zero s.gen)
  · exact exec_mktbl_normalize_fails hT (normalize_degree_above_gw s.gen hgw)
  · exact exec_mktbl_normalize_fails hT (normalize_chunk_above_degree s.gen (by omega) (by omega) hc)

/-! ### The state MKTBL leaves (R82, R84) -/

/-- The state a MKTBL whose checks gave `p` ends in. -/
def State.withBuiltTable (s : State) (p : Params s.cfg.gw) (T : Nat) : State :=
  finish { s with table := buildTable p T s.table, tableLen := BitVec.ofNat 33 (2 ^ T) }

section Built

variable {s t : State} {d T i : Nat} {p : Params s.cfg.gw}

theorem exec_mktbl_passes (h : mktblChecks s d T = .passes p) :
    exec (.mktbl d T) s = .next (s.withBuiltTable p T) :=
  execMktbl_passes h

/-- A MKTBL ends in DONE only when its checks pass. -/
theorem exec_mktbl_done (h : exec (.mktbl d T) s = .next t) (hdone : t.status.state = .done) :
    ∃ p, T ≤ 32 ∧ normalize d s.gen T = .passes p ∧ t = s.withBuiltTable p T := by
  rcases hc : mktblChecks s d T with f | p
  · rw [exec_mktbl_fails hc] at h
    cases h
    cases hdone
  · rw [exec_mktbl_passes hc] at h
    cases h
    obtain ⟨hT, hp⟩ := mktblChecks_passes_iff.1 hc
    exact ⟨p, hT, hp, rfl⟩

theorem tableAt_withBuiltTable (hi : i < 2 ^ T) : (s.withBuiltTable p T).tableAt i = tableEntry p T i :=
  congrArg (Option.getD · (Config.drawTable s.cfg.gw s.epoch i)) (find_buildTable_of_lt p T s.table hi)

/-- TABLE_LEN has a 33rd bit for a table of width 32 (10_state.md R17). -/
theorem toNat_tableLen_withBuiltTable (hT : T ≤ 32) : (s.withBuiltTable p T).tableLen.toNat = 2 ^ T :=
  Nat.mod_eq_of_lt (Nat.pow_lt_pow_right Nat.one_lt_two (by omega))

end Built

/-- The start of an entry as a number, `i * 2^(degree - T)`. -/
theorem entryStart_eq {gw : Nat} (p : Params gw) (i : Nat) : entryStart p i = BitVec.ofNat gw (i * 2 ^ p.shift) := by
  apply BitVec.eq_of_toNat_eq
  rw [entryStart, toNat_shl, BitVec.toNat_ofNat, BitVec.toNat_ofNat, Nat.mod_mul_mod]

/-- The machine's entry is that of R85. -/
theorem tableEntry_eq_entryOf {gw d T : Nat} {gen : BitVec gw} {p : Params gw} (hp : normalize d gen T = .passes p)
    (i : Nat) : tableEntry p T i = entryOf d (gen &&& maskOf gw d) T i := by
  obtain ⟨⟨h1, hd, -⟩, rfl⟩ := normalize_passes_iff.1 hp
  rw [tableEntry, repeatTimes_eq_iterate, bitStep_carryOf _ h1 hd, entryStart_eq, entryOf]

/-- Settles O19: passed checks write the entries and TABLE_LEN; what MKTBL leaves alone is its frame. -/
theorem mktblCompletes : Obligations.MktblCompletes := by
  intro s d T hT hTd h1 hd
  have hp := normalize_passes_iff (gen := s.gen).2 ⟨⟨h1, hd, hTd⟩, rfl⟩
  have hexec := exec_mktbl_passes (mktblChecks_passes_iff.2 ⟨hT, hp⟩)
  obtain ⟨hregs, hdata, htable, henv, -⟩ := execMktbl_frame hexec
  refine ⟨_, hexec, toNat_tableLen_withBuiltTable hT, fun i hi => ?_, htable, hdata, hregs, henv, rfl, rfl⟩
  rw [tableAt_withBuiltTable hi, tableEntry_eq_entryOf hp]
  rfl

/-- Settles O26: the entries are those of a matching table, before any mask. -/
theorem mktblLeavesAMatchingTable : Obligations.MktblLeavesAMatchingTable := by
  intro s t d B h hdone
  obtain ⟨p, hB, hp, rfl⟩ := exec_mktbl_done h hdone
  refine ⟨toNat_tableLen_withBuiltTable hB, fun i hi => ?_⟩
  rw [tableAt_withBuiltTable hi, tableEntry_eq_entryOf hp]
  rfl

/-! ### Building a table twice (R87) -/

/-- An entry is a function of the width, the generator's value, the degree and the size. -/
theorem toNat_tableEntry_congr {gw gw' d T : Nat} {gen : BitVec gw} {gen' : BitVec gw'} {p : Params gw}
    {p' : Params gw'} (hgw : gw = gw') (hgen : gen.toNat = gen'.toNat) (hp : normalize d gen T = .passes p)
    (hp' : normalize d gen' T = .passes p') (i : Nat) : (tableEntry p T i).toNat = (tableEntry p' T i).toNat := by
  subst hgw
  obtain rfl := BitVec.eq_of_toNat_eq hgen
  rw [tableEntry_eq_entryOf hp, tableEntry_eq_entryOf hp']

/-- Building the same table again writes what is there already. -/
theorem buildTable_buildTable {gw : Nat} (p : Params gw) (T : Nat) {m : Memory gw} (h : m.wf) :
    buildTable p T (buildTable p T m) = buildTable p T m := by
  have hwf := wf_buildTable p T h
  refine Memory.eq_of_find_eq (wf_buildTable p T hwf) hwf fun i => ?_
  rcases Nat.lt_or_ge i (2 ^ T) with hi | hi
  · rw [find_buildTable_of_lt p T _ hi, find_buildTable_of_lt p T _ hi]
  · exact find_buildTable_of_le p T _ hi

theorem withBuiltTable_withBuiltTable {s : State} (p : Params s.cfg.gw) (T : Nat) (h : s.table.wf) :
    (s.withBuiltTable p T).withBuiltTable p T = s.withBuiltTable p T :=
  congrArg (fun m => finish { s with table := m, tableLen := BitVec.ofNat 33 (2 ^ T) }) (buildTable_buildTable p T h)

/-- Settles O25: the checks and the entries look at the operands alone, and MKTBL changes none of its operands. -/
theorem buildingATableIsIdempotent : Obligations.BuildingATableIsIdempotent := by
  refine ⟨fun s s' t t' d T hgw hgen h h' hdone => ?_, fun s t d T hwf h hdone => ?_⟩
  · obtain ⟨p, hT, hp, rfl⟩ := exec_mktbl_done h hdone
    have hvalid : 1 ≤ d ∧ d ≤ s'.cfg.gw ∧ T ≤ d := hgw ▸ (normalize_passes_iff.1 hp).1
    have hp' := normalize_passes_iff (gen := s'.gen).2 ⟨hvalid, rfl⟩
    rw [exec_mktbl_passes (mktblChecks_passes_iff.2 ⟨hT, hp'⟩)] at h'
    cases h'
    refine ⟨rfl, rfl, fun i hi => ?_⟩
    rw [toNat_tableLen_withBuiltTable hT] at hi
    rw [tableAt_withBuiltTable hi, tableAt_withBuiltTable hi]
    exact toNat_tableEntry_congr hgw hgen hp hp' i
  · obtain ⟨p, hT, hp, rfl⟩ := exec_mktbl_done h hdone
    have hagain := exec_mktbl_passes (s := s.withBuiltTable p T) (mktblChecks_passes_iff.2 ⟨hT, hp⟩)
    exact hagain.trans (congrArg _ (withBuiltTable_withBuiltTable p T hwf))

/-! ### The bits of an entry at and above `degree` (R83) -/

/-- Where the generator has no bit, a step moves a bit up by one. -/
theorem getLsbD_bitStep_succ {gw b : Nat} {g : BitVec gw} (carry r : BitVec gw) (hg : g.getLsbD (b + 1) = false) :
    (bitStep g carry r).getLsbD (b + 1) = (decide (b + 1 < gw) && r.getLsbD b) := by
  rw [bitStep_eq]
  split <;> simp [hg, -BitVec.getLsbD_eq_getElem]

section HighBits

variable {gw d T : Nat} {gen : BitVec gw} {p : Params gw}

/-- From bit degree-1 up, `n` steps move every bit up by `n`: the masked generator has no bit up there. -/
theorem getLsbD_iterate_bitStep_add (hp : normalize d gen T = .passes p) (r : BitVec gw) {b : Nat} (hb : d ≤ b + 1)
    (n : Nat) : ((bitStep p.g p.carry)^[n] r).getLsbD (b + n) = (decide (b + n < gw) && r.getLsbD b) := by
  have hg : ∀ j, d ≤ j → p.g.getLsbD j = false := by
    intro j hj
    rw [(normalize_passes_iff.1 hp).2, BitVec.getLsbD_and, getLsbD_maskOf, decide_eq_false (by omega : ¬ j < d),
      Bool.and_false, Bool.and_false]
  induction n with
  | zero => simpa using fun h => BitVec.lt_of_getLsbD h
  | succ n ih =>
    rw [Function.iterate_succ_apply', ← Nat.add_assoc, getLsbD_bitStep_succ _ _ (hg _ (by omega)), ih]
    grind

/-- The bit that step `k` tests moves up by one in that step and in each of the `T - k` steps after it. -/
theorem getLsbD_tableEntry_add_sub (hp : normalize d gen T = .passes p) {k : Nat} (hk : 1 ≤ k) (hkT : k ≤ T)
    (hgw : d + T - k < gw) (i : Nat) :
    (tableEntry p T i).getLsbD (d + T - k) = ((bitStep p.g p.carry)^[k - 1] (entryStart p i)).getLsbD (d - 1) := by
  have h1 : 1 ≤ d := (normalize_passes_iff.1 hp).1.1
  have hpos : d + T - k = d - 1 + (T - k + 1) := by omega
  have hcount : T = T - k + 1 + (k - 1) := by omega
  calc (tableEntry p T i).getLsbD (d + T - k)
      = ((bitStep p.g p.carry)^[T - k + 1] ((bitStep p.g p.carry)^[k - 1] (entryStart p i))).getLsbD
          (d - 1 + (T - k + 1)) := by
        rw [tableEntry, repeatTimes_eq_iterate, ← Function.iterate_add_apply, ← hcount, ← hpos]
    _ = ((bitStep p.g p.carry)^[k - 1] (entryStart p i)).getLsbD (d - 1) := by
        rw [getLsbD_iterate_bitStep_add hp _ (by omega), ← hpos, decide_eq_true hgw, Bool.true_and]

/-- The start of an entry is below `2^degree`, so nothing moves up to bit `degree + T` or beyond. -/
theorem getLsbD_tableEntry_of_le (hp : normalize d gen T = .passes p) {i b : Nat} (hi : i < 2 ^ T) (hb : d + T ≤ b) :
    (tableEntry p T i).getLsbD b = false := by
  obtain ⟨⟨-, -, hTd⟩, hp'⟩ := normalize_passes_iff.1 hp
  have hlt : i * 2 ^ p.shift < 2 ^ (b - T) := calc
    i * 2 ^ p.shift < 2 ^ T * 2 ^ p.shift := Nat.mul_lt_mul_of_pos_right hi (Nat.two_pow_pos _)
    _ = 2 ^ d := by rw [hp', ← Nat.pow_add, Nat.add_sub_cancel' hTd]
    _ ≤ 2 ^ (b - T) := Nat.pow_le_pow_right Nat.two_pos (by omega)
  have hstart : (entryStart p i).getLsbD (b - T) = false := by
    rw [entryStart_eq, BitVec.getLsbD_ofNat, Nat.testBit_lt_two_pow hlt, Bool.and_false]
  have hsteps := getLsbD_iterate_bitStep_add hp (entryStart p i) (b := b - T) (by omega) T
  rwa [hstart, Bool.and_false, Nat.sub_add_cancel (by omega), ← repeatTimes_eq_iterate] at hsteps

end HighBits

/-- Settles O21: of the entries as MKTBL computes them. -/
theorem entryHighBitsAreQuotientBits : Obligations.EntryHighBitsAreQuotientBits := by
  intro s t d T i h hdone hi
  obtain ⟨p, -, hp, rfl⟩ := exec_mktbl_done h hdone
  rw [tableAt_withBuiltTable hi]
  refine ⟨fun k hk hkT hgw => ?_, fun b hb => getLsbD_tableEntry_of_le hp hi hb⟩
  refine (getLsbD_tableEntry_add_sub hp hk hkT hgw i).trans ?_
  rw [entryStart_eq, (normalize_passes_iff.1 hp).2]
  rfl

/-! ### The low bits of an entry (R85, R86) -/

section LowBits

open Polynomial

variable {gw d n : Nat} {gen : BitVec gw} {p : Params gw}

theorem residue_xor (r r' : BitVec gw) : residue d gen (r ^^^ r') = residue d gen r + residue d gen r' := by
  rw [residue, lowPoly_xor, map_add]
  rfl

/-- An entry is its start times `x^n`, on residues. -/
theorem residue_tableEntry (hp : normalize d gen n = .passes p) (i : Nat) :
    residue d gen (tableEntry p n i) = AdjoinRoot.root _ ^ n * residue d gen (entryStart p i) := by
  obtain ⟨⟨h1, hd, -⟩, rfl⟩ := normalize_passes_iff.1 hp
  exact residue_repeat_bitStep gen _ h1 hd n

/-- The start of the entry that a lookup finds is what the remainder holds from bit `degree - n` up. -/
theorem getLsbD_entryStart_topIndex (hp : normalize d gen n = .passes p) (r : BitVec gw) (i : Nat) :
    (entryStart p (topIndex r p.shift)).getLsbD i = (decide (d - n ≤ i) && r.getLsbD i) := by
  obtain ⟨-, rfl⟩ := normalize_passes_iff.1 hp
  rw [entryStart, topIndex, BitVec.ofNat_toNat, BitVec.setWidth_eq, getLsbD_shl, getLsbD_shr]
  have hbound : r.getLsbD i = true → i < gw := BitVec.lt_of_getLsbD
  grind

/-- The remainder times `x^n`: its bits below `degree - n` shift up within the low bits, the others are the entry's
start (R85). -/
theorem X_pow_mul_lowPoly (hp : normalize d gen n = .passes p) (r : BitVec gw) :
    X ^ n * lowPoly d r =
      lowPoly d (shl r n) + X ^ n * lowPoly d (entryStart p (topIndex r p.shift)) := by
  obtain ⟨⟨-, hd, hn⟩, -⟩ := normalize_passes_iff.1 hp
  ext i
  rw [coeff_add, coeff_X_pow_mul', coeff_X_pow_mul', coeff_lowPoly, coeff_lowPoly, coeff_lowPoly, getLsbD_shl,
    getLsbD_entryStart_topIndex hp]
  by_cases hni : n ≤ i
  · by_cases hid : i < d
    · simp [hni, hid, show i < gw by omega, show ¬ d - n ≤ i - n by omega, show i - n < d by omega,
        show ¬ i < n by omega]
    · simp [hni, hid, show d - n ≤ i - n by omega]
  · simp [hni, show i < n by omega]

/-- `n` steps on a remainder are, on residues, its shift by `n` and the entry of its top `n` bits (R85). -/
theorem residue_repeat_bitStep_eq_shl_xor_entry (hp : normalize d gen n = .passes p) (r : BitVec gw) :
    residue d gen (repeatTimes n (bitStep p.g p.carry) r) =
      residue d gen (shl r n ^^^ tableEntry p n (topIndex r p.shift)) := by
  have hsplit := congrArg (AdjoinRoot.mk (generatorPoly d gen)) (X_pow_mul_lowPoly hp r)
  rw [map_mul, map_add, map_mul, map_pow, AdjoinRoot.mk_X] at hsplit
  rw [residue_xor, residue_tableEntry hp]
  obtain ⟨⟨h1, hd, -⟩, rfl⟩ := normalize_passes_iff.1 hp
  rw [residue_repeat_bitStep gen r h1 hd]
  exact hsplit

/-- Vectors with equal residues are equal under the mask. -/
theorem and_maskOf_eq_of_residue_eq {r r' : BitVec gw} (hd : d ≤ gw) (h : residue d gen r = residue d gen r') :
    r &&& maskOf gw d = r' &&& maskOf gw d := by
  apply BitVec.eq_of_toNat_eq
  rw [toNat_and_maskOf r hd, toNat_and_maskOf r' hd]
  exact lowPoly_eq_iff.1 (residue_eq_iff.1 h)

/-- Modulo the generator polynomial `x^degree` is the generator's low bits. -/
theorem root_pow_degree (d : Nat) (gen : BitVec gw) :
    AdjoinRoot.root (generatorPoly d gen) ^ d = residue d gen gen := by
  rw [residue, ← AdjoinRoot.mk_X, ← map_pow, AdjoinRoot.mk_eq_mk, generatorPoly_eq, CharTwo.sub_eq_add]

theorem lowPoly_one (h1 : 1 ≤ d) (hd : d ≤ gw) : lowPoly d 1#gw = 1 := by
  ext i
  rw [coeff_lowPoly, coeff_one]
  by_cases hi : i = 0
  · simp [hi, show 0 < d by omega, show 0 < gw by omega]
  · simp [hi]

end LowBits

/-- Settles O22: both sides have the residue of `r * x^n`. -/
theorem entryReplacesBitSteps : Obligations.EntryReplacesBitSteps := by
  intro gw d n gen r p hp _
  obtain ⟨⟨-, hd, -⟩, hp'⟩ := normalize_passes_iff.1 hp
  have hmask : p.mask = maskOf gw d := by rw [hp']
  rw [← repeatTimes_eq_iterate, combine, hmask, BitVec.and_comm (maskOf gw d)]
  exact and_maskOf_eq_of_residue_eq hd (residue_repeat_bitStep_eq_shl_xor_entry hp r)

/-- A step leaves 0 alone, whatever the generator. -/
theorem tableEntry_zero {gw : Nat} (p : Params gw) (T : Nat) : tableEntry p T 0 = 0#gw := by
  have hfix : bitStep p.g p.carry 0#gw = 0#gw := by simp [bitStep_eq]
  rw [tableEntry, repeatTimes_eq_iterate, entryStart_eq, Nat.zero_mul]
  exact Function.iterate_fixed hfix T

/-- Entry 1 of a table as wide as the degree is `x^degree`, so the generator's low bits. -/
theorem toNat_tableEntry_one_mod {gw d : Nat} {gen : BitVec gw} {p : Params gw}
    (hp : normalize d gen d = .passes p) : (tableEntry p d 1).toNat % 2 ^ d = gen.toNat % 2 ^ d := by
  obtain ⟨⟨h1, hd, -⟩, hp'⟩ := normalize_passes_iff.1 hp
  have hstart : entryStart p 1 = 1#gw := by rw [entryStart_eq, hp', Nat.sub_self, Nat.pow_zero]
  have hres : residue d gen (tableEntry p d 1) = residue d gen gen := by
    rw [residue_tableEntry hp, hstart, residue, lowPoly_one h1 hd, map_one, mul_one, root_pow_degree]
  exact lowPoly_eq_iff.1 (residue_eq_iff.1 hres)

/-- Settles O24: steps on 0 give 0, and `degree` steps on 1 give the residue `x^degree`. -/
theorem firstTwoEntries : Obligations.FirstTwoEntries := by
  intro s t d T h hdone
  obtain ⟨p, -, hp, rfl⟩ := exec_mktbl_done h hdone
  refine ⟨?_, ?_⟩
  · rw [tableAt_withBuiltTable (Nat.two_pow_pos T), tableEntry_zero]
    rfl
  · rintro rfl
    have hT : T ≠ 0 := by have := (normalize_passes_iff.1 hp).1.1; omega
    rw [tableAt_withBuiltTable (Nat.one_lt_two_pow hT)]
    exact toNat_tableEntry_one_mod hp

end Sys2Proof.Machine
end

section
/-! PROOFS. The word-table divider (43_word_table_divider.md): one lookup is the table step of R90, for any number of
incoming bits, so DIVWORD's loop is the fold of R90; and DIVWORD's failures in the order of R89. -/

namespace Sys2Proof.Machine

/-! ### One table lookup (R90) -/

section Lookup

variable {gw w : Nat}

/-- A word enters the remainder as the number `word * 2^shift`. -/
theorem absorb_eq_xor_ofNat (r : BitVec gw) (word : BitVec w) (shift : Nat) :
    absorb r word shift = r ^^^ BitVec.ofNat gw (word.toNat * 2 ^ shift) := by
  have hword : shl (zext gw word) shift = BitVec.ofNat gw (word.toNat * 2 ^ shift) := by
    apply BitVec.eq_of_toNat_eq
    rw [toNat_shl, zext, BitVec.toNat_setWidth, BitVec.toNat_ofNat, Nat.mod_mul_mod]
  rw [absorb, hword]

/-- XOR `word` in below bit `degree`, look up the top `n` of the `degree` bits and combine at width `n`: one table step. -/
theorem combine_absorb_eq_tableStep (d n : Nat) (table : Nat → BitVec gw) (r : BitVec gw) (word : BitVec w) :
    combine (maskOf gw d) (absorb r word (d - n)) n (table (topIndex (absorb r word (d - n)) (d - n))) =
      tableStep d n table r word.toNat := by
  rw [absorb_eq_xor_ofNat, topIndex, toNat_shr]
  rfl

end Lookup

/-! ### DIVWORD's result (R90) -/

/-- The machine's loop over a stream is the fold of R90. -/
theorem divwordLoop_eq_divwordOver {gw w d : Nat} {gen : BitVec gw} {p : Params gw}
    (hp : normalize d gen w = .passes p) (table : Nat → BitVec gw) (data : Nat → BitVec w) (len : Nat) :
    divwordLoop p table data len = divwordOver d table ((List.range len).map data) := by
  obtain ⟨-, rfl⟩ := normalize_passes_iff.1 hp
  rw [divwordLoop, loopUpTo_eq_foldl, divwordOver, List.foldl_map]
  simp only [divwordWord, combine_absorb_eq_tableStep]

/-- With TABLE_LEN = 2^W, DIVWORD's checks are those of `normalize` (R89). -/
theorem divwordChecks_of_tableLen {s : State} (hlen : s.tableLen.toNat = 2 ^ s.cfg.w) (d : Nat) :
    divwordChecks s d = normalize d s.gen s.cfg.w :=
  if_neg (not_not.2 hlen)

/-- Settles O27: the checks pass, and the loop over the stream is the fold of R90. -/
theorem divwordCompletes : Obligations.DivwordCompletes := by
  intro s d hlen hw hd
  have hp := divref_passes_iff.2 ⟨⟨hw, hd⟩, rfl⟩
  rw [exec, execDivword_passes ((divwordChecks_of_tableLen hlen d).trans hp), divwordLoop_eq_divwordOver hp]
  rfl

/-! ### DIVWORD's failures (R89) -/

section Failures

variable {s : State} {d : Nat}

theorem exec_divword_fails {f : Failure} (h : divwordChecks s d = .fails f) :
    exec (.divword d) s = .next (failedWith f.code s) :=
  execDivword_fails h

theorem exec_divword_wrongSizedTable (hlen : s.tableLen.toNat ≠ 2 ^ s.cfg.w) :
    exec (.divword d) s = .next (failedWith 0x31#8 s) :=
  exec_divword_fails (f := .wrongSizedTable) (if_pos hlen)

/-- TABLE_LEN has 33 bits, so it is 2^W for no W above 32 (R89's own inference). -/
theorem tableLen_ne_two_pow (hw : 32 < s.cfg.w) : s.tableLen.toNat ≠ 2 ^ s.cfg.w :=
  (s.tableLen.isLt.trans_le (Nat.pow_le_pow_right Nat.two_pos hw)).ne

theorem exec_divword_normalize_fails {f : Failure} (hlen : s.tableLen.toNat = 2 ^ s.cfg.w)
    (h : normalize d s.gen s.cfg.w = .fails f) : exec (.divword d) s = .next (failedWith f.code s) :=
  exec_divword_fails ((divwordChecks_of_tableLen hlen d).trans h)

end Failures

/-- Settles O28: the length check comes first, then one failure of `normalize` for each code. -/
theorem divwordFails : Obligations.DivwordFails := by
  intro s d
  refine ⟨exec_divword_wrongSizedTable, fun hw => exec_divword_wrongSizedTable (tableLen_ne_two_pow hw),
    fun hlen => ⟨fun h0 => ?_, fun hgw => ?_, fun h1 hd hw => ?_⟩⟩
  · subst h0
    exact exec_divword_normalize_fails hlen (normalize_degree_zero s.gen)
  · exact exec_divword_normalize_fails hlen (normalize_degree_above_gw s.gen hgw)
  · exact exec_divword_normalize_fails hlen (normalize_chunk_above_degree s.gen (by omega) (by omega) hw)

end Sys2Proof.Machine
end

section
/-! PROOFS. The small-table divider (44_small_table_divider.md): the word buffer's top bits are the word's blocks, most
significant first, and each block is one table step at width B, so DIVSUB's loop is the fold of R99; and DIVSUB's
failures in the order of R97. -/

namespace Sys2Proof.Machine

/-! ### DIVSUB's checks (R96, R97) -/

/-- Where there is no width B >= 1, the width read back is failure 0x36 (R96). -/
theorem tableWidth_fails {n : Nat} (h : ¬∃ B, 1 ≤ B ∧ n = 2 ^ B) : tableWidth n = .fails .noTableWidth := by
  unfold tableWidth
  split
  · rfl
  · rename_i hc
    obtain ⟨hn, hB⟩ := tableWidth_passes (if_neg hc)
    exact absurd ⟨_, hB, hn⟩ h

section Checks

variable {s : State} {B : Nat} (d : Nat)

theorem divsubChecks_noTableWidth (h : ¬∃ B, 1 ≤ B ∧ s.tableLen.toNat = 2 ^ B) :
    divsubChecks s d = .fails .noTableWidth := by
  rw [divsubChecks, tableWidth_fails h, Checked.andThen]

variable (hB : 1 ≤ B) (hlen : s.tableLen.toNat = 2 ^ B)

include hB hlen

theorem divsubChecks_tableWiderThanWord (hwB : s.cfg.w < B) : divsubChecks s d = .fails .tableWiderThanWord := by
  rw [divsubChecks, hlen, tableWidth_two_pow hB, Checked.andThen, if_pos hwB]

theorem divsubChecks_notExactDivisor (hBw : B ≤ s.cfg.w) (hmod : s.cfg.w % B ≠ 0) :
    divsubChecks s d = .fails .notExactDivisor := by
  rw [divsubChecks, hlen, tableWidth_two_pow hB, Checked.andThen, if_neg (by omega), if_pos hmod]

/-- With a width that divides W, what is left of the checks is `normalize` with chunk W (R97, R98). -/
theorem divsubChecks_of_width (hBw : B ≤ s.cfg.w) (hmod : s.cfg.w % B = 0) :
    divsubChecks s d = (normalize d s.gen s.cfg.w).andThen fun p => .passes (B, p) := by
  rw [divsubChecks, hlen, tableWidth_two_pow hB, Checked.andThen, if_neg (by omega), if_neg (not_not.2 hmod)]

end Checks

/-! ### DIVSUB's result (R99) -/

/-- Block `j` of a word, counted from the most significant (20_memory.md R39). -/
def blockValue {w : Nat} (B : Nat) (x : BitVec w) (j : Nat) : Nat := x.toNat / 2 ^ (w - (j + 1) * B) % 2 ^ B

theorem blocksOf_eq {w : Nat} (B : Nat) (x : BitVec w) :
    blocksOf B x = (List.range (w / B)).map (blockValue B x) := rfl

/-- Of a number's low `a + (c + B)` bits after a shift up by `a`, those from bit `a + c` up are its bits `c` to
`c + B - 1`. -/
theorem mul_two_pow_mod_div (x a c B : Nat) :
    x * 2 ^ a % 2 ^ (a + (c + B)) / 2 ^ (a + c) = x / 2 ^ c % 2 ^ B := by
  calc x * 2 ^ a % 2 ^ (a + (c + B)) / 2 ^ (a + c)
      = 2 ^ a * (x % (2 ^ c * 2 ^ B)) / (2 ^ a * 2 ^ c) := by
        rw [Nat.pow_add, Nat.pow_add, Nat.pow_add, Nat.mul_comm x, Nat.mul_mod_mul_left]
    _ = x % (2 ^ c * 2 ^ B) / 2 ^ c := Nat.mul_div_mul_left _ _ (Nat.two_pow_pos a)
    _ = x / 2 ^ c % 2 ^ B := Nat.mod_mul_right_div_self _ _ _

/-- After `j` blocks have been shifted out, the word buffer's top bits are block `j`. -/
theorem toNat_topBlock_shl {w B j : Nat} (word : BitVec w) (hj : (j + 1) * B ≤ w) :
    (topBlock B (shl word (j * B))).toNat = blockValue B word j := by
  have hsucc : (j + 1) * B = j * B + B := Nat.succ_mul j B
  have hw : w = j * B + (w - (j + 1) * B + B) := by omega
  have htop : w - B = j * B + (w - (j + 1) * B) := by omega
  have hbits := mul_two_pow_mod_div word.toNat (j * B) (w - (j + 1) * B) B
  rwa [← hw, ← htop, ← toNat_shl, ← toNat_shr] at hbits

theorem shl_shl {n : Nat} (v : BitVec n) (k l : Nat) : shl (shl v k) l = shl v (k + l) :=
  (BitVec.shiftLeft_add v k l).symm

section Loop

variable {gw w d B : Nat} {gen : BitVec gw} {p : Params gw}

/-- A block is one table step at width B. -/
theorem divsubBlock_eq (hp : normalize d gen w = .passes p) (table : Nat → BitVec gw) (r : BitVec gw)
    (buf : BitVec w) :
    divsubBlock p B (d - B) table (r, buf) = (tableStep d B table r (topBlock B buf).toNat, shl buf B) := by
  obtain ⟨-, rfl⟩ := normalize_passes_iff.1 hp
  rw [divsubBlock, divsubCombine, combine_absorb_eq_tableStep]

/-- The first `j` turns on a word are table steps over its first `j` blocks, which leave the buffer. -/
theorem repeat_divsubBlock_eq (hp : normalize d gen w = .passes p) (table : Nat → BitVec gw) (r : BitVec gw)
    (word : BitVec w) {j : Nat} (hj : j * B ≤ w) :
    repeatTimes j (divsubBlock p B (d - B) table) (r, word) =
      (((List.range j).map (blockValue B word)).foldl (tableStep d B table) r, shl word (j * B)) := by
  induction j with
  | zero => simp [repeatTimes, shl]
  | succ j ih =>
    rw [repeatTimes, ih ((Nat.mul_le_mul_right B j.le_succ).trans hj), divsubBlock_eq hp, toNat_topBlock_shl word hj,
      shl_shl, ← Nat.succ_mul]
    simp [List.range_succ]

/-- A word of DIVSUB is the fold of R99 over its blocks. -/
theorem divsubWord_eq_foldl (hp : normalize d gen w = .passes p) (table : Nat → BitVec gw) (r : BitVec gw)
    (word : BitVec w) :
    divsubWord p B (d - B) table r word = (blocksOf B word).foldl (tableStep d B table) r := by
  rw [divsubWord, repeat_divsubBlock_eq hp table r word (Nat.div_mul_le_self w B), blocksOf_eq]

/-- The machine's loop over a stream is the fold of R99. -/
theorem divsubLoop_eq_divsubOver (hp : normalize d gen w = .passes p) (table : Nat → BitVec gw)
    (data : Nat → BitVec w) (len : Nat) :
    divsubLoop p B (d - B) table data len = divsubOver d B table ((List.range len).map data) := by
  rw [divsubLoop, loopUpTo_eq_foldl, divsubOver, List.foldl_flatMap, List.foldl_map]
  simp only [divsubWord_eq_foldl hp]

end Loop

/-- Settles O29: the checks pass, and the loop over the stream is the fold of R99. -/
theorem divsubCompletes : Obligations.DivsubCompletes := by
  intro s d B hB hlen hmod hw hd
  have hBw : B ≤ s.cfg.w := Nat.le_of_dvd s.cfg.wPos (Nat.dvd_of_mod_eq_zero hmod)
  have hp := divref_passes_iff.2 ⟨⟨hw, hd⟩, rfl⟩
  have hchecks := (divsubChecks_of_width d hB hlen hBw hmod).trans (Checked.andThen_passes_iff.2 ⟨_, hp, rfl⟩)
  rw [exec, execDivsub_passes hchecks, divsubLoop_eq_divsubOver hp]
  rfl

/-! ### DIVSUB's failures (R97) -/

section Failures

variable {s : State} {d B : Nat} {f : Failure}

theorem exec_divsub_fails (h : divsubChecks s d = .fails f) : exec (.divsub d) s = .next (failedWith f.code s) :=
  execDivsub_fails h

theorem exec_divsub_normalize_fails (hB : 1 ≤ B) (hlen : s.tableLen.toNat = 2 ^ B) (hBw : B ≤ s.cfg.w)
    (hmod : s.cfg.w % B = 0) (h : normalize d s.gen s.cfg.w = .fails f) :
    exec (.divsub d) s = .next (failedWith f.code s) :=
  exec_divsub_fails (by rw [divsubChecks_of_width d hB hlen hBw hmod, h, Checked.andThen])

end Failures

/-- Settles O30: the width's three checks come first, then one failure of `normalize` for each code. -/
theorem divsubFails : Obligations.DivsubFails := by
  intro s d
  refine ⟨fun hnone => exec_divsub_fails (divsubChecks_noTableWidth d hnone), fun B hB hlen =>
    ⟨fun hwB => exec_divsub_fails (divsubChecks_tableWiderThanWord d hB hlen hwB),
      fun hBw hmod => exec_divsub_fails (divsubChecks_notExactDivisor d hB hlen hBw hmod),
      fun hBw hmod => ⟨fun h0 => ?_, fun hgw => ?_, fun h1 hd hw => ?_⟩⟩⟩
  · subst h0
    exact exec_divsub_normalize_fails hB hlen hBw hmod (normalize_degree_zero s.gen)
  · exact exec_divsub_normalize_fails hB hlen hBw hmod (normalize_degree_above_gw s.gen hgw)
  · exact exec_divsub_normalize_fails hB hlen hBw hmod
      (normalize_chunk_above_degree s.gen (by omega) (by omega) hw)

end Sys2Proof.Machine
end

section
/-! PROOFS. The big-table divider (45_big_table_divider.md): the words of a group enter the remainder as the one number
that they are, so a group of m words is one table step at width m*W and DIVMULTI's loop is the fold of R107 and R108;
DIVMULTI's failures in the order of R105; and the narrower tables a table contains (R109). -/

namespace Sys2Proof.Machine

/-! ### A table contains every narrower one (R109) -/

section NarrowTable

variable {gw d n i : Nat}

/-- While an index of `n` bits stands below bit `degree - 1` the tested bit is 0, so a step only shifts. -/
theorem bitStep_shl_of_lt (g : BitVec gw) {k : Nat} (hd : d ≤ gw) (hi : i < 2 ^ n) (hk : k + n < d) :
    bitStep g (carryOf gw d) (shl (BitVec.ofNat gw i) k) = shl (BitVec.ofNat gw i) (k + 1) := by
  have hbit : (shl (BitVec.ofNat gw i) k).getLsbD (d - 1) = false := by
    have htop : i.testBit (d - 1 - k) = false :=
      Nat.testBit_lt_two_pow (hi.trans_le (Nat.pow_le_pow_right Nat.two_pos (by omega)))
    rw [getLsbD_shl, BitVec.getLsbD_ofNat, htop, Bool.and_false, Bool.and_false]
  rw [bitStep_eq, if_pos ((and_carryOf_eq_zero_iff _ (by omega) hd).2 hbit)]
  exact shl_shl _ k 1

theorem iterate_bitStep_shl_of_lt (g : BitVec gw) {k m : Nat} (hd : d ≤ gw) (hi : i < 2 ^ n) (hk : k + m + n ≤ d) :
    (bitStep g (carryOf gw d))^[m] (shl (BitVec.ofNat gw i) k) = shl (BitVec.ofNat gw i) (k + m) := by
  induction m with
  | zero => rfl
  | succ m ih =>
    rw [Function.iterate_succ_apply', ih (by omega), bitStep_shl_of_lt g hd hi (by omega), Nat.add_assoc]

/-- The first `B - n` steps of an entry of width `B` only shift, which leaves the start of the entry of width `n`. -/
theorem tableEntry_eq_of_size_le {B : Nat} {gen : BitVec gw} {p q : Params gw} (hnB : n ≤ B)
    (hp : normalize d gen n = .passes p) (hq : normalize d gen B = .passes q) (hi : i < 2 ^ n) :
    tableEntry q B i = tableEntry p n i := by
  obtain ⟨-, rfl⟩ := normalize_passes_iff.1 hp
  obtain ⟨⟨-, hd, hB⟩, rfl⟩ := normalize_passes_iff.1 hq
  obtain ⟨m, rfl⟩ := Nat.exists_eq_add_of_le hnB
  have hshift : d - (n + m) + m = d - n := by omega
  rw [tableEntry, tableEntry, repeatTimes_eq_iterate, repeatTimes_eq_iterate, entryStart, entryStart,
    Function.iterate_add_apply, iterate_bitStep_shl_of_lt (k := d - (n + m)) _ hd hi (by omega), hshift]

end NarrowTable

/-- Settles O23: below `2^n` the entries are equal, in the bits above `degree` too. -/
theorem wideTableContainsNarrowTable : Obligations.WideTableContainsNarrowTable := by
  intro s t u d n B i hnB ht htdone hu hudone hi
  obtain ⟨p, -, hp, rfl⟩ := exec_mktbl_done ht htdone
  obtain ⟨q, -, hq, rfl⟩ := exec_mktbl_done hu hudone
  have hiB : i < 2 ^ B := hi.trans_le (Nat.pow_le_pow_right Nat.two_pos hnB)
  rw [tableAt_withBuiltTable hi, tableAt_withBuiltTable hiB]
  exact congrArg (·.toNat % 2 ^ d) (tableEntry_eq_of_size_le hnB hp hq hi)

/-! ### DIVMULTI's checks (R105) -/

section Checks

variable {s : State} {d B : Nat}

theorem divmultiChecks_noTableWidth (h : ¬∃ B, 1 ≤ B ∧ s.tableLen.toNat = 2 ^ B) :
    divmultiChecks s d = .fails .noTableWidth := by
  rw [divmultiChecks, tableWidth_fails h, Checked.andThen]

variable (hB : 1 ≤ B) (hlen : s.tableLen.toNat = 2 ^ B)

include hB hlen

theorem divmultiChecks_notExactMultiple (hmod : B % s.cfg.w ≠ 0) :
    divmultiChecks s d = .fails .notExactMultiple := by
  rw [divmultiChecks, hlen, tableWidth_two_pow hB, Checked.andThen, if_pos hmod]

theorem divmultiChecks_tableWiderThanDegree (hmod : B % s.cfg.w = 0) (hdB : d < B) :
    divmultiChecks s d = .fails .tableWiderThanDegree := by
  rw [divmultiChecks, hlen, tableWidth_two_pow hB, Checked.andThen, if_neg (not_not.2 hmod), if_pos hdB]

/-- With a width that is a multiple of W and at most the degree, what is left of the checks is `normalize` with
chunk W. -/
theorem divmultiChecks_of_width (hmod : B % s.cfg.w = 0) (hBd : B ≤ d) :
    divmultiChecks s d = (normalize d s.gen s.cfg.w).andThen fun p => .passes (B, p) := by
  rw [divmultiChecks, hlen, tableWidth_two_pow hB, Checked.andThen, if_neg (not_not.2 hmod), if_neg (Nat.not_lt.2 hBd)]

end Checks

theorem exec_divmulti_fails {s : State} {d : Nat} {f : Failure} (h : divmultiChecks s d = .fails f) :
    exec (.divmulti d) s = .next (failedWith f.code s) :=
  execDivmulti_fails h

/-- Settles O32: the width's three checks come first, and of `normalize` only the degree above GW can still fail. -/
theorem divmultiFails : Obligations.DivmultiFails := by
  intro s d
  refine ⟨fun hnone => exec_divmulti_fails (divmultiChecks_noTableWidth hnone), fun B hB hlen =>
    ⟨fun hmod => exec_divmulti_fails (divmultiChecks_notExactMultiple hB hlen hmod),
      fun hmod hdB => exec_divmulti_fails (divmultiChecks_tableWiderThanDegree hB hlen hmod hdB),
      fun hmod hBd hgw => exec_divmulti_fails (f := .degreeAboveGw) ?_⟩⟩
  rw [divmultiChecks_of_width hB hlen hmod hBd, normalize_degree_above_gw s.gen hgw, Checked.andThen]

/-! ### A group is one table step (R107, R108) -/

/-- Adding a number below the lowest bit of the other addend is XOR. -/
theorem mul_two_pow_add_eq_xor {n x : Nat} (a : Nat) (hx : x < 2 ^ n) : a * 2 ^ n + x = a * 2 ^ n ^^^ x := by
  apply Nat.eq_of_testBit_eq
  intro i
  rw [Nat.mul_comm, Nat.testBit_two_pow_mul_add a hx, Nat.testBit_xor, Nat.testBit_two_pow_mul]
  by_cases hi : i < n
  · simp [hi, Nat.not_le.2 hi]
  · have hxi : x.testBit i = false :=
      Nat.testBit_lt_two_pow (hx.trans_le (Nat.pow_le_pow_right Nat.two_pos (Nat.not_lt.1 hi)))
    simp [hi, hxi, Nat.not_lt.1 hi]

/-- Two numbers side by side, shifted up by `k`, are the XOR of what each of them becomes. -/
theorem mul_two_pow_add_mul_two_pow_eq_xor {n x : Nat} (a k : Nat) (hx : x < 2 ^ n) :
    (a * 2 ^ n + x) * 2 ^ k = a * 2 ^ (n + k) ^^^ x * 2 ^ k := by
  rw [mul_two_pow_add_eq_xor a hx, ← Nat.shiftLeft_eq (_ ^^^ _), Nat.shiftLeft_xor_distrib, Nat.shiftLeft_eq,
    Nat.shiftLeft_eq, Nat.mul_assoc, ← Nat.pow_add]

section Group

variable {gw w d : Nat}

theorem groupValue_append_singleton (ws : List (BitVec w)) (x : BitVec w) :
    groupValue (ws ++ [x]) = groupValue ws * 2 ^ w + x.toNat := by
  simp [groupValue]

/-- Word by word a group enters the remainder as one number, its first word at the top of the `degree` bits. -/
theorem loopUpTo_divmultiAbsorb_eq (r : BitVec gw) (words : Nat → BitVec w) {m : Nat} (hm : m * w ≤ d) :
    loopUpTo m (fun j r => divmultiAbsorb d j r (words j)) r =
      r ^^^ BitVec.ofNat gw (groupValue ((List.range m).map words) * 2 ^ (d - m * w)) := by
  induction m with
  | zero => simp [groupValue]
  | succ m ih =>
    have hsucc : (m + 1) * w = m * w + w := Nat.succ_mul m w
    have hpos : d - m * w = w + (d - (m + 1) * w) := by omega
    rw [loopUpTo_succ, ih (by omega), divmultiAbsorb, absorb_eq_xor_ofNat, List.range_succ, List.map_append,
      List.map_singleton, groupValue_append_singleton, mul_two_pow_add_mul_two_pow_eq_xor _ _ (words m).isLt, ← hpos,
      BitVec.ofNat_xor, BitVec.xor_assoc]

/-- A group of m words is one table step at width m*W. -/
theorem divmultiGroup_eq_tableStep {m : Nat} (i : Nat) (table : Nat → BitVec gw) (data : Nat → BitVec w)
    (r : BitVec gw) (hm : m * w ≤ d) :
    divmultiGroup d m i (maskOf gw d) table data r =
      tableStep d (m * w) table r (groupValue ((List.range m).map fun j => data (i + j))) := by
  rw [divmultiGroup, loopUpTo_divmultiAbsorb_eq r (fun j => data (i + j)) hm, divmultiCombine, topIndex, toNat_shr]
  rfl

end Group

/-! ### DIVMULTI's result (R107) -/

section Loop

variable {gw w d : Nat}

/-- The group at index `i`: `k` words, or what is left of the stream. -/
theorem take_drop_map_range (data : Nat → BitVec w) (k i len : Nat) :
    (((List.range len).map data).drop i).take k = (List.range (min k (len - i))).map fun j => data (i + j) := by
  apply List.ext_getElem <;> simp

/-- Dropping `k` elements drops what is left when that is less. -/
theorem drop_add_min {α : Type} (ws : List α) (k i : Nat) :
    ws.drop (i + min k (ws.length - i)) = ws.drop (i + k) :=
  List.drop_eq_drop_iff.2 (by omega)

theorem groupsOf_of_ne_nil {α : Type} {ws : List α} (k fuel : Nat) (h : ws ≠ []) :
    groupsOf k (fuel + 1) ws = ws.take k :: groupsOf k fuel (ws.drop k) := by
  cases ws with
  | nil => exact absurd rfl h
  | cons x xs => rfl

theorem groupsOf_nil {α : Type} (k fuel : Nat) : groupsOf k fuel ([] : List α) = [] := by
  cases fuel <;> rfl

/-- From index `i` the machine's loop is the fold over the groups of the words from `i` on. -/
theorem divmultiLoop_eq_foldl_groupsOf {k : Nat} (hk : k * w ≤ d) (table : Nat → BitVec gw)
    (data : Nat → BitVec w) (len fuel i : Nat) (r : BitVec gw) :
    divmultiLoop d k (maskOf gw d) table data len fuel i r =
      (groupsOf k fuel (((List.range len).map data).drop i)).foldl
        (fun r g => tableStep d (g.length * w) table r (groupValue g)) r := by
  induction fuel generalizing i r with
  | zero => rfl
  | succ fuel ih =>
    rw [divmultiLoop]
    by_cases hi : i < len
    · have hmk : min k (len - i) * w ≤ d := (Nat.mul_le_mul_right w (Nat.min_le_left _ _)).trans hk
      have hdrop := drop_add_min ((List.range len).map data) k i
      rw [List.length_map, List.length_range] at hdrop
      rw [if_pos hi, ih, groupsOf_of_ne_nil k fuel (by simpa using hi), List.foldl_cons, List.drop_drop, hdrop,
        take_drop_map_range, List.length_map, List.length_range, divmultiGroup_eq_tableStep i table data r hmk]
    · rw [if_neg hi, List.drop_eq_nil_of_le (by simpa using hi), groupsOf_nil, List.foldl_nil]

end Loop

/-- Settles O31: the checks pass, and the loop over the stream is the fold over its groups. -/
theorem divmultiCompletes : Obligations.DivmultiCompletes := by
  intro s d B hB hlen hmod hBd hd
  have hwB : s.cfg.w ≤ B := Nat.le_of_dvd hB (Nat.dvd_of_mod_eq_zero hmod)
  have hk : B / s.cfg.w * s.cfg.w ≤ d := (Nat.div_mul_le_self B s.cfg.w).trans hBd
  have hp := divref_passes_iff.2 ⟨⟨hwB.trans hBd, hd⟩, rfl⟩
  have hchecks := (divmultiChecks_of_width hB hlen hmod hBd).trans (Checked.andThen_passes_iff.2 ⟨_, hp, rfl⟩)
  rw [exec, execDivmulti_passes hchecks, divmultiLoop_eq_foldl_groupsOf hk, List.drop_zero, divmultiOver, State.stream,
    List.length_map, List.length_range]
  rfl

end Sys2Proof.Machine
end

section
/-! PROOFS. The laws between the units (46_equivalence_laws.md). A stream is read as one number; on residues modulo the
generator polynomial a table step of n bits appends n bits to the number whose remainder it holds, as DIVREF does
(R115). So all dividers, at every table width and however the stream is cut, hold the remainder of the same number. -/

namespace Sys2Proof.Machine

open Polynomial

/-! ### A stream as one number (20_memory.md R39) -/

/-- Append the `n`-bit numbers `xs` to the number `a`, each below the one before. -/
def appendBits (n a : Nat) (xs : List Nat) : Nat := xs.foldl (fun a x => a * 2 ^ n + x) a

theorem appendBits_append_singleton (n a : Nat) (xs : List Nat) (x : Nat) :
    appendBits n a (xs ++ [x]) = appendBits n a xs * 2 ^ n + x := by
  simp [appendBits]

theorem groupValue_eq_appendBits {w : Nat} (ws : List (BitVec w)) :
    groupValue ws = appendBits w 0 (ws.map BitVec.toNat) := by
  rw [appendBits, List.foldl_map, groupValue]

theorem groupValue_append {w : Nat} (ws ws' : List (BitVec w)) :
    groupValue (ws ++ ws') = groupValue ws * 2 ^ (ws'.length * w) + groupValue ws' := by
  induction ws' using List.reverseRecOn with
  | nil => simp [groupValue]
  | append_singleton ws' x ih =>
    have hpow : 2 ^ ((ws' ++ [x]).length * w) = 2 ^ (ws'.length * w) * 2 ^ w := by
      rw [List.length_append, List.length_singleton, Nat.succ_mul, Nat.pow_add]
    rw [← List.append_assoc, groupValue_append_singleton, ih, groupValue_append_singleton, hpow]
    ring

theorem groupValue_lt {w : Nat} (ws : List (BitVec w)) : groupValue ws < 2 ^ (ws.length * w) := by
  induction ws using List.reverseRecOn with
  | nil => simp [groupValue]
  | append_singleton ws x ih =>
    rw [groupValue_append_singleton, List.length_append, List.length_singleton, Nat.succ_mul, Nat.pow_add]
    calc groupValue ws * 2 ^ w + x.toNat < groupValue ws * 2 ^ w + 2 ^ w := Nat.add_lt_add_left x.isLt _
      _ = (groupValue ws + 1) * 2 ^ w := (Nat.succ_mul _ _).symm
      _ ≤ 2 ^ (ws.length * w) * 2 ^ w := Nat.mul_le_mul_right _ ih

/-- The first `j` blocks of a word are its top `j * B` bits. -/
theorem appendBits_blockValue {w B : Nat} (a : Nat) (x : BitVec w) {j : Nat} (hj : j * B ≤ w) :
    appendBits B a ((List.range j).map (blockValue B x)) = a * 2 ^ (j * B) + x.toNat / 2 ^ (w - j * B) := by
  induction j with
  | zero => simp [appendBits, Nat.div_eq_of_lt x.isLt]
  | succ j ih =>
    have hsucc : (j + 1) * B = j * B + B := Nat.succ_mul j B
    have hdiv : x.toNat / 2 ^ (w - j * B) = x.toNat / 2 ^ (w - (j + 1) * B) / 2 ^ B := by
      rw [Nat.div_div_eq_div_mul, ← Nat.pow_add]
      congr 2
      omega
    have hblock := Nat.div_add_mod (x.toNat / 2 ^ (w - (j + 1) * B)) (2 ^ B)
    rw [List.range_succ, List.map_append, List.map_singleton, appendBits_append_singleton, ih (by omega), hdiv,
      blockValue]
    calc (a * 2 ^ (j * B) + x.toNat / 2 ^ (w - (j + 1) * B) / 2 ^ B) * 2 ^ B + x.toNat / 2 ^ (w - (j + 1) * B) % 2 ^ B
        = a * (2 ^ (j * B) * 2 ^ B) + (2 ^ B * (x.toNat / 2 ^ (w - (j + 1) * B) / 2 ^ B) +
            x.toNat / 2 ^ (w - (j + 1) * B) % 2 ^ B) := by ring
      _ = a * 2 ^ ((j + 1) * B) + x.toNat / 2 ^ (w - (j + 1) * B) := by rw [hblock, hsucc, Nat.pow_add]

theorem appendBits_blocksOf {w B : Nat} (hB : B ∣ w) (a : Nat) (x : BitVec w) :
    appendBits B a (blocksOf B x) = a * 2 ^ w + x.toNat := by
  have hw : w / B * B = w := Nat.div_mul_cancel hB
  rw [blocksOf_eq, appendBits_blockValue a x hw.le, hw, Nat.sub_self, Nat.pow_zero, Nat.div_one]

/-- Cutting the words of a stream into blocks leaves the number that the stream is. -/
theorem appendBits_flatMap_blocksOf {w B : Nat} (hB : B ∣ w) (ws : List (BitVec w)) :
    appendBits B 0 (ws.flatMap (blocksOf B)) = groupValue ws := by
  have hword : (fun a (x : BitVec w) => (blocksOf B x).foldl (fun a x => a * 2 ^ B + x) a) =
      fun a x => a * 2 ^ w + x.toNat :=
    funext₂ (appendBits_blocksOf hB)
  rw [appendBits, List.foldl_flatMap, hword, groupValue]

/-! ### A number as a polynomial (00_scope.md R12) -/

/-- The bits of a number as a polynomial over GF(2); `x` bits are enough for the number `x`. -/
noncomputable def numPoly (x : Nat) : (ZMod 2)[X] := polyOf (BitVec.ofNat x x)

@[simp] theorem coeff_numPoly (x i : Nat) : (numPoly x).coeff i = if x.testBit i then 1 else 0 := by
  have hbit : i < x ∧ x.testBit i = true ↔ x.testBit i = true :=
    and_iff_right_of_imp fun h => Nat.lt_two_pow_self.trans_le (Nat.ge_two_pow_of_testBit h)
  rw [numPoly, polyOf_eq_lowPoly, coeff_lowPoly, BitVec.getLsbD_ofNat]
  simp [hbit]

theorem polyOf_eq_numPoly {n : Nat} (v : BitVec n) : polyOf v = numPoly v.toNat := by
  ext i
  rw [polyOf_eq_lowPoly, coeff_lowPoly, coeff_numPoly, BitVec.testBit_toNat]
  exact if_congr (and_iff_right_of_imp BitVec.lt_of_getLsbD) rfl rfl

theorem numPoly_append {n x : Nat} (a : Nat) (hx : x < 2 ^ n) :
    numPoly (a * 2 ^ n + x) = numPoly a * X ^ n + numPoly x := by
  ext i
  rw [coeff_add, coeff_mul_X_pow', coeff_numPoly, coeff_numPoly, coeff_numPoly, Nat.mul_comm,
    Nat.testBit_two_pow_mul_add a hx]
  by_cases hi : i < n
  · simp [hi, Nat.not_le.2 hi]
  · have hxi : x.testBit i = false :=
      Nat.testBit_lt_two_pow (hx.trans_le (Nat.pow_le_pow_right Nat.two_pos (Nat.not_lt.1 hi)))
    simp [hi, hxi, Nat.not_lt.1 hi]

/-- The message polynomial is that of the stream read as one number. -/
theorem messagePoly_eq_numPoly {w : Nat} (ws : List (BitVec w)) : messagePoly ws = numPoly (groupValue ws) := by
  induction ws using List.reverseRecOn with
  | nil => ext i; simp [messagePoly, groupValue]
  | append_singleton ws x ih =>
    rw [groupValue_append_singleton, numPoly_append _ x.isLt, ← ih, ← polyOf_eq_numPoly]
    simp [messagePoly]

/-! ### Cutting words into narrower ones (R124) -/

theorem map_range_mul {α : Type} (c len : Nat) (f : Nat → α) :
    (List.range (c * len)).map f = (List.range len).flatMap fun i => (List.range c).map fun j => f (c * i + j) := by
  induction len with
  | zero => rfl
  | succ len ih =>
    rw [Nat.mul_succ, List.range_add, List.map_append, ih, List.range_succ, List.flatMap_append, List.flatMap_singleton,
      List.map_map]
    rfl

/-- A stream of narrow words that are the blocks of the wide ones is the same number. -/
theorem groupValue_stream_of_blocks {s s' : State} {c : Nat} (hw : s'.cfg.w = c * s.cfg.w)
    (hlen : s.dataLen.toNat = c * s'.dataLen.toNat)
    (hdata : ∀ i j, i < s'.dataLen.toNat → j < c →
      (s.dataAt (c * i + j)).toNat = (s'.dataAt i).toNat / 2 ^ ((c - 1 - j) * s.cfg.w) % 2 ^ s.cfg.w) :
    groupValue s.stream = groupValue s'.stream := by
  have hdvd : s.cfg.w ∣ s'.cfg.w := ⟨c, hw.trans (Nat.mul_comm _ _)⟩
  have hc : s'.cfg.w / s.cfg.w = c := by rw [hw, Nat.mul_div_cancel _ s.cfg.wPos]
  rw [← appendBits_flatMap_blocksOf hdvd, groupValue_eq_appendBits, State.stream, State.stream, List.map_map, hlen,
    map_range_mul, List.flatMap_map]
  congr 1
  refine List.flatMap_congr fun i hi => ?_
  rw [blocksOf_eq, hc]
  refine List.map_congr_left fun j hj => ?_
  have hshift : (c - 1 - j) * s.cfg.w = s'.cfg.w - (j + 1) * s.cfg.w := by
    rw [hw, ← Nat.sub_mul, Nat.sub_sub, Nat.add_comm 1 j]
  rw [Function.comp_apply, hdata i j (List.mem_range.1 hi) (List.mem_range.1 hj), hshift, blockValue]

/-- A DIVREF that succeeds is one whose degree is between W and GW. -/
theorem divref_valid_of_remainder {s : State} {d v : Nat} (h : remainderOf (exec (.divref d) s) = some v) :
    s.cfg.w ≤ d ∧ d ≤ s.cfg.gw := by
  by_contra hinvalid
  rw [remainderOf_divref_fails hinvalid] at h
  cases h

/-- Settles O18: both streams are the same number, so both message polynomials are the same. -/
theorem regroupedStreamGivesTheSameRemainder : Obligations.RegroupedStreamGivesTheSameRemainder := by
  intro s s' c d v hc hw hgw hgen hlen hdata hv
  obtain ⟨hwd', hd'⟩ := divref_valid_of_remainder hv
  have hwd : s.cfg.w ≤ d := ((Nat.le_mul_of_pos_left _ hc).trans hw.ge).trans hwd'
  obtain ⟨r', hrem', hr'⟩ := remainderOf_divref_passes ⟨hwd', hd'⟩
  obtain ⟨r, hrem, hr⟩ := remainderOf_divref_passes ⟨hwd, hd'.trans_eq hgw⟩
  rw [messagePoly_eq_numPoly, groupValue_stream_of_blocks hw hlen hdata, ← messagePoly_eq_numPoly,
    generatorPoly_congr (congrArg (· % 2 ^ d) hgen.symm), ← hr'] at hr
  rw [hrem, lowPoly_eq_iff.1 hr, ← hrem', hv]

/-! ### A table step appends bits to the number divided (R115) -/

section TableStep

variable {gw d n a : Nat} {gen r : BitVec gw} {p : Params gw} {table : Nat → BitVec gw}

/-- The low `degree` bits of the entries below `2^n` are those of a table of width `n` (46_equivalence_laws.md,
opening). -/
def EntriesMatch (d : Nat) (gen : BitVec gw) (n : Nat) (table : Nat → BitVec gw) : Prop :=
  ∀ i, i < 2 ^ n → (table i).toNat % 2 ^ d = (entryOf d (gen &&& maskOf gw d) n i).toNat % 2 ^ d

/-- `r` is the masked remainder of the message whose bits are those of the number `a` (00_scope.md R12). -/
def IsRemainder (d : Nat) (gen r : BitVec gw) (a : Nat) : Prop :=
  r.toNat < 2 ^ d ∧ residue d gen r = AdjoinRoot.mk _ (numPoly a * X ^ d)

theorem isRemainder_zero (d : Nat) (gen : BitVec gw) : IsRemainder d gen 0#gw 0 := by
  refine ⟨Nat.two_pow_pos d, ?_⟩
  have hzero : numPoly 0 = 0 := by ext i; simp
  rw [residue, lowPoly_zero, hzero, zero_mul]

theorem IsRemainder.unique {r' : BitVec gw} (h : IsRemainder d gen r a) (h' : IsRemainder d gen r' a) : r = r' := by
  obtain ⟨hlt, hres⟩ := h
  obtain ⟨hlt', hres'⟩ := h'
  have hmod := lowPoly_eq_iff.1 (residue_eq_iff.1 (hres.trans hres'.symm))
  rw [Nat.mod_eq_of_lt hlt, Nat.mod_eq_of_lt hlt'] at hmod
  exact BitVec.eq_of_toNat_eq hmod

theorem residue_and_maskOf (hd : d ≤ gw) (r : BitVec gw) : residue d gen (r &&& maskOf gw d) = residue d gen r := by
  rw [residue, lowPoly_and_maskOf r hd, residue]

theorem residue_combine (hd : d ≤ gw) (r : BitVec gw) (n : Nat) (entry : BitVec gw) :
    residue d gen (combine (maskOf gw d) r n entry) = residue d gen (shl r n ^^^ entry) := by
  rw [combine, BitVec.and_comm, residue_and_maskOf hd]

/-- A table step ends masked, whatever the table holds. -/
theorem toNat_tableStep_lt (d n : Nat) (table : Nat → BitVec gw) (r : BitVec gw) (x : Nat) :
    (tableStep d n table r x).toNat < 2 ^ d :=
  toNat_and_maskOf_lt d _

/-- A step with a matching table is `n` bit steps on the same `n` bits: it has the residue of DIVREF's on a word of
width `n`. -/
theorem residue_tableStep (hp : normalize d gen n = .passes p) (hmatch : EntriesMatch d gen n table)
    (hr : r.toNat < 2 ^ d) (word : BitVec n) :
    residue d gen (tableStep d n table r word.toNat) = residue d gen (divrefWord p r word) := by
  obtain ⟨⟨-, hd, hn⟩, hp'⟩ := normalize_passes_iff.1 hp
  have hshift : p.shift = d - n := by rw [hp']
  have hindex := topIndex_lt (toNat_absorb_lt hr word.isLt (Nat.add_sub_cancel' hn).le) hn
  have hentry : residue d gen (table (topIndex (absorb r word (d - n)) (d - n))) =
      residue d gen (tableEntry p n (topIndex (absorb r word (d - n)) (d - n))) := by
    rw [residue_eq_iff, lowPoly_eq_iff, hmatch _ hindex, tableEntry_eq_entryOf hp]
  rw [← combine_absorb_eq_tableStep, residue_combine hd, residue_xor, hentry, ← residue_xor, divrefWord, hshift,
    residue_repeat_bitStep_eq_shl_xor_entry hp, hshift]

/-- A table step appends its bits to the number whose remainder it is given. -/
theorem IsRemainder.after_tableStep (hp : normalize d gen n = .passes p) (hmatch : EntriesMatch d gen n table)
    (h : IsRemainder d gen r a) {x : Nat} (hx : x < 2 ^ n) :
    IsRemainder d gen (tableStep d n table r x) (a * 2 ^ n + x) := by
  obtain ⟨hlt, hres⟩ := h
  obtain ⟨word, rfl⟩ : ∃ word : BitVec n, word.toNat = x := ⟨BitVec.ofNat n x, Nat.mod_eq_of_lt hx⟩
  refine ⟨toNat_tableStep_lt d n table r word.toNat, ?_⟩
  rw [residue_tableStep hp hmatch hlt, residue_divrefWord hp, hres, polyOf_eq_numPoly, numPoly_append a word.isLt]
  simp only [map_mul, map_add, map_pow, AdjoinRoot.mk_X]
  ring

theorem IsRemainder.after_tableSteps (hp : normalize d gen n = .passes p) (hmatch : EntriesMatch d gen n table)
    (h : IsRemainder d gen r a) {xs : List Nat} (hxs : ∀ x ∈ xs, x < 2 ^ n) :
    IsRemainder d gen (xs.foldl (tableStep d n table) r) (appendBits n a xs) := by
  induction xs generalizing r a with
  | nil => exact h
  | cons x xs ih =>
    obtain ⟨hx, hxs⟩ := List.forall_mem_cons.1 hxs
    exact ih (h.after_tableStep hp hmatch hx) hxs

/-- A table that matches at a width matches at every narrower one (45_big_table_divider.md R109). -/
theorem EntriesMatch.narrower {B : Nat} (h : EntriesMatch d gen B table) (h1 : 1 ≤ d) (hd : d ≤ gw) (hB : B ≤ d)
    (hn : n ≤ B) : EntriesMatch d gen n table := by
  intro i hi
  have hq := normalize_passes_iff (gen := gen).2 ⟨⟨h1, hd, hB⟩, rfl⟩
  have hp := normalize_passes_iff (gen := gen).2 ⟨⟨h1, hd, hn.trans hB⟩, rfl⟩
  have hiB : i < 2 ^ B := hi.trans_le (Nat.pow_le_pow_right Nat.two_pos hn)
  rw [h i hiB, ← tableEntry_eq_entryOf hq, ← tableEntry_eq_entryOf hp, tableEntry_eq_of_size_le hn hp hq hi]

end TableStep

/-! ### Each divider holds the remainder of the stream's number (R114) -/

section Dividers

variable {gw w d B : Nat} {gen : BitVec gw} {table : Nat → BitVec gw}

theorem isRemainder_divref {p : Params gw} (hp : normalize d gen w = .passes p) (ws : List (BitVec w)) :
    IsRemainder d gen (ws.foldl (divrefWord p) 0#gw &&& p.mask) (groupValue ws) := by
  have hres := residue_foldl_divrefWord hp ws
  obtain ⟨⟨-, hd, -⟩, hp'⟩ := normalize_passes_iff.1 hp
  have hmask : p.mask = maskOf gw d := by rw [hp']
  rw [hmask]
  refine ⟨?_, ?_⟩
  · rw [toNat_and_maskOf _ hd]
    exact Nat.mod_lt _ (Nat.two_pow_pos d)
  · rw [residue_and_maskOf hd, hres, messagePoly_eq_numPoly]

variable (h1 : 1 ≤ d) (hd : d ≤ gw) (hB : B ≤ d) (hmatch : EntriesMatch d gen B table)

include h1 hd hB hmatch

theorem isRemainder_divwordOver (ws : List (BitVec B)) :
    IsRemainder d gen (divwordOver d table ws) (groupValue ws) := by
  have hp := normalize_passes_iff (gen := gen).2 ⟨⟨h1, hd, hB⟩, rfl⟩
  have hwords : ∀ x ∈ ws.map BitVec.toNat, x < 2 ^ B := List.forall_mem_map.2 fun x _ => x.isLt
  have hfold := (isRemainder_zero d gen).after_tableSteps hp hmatch hwords
  rwa [← groupValue_eq_appendBits, List.foldl_map] at hfold

theorem isRemainder_divsubOver (hBw : B ∣ w) (ws : List (BitVec w)) :
    IsRemainder d gen (divsubOver d B table ws) (groupValue ws) := by
  have hp := normalize_passes_iff (gen := gen).2 ⟨⟨h1, hd, hB⟩, rfl⟩
  have hblocks : ∀ x ∈ ws.flatMap (blocksOf B), x < 2 ^ B := by
    intro x hx
    obtain ⟨word, -, hx⟩ := List.mem_flatMap.1 hx
    obtain ⟨j, -, rfl⟩ := List.mem_map.1 hx
    exact Nat.mod_lt _ (Nat.two_pow_pos B)
  have hfold := (isRemainder_zero d gen).after_tableSteps hp hmatch hblocks
  rwa [appendBits_flatMap_blocksOf hBw] at hfold

/-- The groups of `ws`, also a shorter last one, append `ws` to the words `before` it. -/
theorem isRemainder_foldl_groupsOf {k fuel : Nat} (hk : 0 < k) (hkB : k * w ≤ B) {ws before : List (BitVec w)}
    (hfuel : ws.length ≤ fuel) {r : BitVec gw} (h : IsRemainder d gen r (groupValue before)) :
    IsRemainder d gen
      ((groupsOf k fuel ws).foldl (fun r g => tableStep d (g.length * w) table r (groupValue g)) r)
      (groupValue (before ++ ws)) := by
  induction fuel generalizing ws before r with
  | zero =>
    obtain rfl := List.length_eq_zero_iff.1 (Nat.le_zero.1 hfuel)
    rwa [List.append_nil]
  | succ fuel ih =>
    rcases eq_or_ne ws [] with rfl | hws
    · rwa [groupsOf_nil, List.append_nil]
    · have hlen := List.length_pos_iff.2 hws
      have hgroup : (ws.take k).length * w ≤ B := (Nat.mul_le_mul_right w (List.length_take_le k ws)).trans hkB
      have hp := normalize_passes_iff (gen := gen).2 ⟨⟨h1, hd, hgroup.trans hB⟩, rfl⟩
      have hstep := h.after_tableStep hp (hmatch.narrower h1 hd hB hgroup) (groupValue_lt (ws.take k))
      rw [← groupValue_append] at hstep
      have hrest := ih (ws := ws.drop k) (by rw [List.length_drop]; omega) hstep
      rwa [List.append_assoc, List.take_append_drop, ← List.foldl_cons, ← groupsOf_of_ne_nil k fuel hws] at hrest

theorem isRemainder_divmultiOver {k : Nat} (hk : 0 < k) (hkB : k * w ≤ B) (ws : List (BitVec w)) :
    IsRemainder d gen (divmultiOver d k table ws) (groupValue ws) :=
  isRemainder_foldl_groupsOf h1 hd hB hmatch hk hkB (before := []) le_rfl (isRemainder_zero d gen)

end Dividers

/-! ### The table dividers give DIVREF's REM (R114) -/

section Reference

variable {s : State} {d v : Nat}

theorem remainderOf_remainderIs (s : State) (r : BitVec s.cfg.gw) :
    remainderOf (.next (remainderIs s r)) = some r.toNat := rfl

theorem toNat_rem_remainderIs (s : State) (r : BitVec s.cfg.gw) : (remainderIs s r).rem.toNat = r.toNat := rfl

/-- DIVREF's REM is the one remainder of the stream's number. -/
theorem toNat_eq_divref_of_isRemainder (hv : remainderOf (exec (.divref d) s) = some v) {r : BitVec s.cfg.gw}
    (hr : IsRemainder d s.gen r (groupValue s.stream)) : r.toNat = v := by
  have hp := divref_passes_iff.2 ⟨divref_valid_of_remainder hv, rfl⟩
  rw [exec, execDivref_passes hp, divrefLoop_eq_foldl_stream] at hv
  rw [hr.unique (isRemainder_divref hp s.stream)]
  exact Option.some.inj hv

end Reference

/-- Settles O33: a word is one table step of W bits. -/
theorem wordTableDividerEqualsReference : Obligations.WordTableDividerEqualsReference := by
  rintro s d v ⟨hlen, hmatch⟩ hv
  obtain ⟨hwd, hd⟩ := divref_valid_of_remainder hv
  have hr := isRemainder_divwordOver (s.cfg.wPos.trans_le hwd) hd hwd hmatch s.stream
  rw [divwordCompletes s d hlen hwd hd, remainderOf_remainderIs, toNat_eq_divref_of_isRemainder hv hr]

/-- Settles O34: a word is W / B table steps of B bits. -/
theorem smallTableDividerEqualsReference : Obligations.SmallTableDividerEqualsReference := by
  rintro s d B v hB hmod ⟨hlen, hmatch⟩ hv
  obtain ⟨hwd, hd⟩ := divref_valid_of_remainder hv
  have hdvd := Nat.dvd_of_mod_eq_zero hmod
  have hBd : B ≤ d := (Nat.le_of_dvd s.cfg.wPos hdvd).trans hwd
  have hr := isRemainder_divsubOver (s.cfg.wPos.trans_le hwd) hd hBd hmatch hdvd s.stream
  rw [divsubCompletes s d B hB hlen hmod hwd hd, remainderOf_remainderIs, toNat_eq_divref_of_isRemainder hv hr]

/-- Settles O35: a group of m words, also the partial one at the end, is one table step of m*W bits. -/
theorem bigTableDividerEqualsReference : Obligations.BigTableDividerEqualsReference := by
  rintro s d B v hB hmod hBd ⟨hlen, hmatch⟩ hv
  obtain ⟨-, hd⟩ := divref_valid_of_remainder hv
  have hk : 0 < B / s.cfg.w := Nat.div_pos (Nat.le_of_dvd hB (Nat.dvd_of_mod_eq_zero hmod)) s.cfg.wPos
  have hr := isRemainder_divmultiOver (hB.trans hBd) hd hBd hmatch hk (Nat.div_mul_le_self B s.cfg.w) s.stream
  rw [divmultiCompletes s d B hB hlen hmod hBd hd, remainderOf_remainderIs, toNat_eq_divref_of_isRemainder hv hr]

/-! ### What a divider that succeeds leaves in REM, whatever the table holds (R118, R119) -/

section Masked

variable {gw w d : Nat}

/-- What ends every step masked is masked at the end of the stream. -/
theorem toNat_foldl_lt {α : Type} {f : BitVec gw → α → BitVec gw} (h : ∀ r x, (f r x).toNat < 2 ^ d)
    (xs : List α) : (xs.foldl f 0#gw).toNat < 2 ^ d := by
  induction xs using List.reverseRecOn with
  | nil => exact Nat.two_pow_pos d
  | append_singleton xs x _ =>
    rw [List.foldl_append]
    exact h _ x

variable (d) (table : Nat → BitVec gw)

theorem toNat_divwordOver_lt (ws : List (BitVec w)) : (divwordOver d table ws).toNat < 2 ^ d := by
  rw [divwordOver]
  exact toNat_foldl_lt (fun r x => toNat_tableStep_lt d w table r _) ws

theorem toNat_divsubOver_lt (B : Nat) (ws : List (BitVec w)) : (divsubOver d B table ws).toNat < 2 ^ d := by
  rw [divsubOver]
  exact toNat_foldl_lt (toNat_tableStep_lt d B table) _

theorem toNat_divmultiOver_lt (k : Nat) (ws : List (BitVec w)) : (divmultiOver d k table ws).toNat < 2 ^ d := by
  rw [divmultiOver]
  exact toNat_foldl_lt (fun r g => toNat_tableStep_lt d _ table r _) _

end Masked

section Done

variable {s t : State} {d : Nat}

theorem exec_divword_done (h : exec (.divword d) s = .next t) (hdone : t.status.state = .done) :
    (s.cfg.w ≤ d ∧ d ≤ s.cfg.gw) ∧ t = remainderIs s (divwordOver d s.tableAt s.stream) := by
  rcases hc : divwordChecks s d with f | p
  · rw [exec_divword_fails hc] at h
    cases h
    cases hdone
  · obtain ⟨hlen, hp⟩ := divwordChecks_passes hc
    obtain ⟨hw, hd⟩ := (divref_passes_iff.1 hp).1
    rw [divwordCompletes s d hlen hw hd] at h
    cases h
    exact ⟨⟨hw, hd⟩, rfl⟩

theorem exec_divsub_done (h : exec (.divsub d) s = .next t) (hdone : t.status.state = .done) :
    (s.cfg.w ≤ d ∧ d ≤ s.cfg.gw) ∧ ∃ B, t = remainderIs s (divsubOver d B s.tableAt s.stream) := by
  rcases hc : divsubChecks s d with f | ⟨B, p⟩
  · rw [exec_divsub_fails hc] at h
    cases h
    cases hdone
  · obtain ⟨hlen, hB, -, hmod, hp⟩ := divsubChecks_passes hc
    obtain ⟨hw, hd⟩ := (divref_passes_iff.1 hp).1
    rw [divsubCompletes s d B hB hlen hmod hw hd] at h
    cases h
    exact ⟨⟨hw, hd⟩, B, rfl⟩

theorem exec_divmulti_done (h : exec (.divmulti d) s = .next t) (hdone : t.status.state = .done) :
    (s.cfg.w ≤ d ∧ d ≤ s.cfg.gw) ∧ ∃ k, t = remainderIs s (divmultiOver d k s.tableAt s.stream) := by
  rcases hc : divmultiChecks s d with f | ⟨B, p⟩
  · rw [exec_divmulti_fails hc] at h
    cases h
    cases hdone
  · obtain ⟨hlen, hB, hmod, hBd, hp⟩ := divmultiChecks_passes hc
    obtain ⟨hw, hd⟩ := (divref_passes_iff.1 hp).1
    rw [divmultiCompletes s d B hB hlen hmod hBd hd] at h
    cases h
    exact ⟨⟨hw, hd⟩, B / s.cfg.w, rfl⟩

/-- A divider that succeeds has a degree between W and GW and leaves a masked value in REM, 0 for an empty stream. -/
theorem divider_done {i : Instr} (hi : i = .divref d ∨ i = .divword d ∨ i = .divsub d ∨ i = .divmulti d)
    (h : exec i s = .next t) (hdone : t.status.state = .done) :
    (s.cfg.w ≤ d ∧ d ≤ s.cfg.gw) ∧ t.rem.toNat < 2 ^ d ∧ (s.stream = [] → t.rem.toNat = 0) := by
  rcases hi with rfl | rfl | rfl | rfl
  · obtain ⟨p, hp, rfl⟩ := execDivref_done h hdone
    refine ⟨(divref_passes_iff.1 hp).1, (isRemainder_divref hp s.stream).1, fun hs => ?_⟩
    simp [hs]
  · obtain ⟨hvalid, rfl⟩ := exec_divword_done h hdone
    rw [toNat_rem_remainderIs]
    exact ⟨hvalid, toNat_divwordOver_lt d _ _, fun hs => by simp [divwordOver, hs]⟩
  · obtain ⟨hvalid, B, rfl⟩ := exec_divsub_done h hdone
    rw [toNat_rem_remainderIs]
    exact ⟨hvalid, toNat_divsubOver_lt d _ B _, fun hs => by simp [divsubOver, hs]⟩
  · obtain ⟨hvalid, k, rfl⟩ := exec_divmulti_done h hdone
    rw [toNat_rem_remainderIs]
    exact ⟨hvalid, toNat_divmultiOver_lt d _ k _, fun hs => by simp [divmultiOver, groupsOf_nil, hs]⟩

end Done

/-- Settles O38: all four end with a mask, or hold 0 still. -/
theorem remainderIsMaskedToDegree : Obligations.RemainderIsMaskedToDegree := by
  intro s t d i hi h hdone
  obtain ⟨-, hlt, -⟩ := divider_done hi h hdone
  exact hlt

theorem remainderOf_eq_some_iff {o : StepResult} {v : Nat} :
    remainderOf o = some v ↔ ∃ t, o = .next t ∧ t.status.state = .done ∧ t.rem.toNat = v := by
  cases o <;> simp [remainderOf]

/-- Settles O36: what is left of every divider's checks after those of the table is DIVREF's. -/
theorem tableDividersSucceedOnlyWithReference : Obligations.TableDividersSucceedOnlyWithReference := by
  intro s d i hi hsome
  obtain ⟨v, hv⟩ := Option.isSome_iff_exists.1 hsome
  obtain ⟨t, ht, hdone, -⟩ := remainderOf_eq_some_iff.1 hv
  obtain ⟨hvalid, -⟩ := divider_done (.inr hi) ht hdone
  rw [(divrefCompletes s d).1 hvalid]
  rfl

/-! ### The checks do not look at the stream (R119) -/

/-- The code of the failure that checks answer, if they fail. -/
def Checked.failure {α : Type} : Checked α → Option (BitVec 8)
  | .fails f => some f.code
  | .passes _ => none

section FailureOf

variable (s : State) (d : Nat)

theorem failureOf_divref : failureOf (exec (.divref d) s) = (divrefChecks s d).failure := by
  rw [exec]
  rcases hc : divrefChecks s d with f | p
  · rw [execDivref_fails hc, failureOf_raise, Checked.failure]
  · rw [execDivref_passes hc, failureOf_finish, Checked.failure]

theorem failureOf_divword : failureOf (exec (.divword d) s) = (divwordChecks s d).failure := by
  rw [exec]
  rcases hc : divwordChecks s d with f | p
  · rw [execDivword_fails hc, failureOf_raise, Checked.failure]
  · rw [execDivword_passes hc, failureOf_finish, Checked.failure]

theorem failureOf_divsub : failureOf (exec (.divsub d) s) = (divsubChecks s d).failure := by
  rw [exec]
  rcases hc : divsubChecks s d with f | ⟨B, p⟩
  · rw [execDivsub_fails hc, failureOf_raise, Checked.failure]
  · rw [execDivsub_passes hc, failureOf_finish, Checked.failure]

theorem failureOf_divmulti : failureOf (exec (.divmulti d) s) = (divmultiChecks s d).failure := by
  rw [exec]
  rcases hc : divmultiChecks s d with f | ⟨B, p⟩
  · rw [execDivmulti_fails hc, failureOf_raise, Checked.failure]
  · rw [execDivmulti_passes hc, failureOf_finish, Checked.failure]

end FailureOf

/-- Settles O39: an empty stream leaves the 0 that every loop starts from, and no check reads DATA_LEN. -/
theorem emptyStreamGivesZero : Obligations.EmptyStreamGivesZero := by
  intro s d i hi
  refine ⟨fun v hlen hv => ?_, fun n => ?_⟩
  · obtain ⟨t, ht, hdone, rfl⟩ := remainderOf_eq_some_iff.1 hv
    obtain ⟨-, -, hempty⟩ := divider_done hi ht hdone
    exact hempty (by rw [State.stream, hlen]; rfl)
  · rcases hi with rfl | rfl | rfl | rfl
    · exact (failureOf_divref _ d).trans (failureOf_divref s d).symm
    · exact (failureOf_divword _ d).trans (failureOf_divword s d).symm
    · exact (failureOf_divsub _ d).trans (failureOf_divsub s d).symm
    · exact (failureOf_divmulti _ d).trans (failureOf_divmulti s d).symm

/-! ### The table width does not matter (R116) -/

/-- With a matching table of a valid width DIVSUB and DIVMULTI succeed exactly when DIVREF does, with its REM. -/
theorem remainderOf_eq_divref {s : State} {d B : Nat} {i : Instr} (hB : 1 ≤ B)
    (hi : i = .divsub d ∧ s.cfg.w % B = 0 ∨ i = .divmulti d ∧ B % s.cfg.w = 0 ∧ B ≤ d) (hm : s.MatchingTable B d) :
    remainderOf (exec i s) = remainderOf (exec (.divref d) s) := by
  rcases hv : remainderOf (exec (.divref d) s) with _ | v
  · have hdivider : i = .divword d ∨ i = .divsub d ∨ i = .divmulti d :=
      .inr (hi.imp And.left And.left)
    refine Option.not_isSome_iff_eq_none.1 fun hsome => ?_
    simpa [hv] using tableDividersSucceedOnlyWithReference s d i hdivider hsome
  · rcases hi with ⟨rfl, hmod⟩ | ⟨rfl, hmod, hBd⟩
    · exact smallTableDividerEqualsReference s d B v hB hmod hm hv
    · exact bigTableDividerEqualsReference s d B v hB hmod hBd hm hv

/-- DIVREF does not look at the table. -/
theorem remainderOf_divref_withTable (s : State) (m : Memory s.cfg.gw) (len : BitVec 33) (d : Nat) :
    remainderOf (exec (.divref d) { s with table := m, tableLen := len }) = remainderOf (exec (.divref d) s) := by
  by_cases hvalid : s.cfg.w ≤ d ∧ d ≤ s.cfg.gw
  · rw [(divrefCompletes s d).1 hvalid, (divrefCompletes { s with table := m, tableLen := len } d).1 hvalid]
    rfl
  · rw [remainderOf_divref_fails hvalid, remainderOf_divref_fails (s := { s with table := m, tableLen := len }) hvalid]

/-- Settles O37: both give what DIVREF gives, which does not look at the table. -/
theorem resultIsIndependentOfTableWidth : Obligations.ResultIsIndependentOfTableWidth := by
  intro s m len d B B' i i' hi hB hi' hB' hm hm'
  calc remainderOf (exec i s) = remainderOf (exec (.divref d) s) := remainderOf_eq_divref hB hi hm
    _ = remainderOf (exec (.divref d) { s with table := m, tableLen := len }) :=
        (remainderOf_divref_withTable s m len d).symm
    _ = remainderOf (exec i' { s with table := m, tableLen := len }) :=
        (remainderOf_eq_divref (s := { s with table := m, tableLen := len }) hB' hi' hm').symm

end Sys2Proof.Machine
end

section
/-! PROOFS. A command that fails (60_exceptions.md R126, R135, R136) and the reset (70_reset_and_hazards.md R145, R147):
the whole next state of each. -/

namespace Sys2Proof.Machine

/-! ### A command that fails -/

/-- The eleven codes of 60_exceptions.md R126. -/
theorem Failure.code_mem (f : Failure) :
    f.code ∈ [0x11#8, 0x12#8, 0x13#8, 0x21#8, 0x31#8, 0x32#8, 0x33#8, 0x34#8, 0x35#8, 0x36#8, 0x41#8] := by
  cases f <;> decide

/-- An operation that ends in ERROR has done nothing but enter its failure (60_exceptions.md R134, R136). -/
theorem exec_error {i : Instr} {s t : State} (h : exec i s = .next t) (herr : t.status.state = .error) :
    ∃ f, t = raise f s := by
  obtain hfail | ⟨d, c, p, -, rfl⟩ | ⟨d, n, p, -, -, rfl⟩ | ⟨-, v, rfl⟩ := exec_cases h
  · exact hfail
  all_goals cases herr

/-- The same of a CMD write, illegal words included: the command is taken, then its failure is entered. -/
theorem commandWrite_error {c : Command} {s t : State} (hs : s.status.state ≠ .busy)
    (h : commandWrite c s = .next t) (herr : t.status.state = .error) : ∃ f, t = raise f (takeCommand c s) := by
  rcases hc : decode c with i | why
  · exact exec_error ((commandWrite_ok hs hc).symm.trans h) herr
  · cases (commandWrite_illegal hs hc).symm.trans h
    exact ⟨.illegalCommand, rfl⟩

/-- Settles O7: what a failing CMD write reaches is the failure entry in the state that has taken the command. -/
theorem failingCommandChangesOnlyStatus : Obligations.FailingCommandChangesOnlyStatus := by
  intro s t c rest hp hs h herr
  obtain ⟨f, rfl⟩ := commandWrite_error (s := { s with pending := rest }) hs ((step_of_cmdWrite hp).symm.trans h) herr
  exact ⟨f.code, f.code_mem, rfl⟩

/-! ### Reset -/

/-- STATUS reads as 0 after a reset (10_state.md R22, R29). -/
theorem Status.word_reset : Status.word { state := .idle, err := 0#8, lastop := 0#3 } = 0#32 := by decide

/-- Settles O50: a reset builds the reset state, whose sequencer is Idle, and Idle a micro-step holds the state. -/
theorem resetGivesTheResetValues : Obligations.ResetGivesTheResetValues := by
  refine ⟨fun s rest hp => ?_, fun cfg epoch => ?_⟩
  · exact ⟨resetEvent { s with pending := rest }, step_of_pending hp, rfl, rfl, Status.word_reset, rfl, rfl, rfl,
      rfl, rfl, rfl⟩
  · rw [step_of_pending_nil rfl, tick_of_idle rfl]

end Sys2Proof.Machine
end

section
/-! PROOFS. STATE = BUSY is never permanent (70_reset_and_hazards.md R156): every micro-step in Run lowers what is left of
the running operation, in the order of its outer loop, then its inner one. -/

namespace Sys2Proof.Machine

/-! ### What is left of a running operation -/

/-- The turns left of the operation's outer loop (over words, entries or groups) and, at that turn, of its inner one (over
bits, blocks or the words of a group), within the bounds of 10_state.md R21. -/
def Seq.workLeft (s : State) : Seq s.cfg.gw s.cfg.w → ℕ ×ₗ ℕ
  | .run .divref i _ t _ => toLex (s.dataLen.toNat - i, s.cfg.w - t)
  | .run .mktbl i _ t _ => toLex (2 ^ s.runSize - i, s.runSize - t)
  | .run .divword i _ _ _ => toLex (s.dataLen.toNat - i, 0)
  | .run .divsub i j _ wk => toLex (s.dataLen.toNat - i, wk.n - j)
  | .run .divmulti i j _ wk => toLex (s.dataLen.toNat - i, wk.k - j)
  | _ => toLex (0, 0)

def State.workLeft (s : State) : ℕ ×ₗ ℕ := s.seq.workLeft s

/-- From `s` with the sequencer at `q`, `t` has ended the operation or has less of it left. -/
def Seq.Advances (s : State) (q : Seq s.cfg.gw s.cfg.w) (t : State) : Prop :=
  t.seq = .idle ∨ t.workLeft < q.workLeft s

theorem State.workLeft_of_seq {s : State} {q : Seq s.cfg.gw s.cfg.w} (h : s.seq = q) : s.workLeft = q.workLeft s :=
  congrArg (Seq.workLeft s) h

/-- The outer loop, up to `n`, goes on from turn `i` to a later one. -/
theorem left_lt_of_outer {n i i' b b' : ℕ} (hi : i < n) (h : i < i') : toLex (n - i', b') < toLex (n - i, b) :=
  Prod.Lex.toLex_lt_toLex.2 (.inl (Nat.sub_lt_sub_left hi h))

/-- The inner loop, up to `n`, takes its turn `j`. -/
theorem left_lt_of_inner {a n j : ℕ} (hj : j < n) : toLex (a, n - (j + 1)) < toLex (a, n - j) :=
  Prod.Lex.toLex_lt_toLex.2 (.inr ⟨rfl, Nat.sub_succ_lt_self n j hj⟩)

/-! ### Every micro-step in Run advances -/

section Advances

variable {s : State} {i j t : Nat} {wk : Work s.cfg.gw s.cfg.w}

theorem divrefTick_advances : Seq.Advances s (.run .divref i j t wk) (divrefTick s i t wk) := by
  by_cases hi : i < s.dataLen.toNat
  · by_cases ht : t + 1 < s.cfg.w
    · rw [divrefTick_bit hi ht rfl]
      exact .inr (left_lt_of_inner (Nat.lt_of_succ_lt ht))
    · rw [divrefTick_lastBit hi (Nat.not_lt.1 ht) rfl]
      exact .inr (left_lt_of_outer hi (Nat.lt_add_one i))
  · rw [divrefTick_end (Nat.not_lt.1 hi)]
    exact .inl rfl

theorem mktblTick_advances : Seq.Advances s (.run .mktbl i j t wk) (mktblTick s i t wk) := by
  by_cases hi : i < 2 ^ s.runSize
  · by_cases ht : t < s.runSize
    · rw [mktblTick_bit hi ht rfl]
      exact .inr (left_lt_of_inner ht)
    · rw [mktblTick_entry hi (Nat.not_lt.1 ht) rfl]
      exact .inr (left_lt_of_outer hi (Nat.lt_add_one i))
  · rw [mktblTick_end (Nat.not_lt.1 hi)]
    exact .inl rfl

theorem divwordTick_advances : Seq.Advances s (.run .divword i j t wk) (divwordTick s i wk) := by
  by_cases hi : i < s.dataLen.toNat
  · rw [divwordTick_word hi]
    exact .inr (left_lt_of_outer hi (Nat.lt_add_one i))
  · rw [divwordTick_end (Nat.not_lt.1 hi)]
    exact .inl rfl

theorem divsubTick_advances : Seq.Advances s (.run .divsub i j t wk) (divsubTick s i j wk) := by
  by_cases hi : i < s.dataLen.toNat
  · by_cases hj : j + 1 < wk.n
    · rw [divsubTick_block hi hj rfl]
      exact .inr (left_lt_of_inner (Nat.lt_of_succ_lt hj))
    · rw [divsubTick_lastBlock hi (Nat.not_lt.1 hj) rfl]
      exact .inr (left_lt_of_outer hi (Nat.lt_add_one i))
  · rw [divsubTick_end (Nat.not_lt.1 hi)]
    exact .inl rfl

/-- The group in progress is never empty (45_big_table_divider.md R106). -/
theorem divmulti_group_pos (hb : Seq.Bounded s (.run .divmulti i j t wk)) (hi : i < s.dataLen.toNat) :
    0 < (if j = 0 then min wk.k (s.dataLen.toNat - i) else wk.m) := by
  obtain ⟨-, -, hk, -, -, hgroup⟩ := hb
  split
  · omega
  · obtain ⟨hj, -, -⟩ := hgroup (by omega)
    omega

theorem divmultiTick_advances (hb : Seq.Bounded s (.run .divmulti i j t wk)) :
    Seq.Advances s (.run .divmulti i j t wk) (divmultiTick s i j wk) := by
  by_cases hi : i < s.dataLen.toNat
  · have hpos := divmulti_group_pos hb hi
    obtain ⟨hmk, -⟩ := divmulti_group_bounds hb hi
    generalize hm : (if j = 0 then min wk.k (s.dataLen.toNat - i) else wk.m) = m at hpos hmk
    by_cases hj : j + 1 < m
    · rw [divmultiTick_word hi hm.symm hj]
      exact .inr (left_lt_of_inner (by omega : j < wk.k))
    · rw [divmultiTick_lastWord hi hm.symm (Nat.not_lt.1 hj) rfl]
      exact .inr (left_lt_of_outer hi (Nat.lt_add_of_pos_right hpos))
  · rw [divmultiTick_end (Nat.not_lt.1 hi)]
    exact .inl rfl

end Advances

theorem tick_advances {s : State} {op : Op} {i j t : Nat} {wk : Work s.cfg.gw s.cfg.w}
    (hseq : s.seq = .run op i j t wk) (hb : s.seq.Bounded s) :
    (tick s).seq = .idle ∨ (tick s).workLeft < s.workLeft := by
  rw [hseq] at hb
  rw [State.workLeft_of_seq hseq]
  change Seq.Advances s _ (tick s)
  cases op <;> simp only [tick, hseq]
  case norm => exact .inl rfl
  case divref => exact divrefTick_advances
  case mktbl => exact mktblTick_advances
  case divword => exact divwordTick_advances
  case divsub => exact divsubTick_advances
  case divmulti => exact divmultiTick_advances hb

theorem Ticked.pending {s t : State} (h : Ticked s t) : t.pending = s.pending := by
  cases h <;> rfl

/-- A micro-step takes no event of the host. -/
theorem tick_pending {s : State} (hinv : s.Inv) : (tick s).pending = s.pending := by
  obtain ⟨-, htick⟩ | ⟨-, htick⟩ := tick_cases hinv.seqBounded hinv.tableLenLegal
  · rw [htick]
  · exact htick.pending

/-! ### BUSY ends -/

/-- From the entry checks on, the micro-steps reach the end that the atomic reading gives (92_eei_decisions.md D9). -/
theorem check_runsTo_not_busy {s : State} {op : Op} (hp : s.pending = []) (hseq : s.seq = .check op)
    (hb : s.seq.Bounded s) : ∃ t, RunsTo s t ∧ t.status.state ≠ .busy := by
  rw [hseq] at hb
  obtain ⟨i, hc, rfl⟩ := hb
  obtain ⟨t, ht⟩ := exec_next i s
  have hrun := check_runsTo_exec hp hc ht
  rw [← hseq] at hrun
  refine ⟨t, hrun, ?_⟩
  rcases (exec_ends ht).2.state with h | h <;> rw [h] <;> nofun

/-- Enough micro-steps leave BUSY: the entry checks once, then well-founded induction on the work left. -/
theorem runsTo_not_busy (s : State) (hinv : s.Inv) (hp : s.pending = []) :
    ∃ t, RunsTo s t ∧ t.status.state ≠ .busy := by
  rcases hseq : s.seq with _ | op | ⟨op, i, j, t, wk⟩
  · exact ⟨s, .refl s, hinv.seqIdle.1 hseq⟩
  · exact check_runsTo_not_busy hp hseq hinv.seqBounded
  · have htick := RunsTo.tick hp
    rcases tick_advances hseq hinv.seqBounded with hidle | hlt
    · exact ⟨tick s, htick, (tick_inv hinv).seqIdle.1 hidle⟩
    · obtain ⟨t, hrun, hs⟩ := runsTo_not_busy (tick s) (tick_inv hinv) ((tick_pending hinv).trans hp)
      exact ⟨t, htick.trans hrun, hs⟩
termination_by s.workLeft
decreasing_by exact hlt

/-- Settles O49: every micro-step in Run leaves less work, or ends the operation. -/
theorem runningOperationEnds : Obligations.RunningOperationEnds := by
  intro s hinv hp
  obtain ⟨t, ⟨n, hrun⟩, hs⟩ := runsTo_not_busy s hinv hp
  exact ⟨n, t, hrun, hs⟩

end Sys2Proof.Machine
end

section
/-! PROOFS. A table divider does not look at the generator (70_reset_and_hazards.md R152): of what its checks pass on, the
masked generator alone depends on GEN, and its loop uses the other values. -/

namespace Sys2Proof.Machine

/-! ### The checks under another generator -/

/-- What checks answer, with the values they pass on changed. -/
def Checked.map {α β : Type} (f : α → β) : Checked α → Checked β
  | .fails why => .fails why
  | .passes a => .passes (f a)

/-- The normalized 4-tuple with another masked generator. -/
def Params.withG {gw : Nat} (g : BitVec gw) (p : Params gw) : Params gw := { p with g := g }

/-- `normalize` fails alike under another generator, or passes on a 4-tuple that differs in the masked generator. -/
theorem normalize_otherGen {gw : Nat} (d c : Nat) (gen gen' : BitVec gw) :
    normalize d gen' c = (normalize d gen c).map (Params.withG (gen' &&& maskOf gw d)) := by
  unfold normalize
  split
  · rfl
  split
  · rfl
  split <;> rfl

/-- The last check of DIVSUB and DIVMULTI, which passes on the table width `B` too. -/
theorem normalize_pair_otherGen {gw : Nat} (B d c : Nat) (gen gen' : BitVec gw) :
    ((normalize d gen' c).andThen fun p => .passes (B, p)) =
      ((normalize d gen c).andThen fun p => .passes (B, p)).map
        (Prod.map id (Params.withG (gen' &&& maskOf gw d))) := by
  rw [normalize_otherGen d c gen gen']
  cases normalize d gen c <;> rfl

section OtherGen

variable (s : State) (gen : BitVec s.cfg.gw) (d : Nat)

theorem divwordChecks_otherGen :
    divwordChecks { s with gen := gen } d =
      (divwordChecks s d).map (Params.withG (gen &&& maskOf s.cfg.gw d)) := by
  unfold divwordChecks
  split
  · rfl
  · exact normalize_otherGen d s.cfg.w s.gen gen

theorem divsubChecks_otherGen :
    divsubChecks { s with gen := gen } d =
      (divsubChecks s d).map (Prod.map id (Params.withG (gen &&& maskOf s.cfg.gw d))) := by
  unfold divsubChecks
  cases tableWidth s.tableLen.toNat with
  | fails f => rfl
  | passes B =>
    simp only [Checked.andThen]
    split
    · rfl
    split
    · rfl
    exact normalize_pair_otherGen B d s.cfg.w s.gen gen

theorem divmultiChecks_otherGen :
    divmultiChecks { s with gen := gen } d =
      (divmultiChecks s d).map (Prod.map id (Params.withG (gen &&& maskOf s.cfg.gw d))) := by
  unfold divmultiChecks
  cases tableWidth s.tableLen.toNat with
  | fails f => rfl
  | passes B =>
    simp only [Checked.andThen]
    split
    · rfl
    split
    · rfl
    exact normalize_pair_otherGen B d s.cfg.w s.gen gen

/-! ### The operations under another generator -/

/-- A command ends alike with GEN as it is and with `gen` in it: in the same failure, or with the same REM. -/
def EndsAlike (i : Instr) : Prop :=
  (∃ f, exec i s = .next (raise f s) ∧ exec i { s with gen := gen } = .next (raise f { s with gen := gen })) ∨
    ∃ v, exec i s = .next (finish { s with rem := v }) ∧
      exec i { s with gen := gen } = .next (finish { s with gen := gen, rem := v })

theorem divword_endsAlike : EndsAlike s gen (.divword d) := by
  have hother := divwordChecks_otherGen s gen d
  rcases hc : divwordChecks s d with f | p <;> rw [hc, Checked.map] at hother
  · exact .inl ⟨f, execDivword_fails hc, execDivword_fails hother⟩
  · exact .inr ⟨_, execDivword_passes hc, (execDivword_passes hother).trans rfl⟩

theorem divsub_endsAlike : EndsAlike s gen (.divsub d) := by
  have hother := divsubChecks_otherGen s gen d
  rcases hc : divsubChecks s d with f | ⟨B, p⟩ <;> rw [hc, Checked.map] at hother
  · exact .inl ⟨f, execDivsub_fails hc, execDivsub_fails hother⟩
  · exact .inr ⟨_, execDivsub_passes hc, (execDivsub_passes hother).trans rfl⟩

theorem divmulti_endsAlike : EndsAlike s gen (.divmulti d) := by
  have hother := divmultiChecks_otherGen s gen d
  rcases hc : divmultiChecks s d with f | ⟨B, p⟩ <;> rw [hc, Checked.map] at hother
  · exact .inl ⟨f, execDivmulti_fails hc, execDivmulti_fails hother⟩
  · exact .inr ⟨_, execDivmulti_passes hc, (execDivmulti_passes hother).trans rfl⟩

end OtherGen

/-- The two ends agree in what the host can see of them. -/
theorem EndsAlike.same_outcome {s : State} {gen : BitVec s.cfg.gw} {i : Instr} (h : EndsAlike s gen i) :
    remainderOf (exec i { s with gen := gen }) = remainderOf (exec i s) ∧
      failureOf (exec i { s with gen := gen }) = failureOf (exec i s) := by
  obtain ⟨f, h, h'⟩ | ⟨v, h, h'⟩ := h <;> rw [h, h'] <;> exact ⟨rfl, rfl⟩

/-- Settles O44: each table divider ends alike. -/
theorem tableDividersIgnoreTheGenerator : Obligations.TableDividersIgnoreTheGenerator := by
  intro s gen d i hi
  rcases hi with rfl | rfl | rfl
  · exact (divword_endsAlike s gen d).same_outcome
  · exact (divsub_endsAlike s gen d).same_outcome
  · exact (divmulti_endsAlike s gen d).same_outcome

end Sys2Proof.Machine
end
